-- ==== Sys2Proof/Word.lean ====
section
/-! DEFINITION. The data of the block: bytes, 4-byte words (00_scope.md R11) and 4x4 byte matrices (R10), with the
byte-by-byte exclusive-or the spec writes as a plus in a circle (R9). Accessors and orders of bytes are in
Sys2Proof/Machine/Matrix.lean. -/

namespace Sys2Proof

/-- A byte, 0 to 255 (00_scope.md R8). -/
abbrev Byte := BitVec 8

/-- A word: a sequence of 4 bytes, never an integer (00_scope.md R11). As a column, `b0` is row 0 (top). -/
structure Word where
  b0 : Byte
  b1 : Byte
  b2 : Byte
  b3 : Byte
  deriving DecidableEq, Repr, Inhabited

/-- A 4x4 byte matrix held as its four columns (00_scope.md R10, R11): the state matrix, or a round key. -/
structure Matrix4 where
  c0 : Word
  c1 : Word
  c2 : Word
  c3 : Word
  deriving DecidableEq, Repr, Inhabited

/-- The word of four zero bytes (10_state.md R38). -/
def Word.zero : Word := ⟨0, 0, 0, 0⟩

/-- The matrix of sixteen zero bytes (10_state.md R38). -/
def Matrix4.zero : Matrix4 := ⟨.zero, .zero, .zero, .zero⟩

/-- Exclusive-or of two words, byte by byte (00_scope.md R9). -/
def Word.xor (x y : Word) : Word := ⟨x.b0 ^^^ y.b0, x.b1 ^^^ y.b1, x.b2 ^^^ y.b2, x.b3 ^^^ y.b3⟩

/-- Exclusive-or of two matrices, byte by byte (00_scope.md R9). -/
def Matrix4.xor (m k : Matrix4) : Matrix4 := ⟨m.c0.xor k.c0, m.c1.xor k.c1, m.c2.xor k.c2, m.c3.xor k.c3⟩

end Sys2Proof
end

