-- ==== Sys2Proof/Syntax.lean ====
section
/-! DEFINITION. The instructions: one constructor per row of opcode_table.json (30_encoding.md R91, R94), the command
set, and the names of the register map (20_memory.md R63). -/

namespace Sys2Proof

/-- The commands that launch (10_state.md R32): the values `cur_op` takes. -/
inductive Op where
  | keyexp | enc | dec | sub | isub | shr | ishr | mix | imix | ark
  deriving DecidableEq, Repr

/-- The eleven commands of 30_encoding.md R94: NOP, or one that launches. -/
inductive Command where
  | nop
  | launch (op : Op)
  deriving DecidableEq, Repr

/-- One host bus transaction (30_encoding.md R90, R91). The CMD8 rows are writes of a command code to CMD; they have
no operand of their own (R92, R93). -/
inductive Instr where
  /-- RD: read of the register byte at address `a` (20_memory.md R60). -/
  | rd (a : Byte)
  /-- WR: write of byte `d` to address `a` (R61), where the pair is no command row. -/
  | wr (a d : Byte)
  /-- Code 0x00 (42_block_transform.md R150). -/
  | nop
  /-- Code 0x01 (41_key_schedule.md R140). -/
  | keyexp
  /-- Code 0x02 (42_block_transform.md R166). -/
  | enc
  /-- Code 0x03 (R168). -/
  | dec
  /-- Code 0x10 (R152). -/
  | sub
  /-- Code 0x11 (R154). -/
  | isub
  /-- Code 0x12 (R156). -/
  | shr
  /-- Code 0x13 (R158). -/
  | ishr
  /-- Code 0x14 (R160). -/
  | mix
  /-- Code 0x15 (R162). -/
  | imix
  /-- Code 0x16 (R164). -/
  | ark
  deriving DecidableEq, Repr

/-- The names of the register map (20_memory.md R63), the assembler's register names (30_encoding.md R98), and
`reserved` for an address without a register (20_memory.md R73). -/
inductive Reg where
  | key (i : Fin 32)
  | blk (i : Fin 16)
  | strl | strh | keylen | rksel | cmd | status | err | nr
  | rkdata (i : Fin 16)
  | reserved
  deriving DecidableEq, Repr

/-- The address of CMD (20_memory.md R63, R72). -/
def cmdAddr : Byte := 0x34

/-- The code of a command (30_encoding.md R94). -/
def Command.code : Command → Byte
  | .nop => 0x00
  | .launch .keyexp => 0x01
  | .launch .enc => 0x02
  | .launch .dec => 0x03
  | .launch .sub => 0x10
  | .launch .isub => 0x11
  | .launch .shr => 0x12
  | .launch .ishr => 0x13
  | .launch .mix => 0x14
  | .launch .imix => 0x15
  | .launch .ark => 0x16

/-- The instruction that writes a command's code to CMD (30_encoding.md R99, `CMD op`). -/
def Command.instr : Command → Instr
  | .nop => .nop
  | .launch .keyexp => .keyexp
  | .launch .enc => .enc
  | .launch .dec => .dec
  | .launch .sub => .sub
  | .launch .isub => .isub
  | .launch .shr => .shr
  | .launch .ishr => .ishr
  | .launch .mix => .mix
  | .launch .imix => .imix
  | .launch .ark => .ark

end Sys2Proof
end

