-- ==== Sys2Proof/WellFormed.lean ====
section
/-! DEFINITION. Which instructions are well formed. A WR term must not spell a command row: opcode_table.json says of
WR that "a write with A = 0x34 is a command (rows below, more specific match wins; the other 245 D values raise
ILLCMD)". -/

namespace Sys2Proof

/-- The eleven legal command bytes (30_encoding.md R94, R96). -/
def commandCodes : List Byte := [0x00, 0x01, 0x02, 0x03, 0x10, 0x11, 0x12, 0x13, 0x14, 0x15, 0x16]

/-- The pair (A, D) of a write that a command row of the table matches. -/
def isCommandRow (a d : Byte) : Bool := a == cmdAddr && commandCodes.contains d

/-- A well-formed instruction: a WR is one no command row matches; every other term is well formed (30_encoding.md
R96: "every value of W, A and D is a valid transaction"). -/
def Instr.wellFormed : Instr → Bool
  | .wr a d => !isCommandRow a d
  | .rd _ => true
  | .nop | .keyexp | .enc | .dec | .sub | .isub | .shr | .ishr | .mix | .imix | .ark => true

end Sys2Proof
end

