-- ==== Sys2Proof/Decode.lean ====
section
/-! DEFINITION. Decoding of bus words and command bytes (30_encoding.md R91, R95), total and by name where it refuses,
and then the encoder, written from the same tables. -/

namespace Sys2Proof

/-- Why a listing's bytes are no bus word. The block itself never sees such bytes: its pins carry exactly 17 bits. -/
inductive DecodeError where
  /-- Fewer than the three bytes a 17-bit word takes. -/
  | truncated
  /-- A bit above bit 16 is set: the word is longer than BUS17 (30_encoding.md R91). -/
  | notBus17
  deriving DecidableEq, Repr

/-- `Decode(d)` of 30_encoding.md R95: the row of R94 whose code equals `d` on all 8 bits, or none for ILLEGAL. -/
def decodeCmd (d : Byte) : Option Command :=
  if d = 0x00 then some .nop
  else if d = 0x01 then some (.launch .keyexp)
  else if d = 0x02 then some (.launch .enc)
  else if d = 0x03 then some (.launch .dec)
  else if d = 0x10 then some (.launch .sub)
  else if d = 0x11 then some (.launch .isub)
  else if d = 0x12 then some (.launch .shr)
  else if d = 0x13 then some (.launch .ishr)
  else if d = 0x14 then some (.launch .mix)
  else if d = 0x15 then some (.launch .imix)
  else if d = 0x16 then some (.launch .ark)
  else none

/-- The write of `d` to `a`: a command row where one matches, else WR (opcode_table.json, note of WR). -/
def decodeWrite (a d : Byte) : Instr :=
  if a = cmdAddr then
    match decodeCmd d with
    | some c => c.instr
    | none => .wr a d
  else .wr a d

/-- Field `W` of a bus word, bit 16 (30_encoding.md R91). -/
def busW (w : BitVec 17) : Bool := w.getLsbD 16

/-- Field `A`, bits 15:8. -/
def busA (w : BitVec 17) : Byte := w.extractLsb' 8 8

/-- Field `D`, bits 7:0. -/
def busD (w : BitVec 17) : Byte := w.extractLsb' 0 8

/-- The transaction a bus word stands for. Every word is one (30_encoding.md R96); a read ignores `D` (R91). -/
def decodeWord (w : BitVec 17) : Instr := if busW w then decodeWrite (busA w) (busD w) else .rd (busA w)

/-- Decode the first bus word of a listing held as bytes, three to a word, low byte first (log entry 5): the
instruction and the rest, or the reason why not. -/
def decodeBytes : List Byte → Except DecodeError (Instr × List Byte)
  | d :: a :: x :: rest => if x.toNat < 2 then .ok (decodeWord (x.setWidth 1 ++ a ++ d), rest) else .error .notBus17
  | _ => .error .truncated

/-- The three bytes of a bus word in a listing, low byte first (log entry 5). -/
def wordBytes (w : Nat) : List Byte := [BitVec.ofNat 8 w, BitVec.ofNat 8 (w / 256), BitVec.ofNat 8 (w / 65536)]

/-- The instruction the decoder reads from the word `w` of `nbits` bits, numbered as opcode_table.json numbers them
(bit 0 the least significant); bits above `nbits` are 0. -/
def decodeTableWord (nbits w : Nat) : Option Instr :=
  let v := w % 2 ^ nbits
  if v < 2 ^ 24 then
    match decodeBytes (wordBytes v) with
    | .ok (i, _) => some i
    | .error _ => none
  else none

/-- Lay out a bus word: `W` in bit 16, `A` in 15:8, `D` in 7:0 (30_encoding.md R91). -/
def busWord (wr : Bool) (a d : Byte) : BitVec 17 := BitVec.ofBool wr ++ a ++ d

/-- The bus word of an instruction: a read's `D` is "written as 0x00" (R91), a command is the write of its code to
CMD (R99). -/
def encode : Instr → BitVec 17
  | .rd a => busWord false a 0x00
  | .wr a d => busWord true a d
  | .nop => busWord true cmdAddr 0x00
  | .keyexp => busWord true cmdAddr 0x01
  | .enc => busWord true cmdAddr 0x02
  | .dec => busWord true cmdAddr 0x03
  | .sub => busWord true cmdAddr 0x10
  | .isub => busWord true cmdAddr 0x11
  | .shr => busWord true cmdAddr 0x12
  | .ishr => busWord true cmdAddr 0x13
  | .mix => busWord true cmdAddr 0x14
  | .imix => busWord true cmdAddr 0x15
  | .ark => busWord true cmdAddr 0x16

/-- The bytes of an instruction in a listing. -/
def encodeBytes (i : Instr) : List Byte := wordBytes (encode i).toNat

end Sys2Proof
end

