-- ==== Sys2Proof/Machine/Field.lean ====
section
/-! DEFINITION. Arithmetic in GF(2^8) modulo x^8 + x^4 + x^3 + x + 1 (40_primitives.md R100 to R104). -/

namespace Sys2Proof

/-- Multiplication by 2 (40_primitives.md R101): shift left within 8 bits; if the bit shifted out was 1, add 0x1B. -/
def xtime (a : Byte) : Byte := (a <<< 1) ^^^ (if a.getLsbD 7 then 0x1B else 0x00)

/-- One turn of the loop of 40_primitives.md R102 for bit `k` of `b`, on the pair (p, t). -/
def gmulStep (b : Byte) (pt : Byte × Byte) (k : Nat) : Byte × Byte :=
  (if b.getLsbD k then pt.1 ^^^ pt.2 else pt.1, xtime pt.2)

/-- The generic double-and-reduce product (40_primitives.md R102): the loop over k = 0 to 7. -/
def gmul (a b : Byte) : Byte := ([0, 1, 2, 3, 4, 5, 6, 7].foldl (gmulStep b) (0x00, a)).1

end Sys2Proof
end

