-- ==== Sys2Proof/Machine/Matrix.lean ====
section
/-! DEFINITION. Reading and building words and matrices, and the column-major relation of a 16-byte sequence and a
matrix (00_scope.md R10, R11). -/

namespace Sys2Proof

/-- Byte `r` of a word: row `r` of a column (00_scope.md R11). -/
def Word.byte (x : Word) : Fin 4 → Byte
  | 0 => x.b0
  | 1 => x.b1
  | 2 => x.b2
  | 3 => x.b3

/-- The word whose byte `r` is `f r`. -/
def Word.ofFn (f : Fin 4 → Byte) : Word := ⟨f 0, f 1, f 2, f 3⟩

/-- `Col(m, c)` (00_scope.md R11). -/
def Matrix4.col (m : Matrix4) : Fin 4 → Word
  | 0 => m.c0
  | 1 => m.c1
  | 2 => m.c2
  | 3 => m.c3

/-- `m[r][c]` (00_scope.md R10). -/
def Matrix4.get (m : Matrix4) (r c : Fin 4) : Byte := (m.col c).byte r

/-- The matrix whose columns are `f 0` to `f 3`. -/
def Matrix4.ofCols (f : Fin 4 → Word) : Matrix4 := ⟨f 0, f 1, f 2, f 3⟩

/-- The matrix with `m[r][c] = f r c`. -/
def Matrix4.ofFn (f : Fin 4 → Fin 4 → Byte) : Matrix4 := .ofCols fun c => .ofFn fun r => f r c

/-- `m` with `m[r][c] <- v`. -/
def Matrix4.set (m : Matrix4) (r c : Fin 4) (v : Byte) : Matrix4 :=
  .ofFn fun r' c' => if r' = r ∧ c' = c then v else m.get r' c'

/-- Row of byte `i` of a 16-byte sequence: `i mod 4` (00_scope.md R10). -/
def rowOf (i : Fin 16) : Fin 4 := ⟨i.val % 4, Nat.mod_lt _ (by decide)⟩

/-- Column of byte `i` of a 16-byte sequence: `i / 4` (00_scope.md R10). -/
def colOf (i : Fin 16) : Fin 4 := ⟨i.val / 4, by omega⟩

/-- `Flat(m)[i] = m[i mod 4][i / 4]` (00_scope.md R10). -/
def Matrix4.flatAt (m : Matrix4) (i : Fin 16) : Byte := m.get (rowOf i) (colOf i)

/-- `Flat(m)`, the 16 bytes in order. -/
def Matrix4.flat (m : Matrix4) : Vector Byte 16 := Vector.ofFn m.flatAt

/-- `Mat(b)[r][c] = b[4c + r]` (00_scope.md R10). -/
def Matrix4.mat (b : Vector Byte 16) : Matrix4 := .ofFn fun r c => b[4 * c.val + r.val]

end Sys2Proof
end

