-- ==== Sys2Proof/Machine/Primitives.lean ====
section
/-! DEFINITION. The round primitives on a matrix (40_primitives.md R112 to R115) and the word primitives of the key
schedule (R117, R118). Every output byte is computed from the matrix as it was before the function. -/

namespace Sys2Proof

/-- SubBytes (40_primitives.md R112). -/
def subBytes (m : Matrix4) : Matrix4 := .ofFn fun r c => sbox (m.get r c)

/-- InvSubBytes (40_primitives.md R112). -/
def invSubBytes (m : Matrix4) : Matrix4 := .ofFn fun r c => invSbox (m.get r c)

/-- ShiftRows: `m[r][(c + r) mod 4]` (40_primitives.md R113). -/
def shiftRows (m : Matrix4) : Matrix4 := .ofFn fun r c => m.get r (c + r)

/-- InvShiftRows: `m[r][(c - r) mod 4]` (40_primitives.md R113). -/
def invShiftRows (m : Matrix4) : Matrix4 := .ofFn fun r c => m.get r (c - r)

/-- The exclusive-or over k = 0 to 3 of `m[k][j] * coeff[i][k]` in GF(2^8) (40_primitives.md R114). -/
def mixWith (coeff : Fin 4 → Fin 4 → Byte) (m : Matrix4) : Matrix4 :=
  .ofFn fun i j => gmul (m.get 0 j) (coeff i 0) ^^^ gmul (m.get 1 j) (coeff i 1) ^^^
    gmul (m.get 2 j) (coeff i 2) ^^^ gmul (m.get 3 j) (coeff i 3)

/-- MixColumns (40_primitives.md R114). -/
def mixColumns (m : Matrix4) : Matrix4 := mixWith mixM m

/-- InvMixColumns (40_primitives.md R114). -/
def invMixColumns (m : Matrix4) : Matrix4 := mixWith invMixM m

/-- AddRoundKey (40_primitives.md R115). -/
def addRoundKey (m k : Matrix4) : Matrix4 := m.xor k

/-- RotWord: `(w1, w2, w3, w0)` (40_primitives.md R117; 90_conflicts.md C4). -/
def rotWord (x : Word) : Word := ⟨x.b1, x.b2, x.b3, x.b0⟩

/-- SubWord (40_primitives.md R118). -/
def subWord (x : Word) : Word := ⟨sbox x.b0, sbox x.b1, sbox x.b2, sbox x.b3⟩

end Sys2Proof
end

