-- ==== Sys2Proof/Machine/KeyExpansion.lean ====
section
/-! DEFINITION. The key expansion as a pure function (00_scope.md R6, R7; 41_key_schedule.md R130 to R136). -/

namespace Sys2Proof

/-- `NK(s) = s / 32`, the key length in words (00_scope.md R6). -/
def nkOf (strength : BitVec 16) : Nat := strength.toNat / 32

/-- The legal strengths (00_scope.md R6). -/
def legalStrength (strength : BitVec 16) : Bool := strength == 128 || strength == 192 || strength == 256

/-- The number of words of the round keys 0 to `nr`: `4 * (nr + 1)` (00_scope.md R7). -/
def scheduleWords (nr : Nat) : Nat := 4 * (nr + 1)

/-- Byte `i` of the key register. The schedule reads only i < 32 (log entry 8). -/
def keyByte (key : Vector Byte 32) (i : Nat) : Byte := key[i]?.getD 0x00

/-- `W[i]` for i < Nk: key bytes 4i to 4i+3 (41_key_schedule.md R131). -/
def keyWord (key : Vector Byte 32) (i : Nat) : Word :=
  ⟨keyByte key (4 * i), keyByte key (4 * i + 1), keyByte key (4 * i + 2), keyByte key (4 * i + 3)⟩

/-- The word `t` of the loop of 41_key_schedule.md R131 at index `i`, from `prev = W[i-1]`. -/
def scheduleTemp (nk i : Nat) (prev : Word) : Word :=
  if i % nk = 0 then (subWord (rotWord prev)).xor (rconWord (i / nk))
  else if nk = 8 ∧ i % nk = 4 then subWord prev
  else prev

/-- `W[i]` from `back = W[i-Nk]` and `prev = W[i-1]` (41_key_schedule.md R131). -/
def scheduleWord (nk i : Nat) (back prev : Word) : Word := back.xor (scheduleTemp nk i prev)

/-- The next word of a schedule whose words so far are `ws`. -/
def nextScheduleWord (nk : Nat) (ws : List Word) : Word :=
  scheduleWord nk ws.length (ws.getD (ws.length - nk) .zero) (ws.getD (ws.length - 1) .zero)

/-- The loop of 41_key_schedule.md R131: `n` more words. -/
def expandWords (nk : Nat) : Nat → List Word → List Word
  | 0, ws => ws
  | n + 1, ws => expandWords nk n (ws ++ [nextScheduleWord nk ws])

/-- `KeyExpansion(K)` for a key of `4 nk` bytes (41_key_schedule.md R131): the words 0 to 4(Nr+1)-1, Nr = nk + 6. -/
def keyExpansion (nk : Nat) (key : Vector Byte 32) : List Word :=
  expandWords nk (scheduleWords (nk + 6) - nk) ((List.range nk).map (keyWord key))

/-- Word `i` of a round-key memory. Only i < 60 exists (log entry 8). -/
def wordAt (w : Vector Word 60) (i : Nat) : Word := w[i]?.getD .zero

/-- Round-key slot `k`: `rk(k)[r][c] = w[4k + c][r]` (10_state.md R26). -/
def roundKey (w : Vector Word 60) (k : Nat) : Matrix4 := .ofCols fun c => wordAt w (4 * k + c.val)

end Sys2Proof
end

