-- ==== Sys2Proof/Machine/Cipher.lean ====
section
/-! DEFINITION. The forward and inverse cipher of one block (42_block_transform.md R165, R167), for round keys
`rk 0` to `rk nr`. -/

namespace Sys2Proof

/-- One full round of the forward cipher with round key `k` (42_block_transform.md R165). -/
def encRound (k m : Matrix4) : Matrix4 := addRoundKey (mixColumns (shiftRows (subBytes m))) k

/-- One full round of the inverse cipher with round key `k` (42_block_transform.md R167). -/
def decRound (k m : Matrix4) : Matrix4 := invSubBytes (invShiftRows (invMixColumns (addRoundKey m k)))

/-- The rounds `for i in 1..n` of the forward cipher, in order. -/
def encRounds (rk : Nat → Matrix4) : Nat → Matrix4 → Matrix4
  | 0, m => m
  | n + 1, m => encRound (rk (n + 1)) (encRounds rk n m)

/-- The rounds `for i in n..1 step -1` of the inverse cipher, in order. -/
def decRounds (rk : Nat → Matrix4) : Nat → Matrix4 → Matrix4
  | 0, m => m
  | n + 1, m => decRounds rk n (decRound (rk (n + 1)) m)

/-- `Cipher(m, Nr)` (42_block_transform.md R165). The last round has no MixColumns. -/
def cipher (rk : Nat → Matrix4) (nr : Nat) (m : Matrix4) : Matrix4 :=
  addRoundKey (shiftRows (subBytes (encRounds rk (nr - 1) (addRoundKey m (rk 0))))) (rk nr)

/-- `InvCipher(m, Nr)` (42_block_transform.md R167). -/
def invCipher (rk : Nat → Matrix4) (nr : Nat) (m : Matrix4) : Matrix4 :=
  addRoundKey (decRounds rk (nr - 1) (invSubBytes (invShiftRows (addRoundKey m (rk nr))))) (rk 0)

end Sys2Proof
end

