-- ==== Sys2Proof/Config.lean ====
section
/-! DEFINITION. Two of the three parameters the spec leaves open (00_scope.md R6; 92_eei_decisions.md, OPEN parameters),
as constants without a body: no proof can see their values. The third, `pre_reset_state`, is a state: it stands in
Sys2Proof/Machine/State.lean. -/

namespace Sys2Proof

/-- The OPEN parameter `draw`: the byte of the n-th unspecified read, "a free draw, under no law" (20_memory.md
R62 (d), (e)); also a read in a cycle with `rst = 1` (70_reset_and_hazards.md R221). That every instance and every run reads
this one sequence is the model's choice: log entry 4. -/
opaque Config.draw : Nat → Byte

/-- The OPEN parameter `AES_BASE`: the platform address of offset 0x00 of the register map (20_memory.md R77). Log
entry 11. -/
opaque Config.aesBase : Nat

/-- Where the platform sees the register at offset `a` (20_memory.md R77). -/
def Config.platformAddress (a : Byte) : Nat := Config.aesBase + a.toNat

end Sys2Proof
end

