-- ==== Sys2Proof/Machine/State.lean ====
section
/-! DEFINITION. The state of one instance of AES-CORE (10_state.md R20, R40), the pins of 43_sequencer.md R184, the
stops (there are none), and the state after reset (10_state.md R38). -/

namespace Sys2Proof.Machine

/-- The state machine's states (10_state.md R31, 43_sequencer.md R183). -/
inductive Fsm where
  | idle | kx | enc | dec | stg
  deriving DecidableEq, Repr, Inhabited

/-- The input pins of one clock cycle (43_sequencer.md R184): `rst`, `bus_en`, `bus_we`, `bus_addr`, `bus_wdata`. -/
structure Pins where
  rst : Bool
  en : Bool
  we : Bool
  addr : Byte
  wdata : Byte
  deriving DecidableEq, Repr

/-- A cycle in which the host does nothing. -/
def Pins.idle : Pins := ⟨false, false, false, 0, 0⟩

/-- The state: the elements of 10_state.md R20 in its order, then the model's own three fields. -/
structure State where
  /-- `key[0..31]`, the key register (R21). -/
  key : Vector Byte 32
  /-- `st[r][c]`, the state matrix (R22). -/
  st : Matrix4
  /-- The requested cipher strength in bits (R23). -/
  strength : BitVec 16
  /-- The declared key length in bytes (R24). -/
  keylen : Byte
  /-- The round-key select register (R25). -/
  rksel : Byte
  /-- `w[0..59]`, the round-key memory (R26). -/
  w : Vector Word 60
  /-- The round count of the key last accepted by KEYEXP, or 0 (R27). -/
  nr : Byte
  /-- The round-key memory holds the round keys of the key registers (R28). -/
  keyValid : Bool
  /-- The sticky error bits: CFG, NOKEY, ILLCMD, BUSYACC, RKRANGE from bit 0 up (R29). -/
  err : BitVec 5
  /-- A command is in flight (R30). -/
  busy : Bool
  /-- The sequencer's state (R31). -/
  fsm : Fsm
  /-- The sequencer's step counter (R31). -/
  seq : BitVec 6
  /-- `cur_op`, the in-flight or last command; none is the spec's NONE (R32, R38). -/
  curOp : Option Op
  /-- `cur_arg`, `rksel` as latched at launch (R32). -/
  curArg : Byte
  /-- The pin values of the coming clock cycles, oldest first (the host's side of 43_sequencer.md R184; log entry 2). -/
  inputs : List Pins
  /-- What the output `bus_rdata` showed in the cycle just taken (43_sequencer.md R184; log entry 3). -/
  rdata : Byte
  /-- How many unspecified bytes have been drawn (20_memory.md R62; log entry 4). -/
  draws : Nat
  deriving DecidableEq, Repr, Inhabited

/-- The reasons a step can stop with a fault. There are none: "No behaviour of AES-CORE is `stuck`. Every access
completes in its cycle" (93_implementation_defined.md), and an error is the rejection of an access, which is a next
state (60_exceptions.md R200, R201). -/
inductive Fault where
  deriving DecidableEq, Repr

/-- The reasons a step can be refused. -/
inductive Refusal where
  /-- An instruction without a meaning yet. Raised by an arm of exec only; no arm of this model raises it. Safe. -/
  | notModelled (mnemonic : String)
  deriving DecidableEq, Repr

/-- The state after reset (10_state.md R38, 70_reset_and_hazards.md R220). The last three fields are the model's own
(log entries 2, 3 and 4). -/
def State.reset : State where
  key := Vector.replicate 32 0x00
  st := Matrix4.zero
  strength := 0
  keylen := 0
  rksel := 0
  w := Vector.replicate 60 Word.zero
  nr := 0
  keyValid := false
  err := 0
  busy := false
  fsm := .idle
  seq := 0
  curOp := none
  curArg := 0
  inputs := []
  rdata := 0
  draws := 0

/-- The OPEN parameter `pre_reset_state`: the state before the first cycle with `rst = 1`, every element unspecified
(70_reset_and_hazards.md R221). A constant without a body: nothing is known of it. The model starts from `State.reset`;
a reset cycle leads there from this state as from any (log entry 12). -/
opaque State.preReset : State

end Sys2Proof.Machine
end

