-- ==== Sys2Proof/Machine/Flags.lean ====
section
/-! DEFINITION. The error bits and the status byte (10_state.md R29, R35; 20_memory.md R68, R69; 60_exceptions.md R202).
AES-CORE has no arithmetic flags (R35). -/

namespace Sys2Proof.Machine

/-- The causes of a rejected access (60_exceptions.md R202). -/
inductive ErrCode where
  | cfg | nokey | illcmd | busyacc | rkrange
  deriving DecidableEq, Repr

/-- The cause code of an error, its bit index in `err` (60_exceptions.md R202). -/
def ErrCode.code : ErrCode → Nat
  | .cfg => 0
  | .nokey => 1
  | .illcmd => 2
  | .busyacc => 3
  | .rkrange => 4

/-- The 5-bit word with exactly the bit of one cause set. -/
def ErrCode.mask (e : ErrCode) : BitVec 5 := (1 : BitVec 5) <<< e.code

/-- `err` with the bit of a cause set; the other bits stay (60_exceptions.md R208). -/
def errSet (err : BitVec 5) (e : ErrCode) : BitVec 5 := err ||| e.mask

/-- `err AND NOT d[4:0]`: write 1 to clear (20_memory.md R68). -/
def errCleared (err : BitVec 5) (d : Byte) : BitVec 5 := err &&& ~~~(d.extractLsb' 0 5)

/-- What ERR reads: `zext_8(err[4:0])` (20_memory.md R68). -/
def errByte (s : State) : Byte := s.err.setWidth 8

/-- What STATUS reads: `zext_8({(err != 0), key_valid, busy})` (20_memory.md R69). -/
def statusByte (s : State) : Byte :=
  (BitVec.ofBool (s.err != 0) ++ BitVec.ofBool s.keyValid ++ BitVec.ofBool s.busy).setWidth 8

/-- The output pin `busy_o`, a copy of `busy` (43_sequencer.md R184). -/
def busyOut (s : State) : Bool := s.busy

end Sys2Proof.Machine
end

