-- ==== Sys2Proof/Machine/Operands.lean ====
section
/-! DEFINITION. The operand of a bus access: the register an address names (20_memory.md R63), and what it reads as
(R64 to R73). -/

namespace Sys2Proof.Machine

/-- The register at an address (20_memory.md R63, R73). -/
def regAt (a : Byte) : Reg :=
  if h : a.toNat < 0x20 then .key ⟨a.toNat, h⟩
  else if h : a.toNat < 0x30 then .blk ⟨a.toNat - 0x20, by omega⟩
  else if a.toNat = 0x30 then .strl
  else if a.toNat = 0x31 then .strh
  else if a.toNat = 0x32 then .keylen
  else if a.toNat = 0x33 then .rksel
  else if a.toNat = 0x34 then .cmd
  else if a.toNat = 0x35 then .status
  else if a.toNat = 0x36 then .err
  else if a.toNat = 0x37 then .nr
  else if a.toNat < 0x40 then .reserved
  else if h : a.toNat < 0x50 then .rkdata ⟨a.toNat - 0x40, by omega⟩
  else .reserved

/-- Byte `i` of the RKDATA window (20_memory.md R70). -/
def rkdataByte (s : State) (i : Fin 16) : Byte :=
  if s.rksel.toNat ≤ 14 then (wordAt s.w (4 * s.rksel.toNat + (colOf i).val)).byte (rowOf i) else 0x00

/-- What a register reads as (20_memory.md R64 to R73). -/
def regValue (s : State) : Reg → Byte
  | .key i => s.key[i]
  | .blk i => s.st.get (rowOf i) (colOf i)
  | .strl => s.strength.extractLsb' 0 8
  | .strh => s.strength.extractLsb' 8 8
  | .keylen => s.keylen
  | .rksel => s.rksel
  | .cmd => 0x00
  | .status => statusByte s
  | .err => errByte s
  | .nr => s.nr
  | .rkdata i => rkdataByte s i
  | .reserved => 0x00

/-- `RegRead(a)` (20_memory.md R60): the byte of the register space at address `a`. -/
def regRead (a : Byte) (s : State) : Byte := regValue s (regAt a)

/-- Whether a read of `a` races the in-flight command, so that its value is unspecified (20_memory.md R62 (d), (e)). -/
def racingRead (a : Byte) (s : State) : Bool :=
  s.busy &&
    match regAt a, s.curOp with
    | .blk _, some o => o != .keyexp
    | .rkdata _, some o => o == .keyexp
    | _, _ => false

end Sys2Proof.Machine
end

