-- ==== Sys2Proof/Machine/Ops.lean ====
section
/-! DEFINITION. The operations the meanings share: rejecting an access (60_exceptions.md R201), the busy guard of every
host write (20_memory.md R61), the launch of a command (43_sequencer.md R181), and an unspecified read (R62). -/

namespace Sys2Proof.Machine

/-- `raise Err<NAME>`: set one error bit and do nothing else (60_exceptions.md R201). This is all there is to taking an
exception: nothing is vectored or saved and no mode changes (R200, R211). -/
def raise (e : ErrCode) (s : State) : State := { s with err := errSet s.err e }

/-- The way back from an error: a host write of ones to ERR clears bits (20_memory.md R68; 60_exceptions.md R212). -/
def clearErr (d : Byte) (s : State) : State := { s with err := errCleared s.err d }

/-- The state machine's state for a command, `state(op)` (43_sequencer.md R181). -/
def fsmOf : Op → Fsm
  | .keyexp => .kx
  | .enc => .enc
  | .dec => .dec
  | .sub | .isub | .shr | .ishr | .mix | .imix | .ark => .stg

/-- `launch: busy <- 1 ; fsm <- state(op) ; seq <- 0 ; cur_op <- op ; cur_arg <- rksel` (43_sequencer.md R181). -/
def launch (o : Op) (s : State) : State :=
  { s with busy := true, fsm := fsmOf o, seq := 0, curOp := some o, curArg := s.rksel }

/-- The end of a command: `busy <- 0 ; fsm <- IDLE ; seq <- 0` (43_sequencer.md R182). -/
def finish (s : State) : State := { s with busy := false, fsm := .idle, seq := 0 }

/-- `MemWrite` (20_memory.md R61): a write to 0x00..0x34 while busy is dropped with BUSYACC; otherwise `write` acts. -/
def hostWrite (a : Byte) (write : State → State) (s : State) : State :=
  if s.busy && decide (a.toNat ≤ 0x34) then raise .busyacc s else write s

/-- A read that returns `v`. A read changes no state of the block (20_memory.md R60); `rdata` is the output. -/
def readReturns (v : Byte) (s : State) : State := { s with rdata := v }

/-- A read that returns an unspecified byte (20_memory.md R62 (d), (e)): the next draw. -/
def readDraws (s : State) : State := { s with rdata := Config.draw s.draws, draws := s.draws + 1 }

end Sys2Proof.Machine
end

