-- ==== Sys2Proof/Machine/KeySchedule.lean ====
section
/-! DEFINITION. The KEYEXP command (41_key_schedule.md R140 to R146). -/

namespace Sys2Proof.Machine

/-- The check of KEYEXP (41_key_schedule.md R141), as an acceptance: a legal strength and `keylen * 8 = strength`. -/
def configLegal (s : State) : Bool := legalStrength s.strength && s.keylen.toNat * 8 == s.strength.toNat

/-- KEYEXP at a CMD write with `busy = 0`: rejected with CFG, clearing `key_valid` (41_key_schedule.md R141), or
launched with the new round count (R142). -/
def launchKeyexp (s : State) : State :=
  if configLegal s then
    launch .keyexp { s with nr := BitVec.ofNat 8 (nkOf s.strength + 6), keyValid := false }
  else raise .cfg { s with keyValid := false }

/-- KEYEXP: the write of 0x01 to CMD (41_key_schedule.md R140). -/
def execKeyexp (s : State) : Host.Outcome State Fault Refusal := .next (hostWrite cmdAddr launchKeyexp s)

/-- `for i in 0..4*(nr+1)-1: w[i] <- W[i]`, the other words kept (41_key_schedule.md R143, R144). -/
def storeSchedule (nr : Nat) (ws : List Word) (w : Vector Word 60) : Vector Word 60 :=
  Vector.ofFn fun i => if i.val < scheduleWords nr then ws.getD i.val w[i] else w[i]

/-- The results of a KEYEXP commit (41_key_schedule.md R143). -/
def keyexpCommit (s : State) : State :=
  { s with
    w := storeSchedule s.nr.toNat (keyExpansion (nkOf s.strength) s.key) s.w
    keyValid := true }

/-- Micro-step 0 of KEYEXP: the key's own words (43_sequencer.md R187). -/
def loadKeyWords (nk : Nat) (key : Vector Byte 32) (w : Vector Word 60) : Vector Word 60 :=
  Vector.ofFn fun i => if i.val < nk then keyWord key i.val else w[i]

/-- Micro-step `n` of KEYEXP (43_sequencer.md R187): step 0 loads the key, step n >= 1 writes word `nk + n - 1`. -/
def keyexpMicro (n : Nat) (s : State) : State :=
  let nk := nkOf s.strength
  if n = 0 then { s with w := loadKeyWords nk s.key s.w }
  else
    let i := nk + n - 1
    { s with w := s.w.setIfInBounds i (scheduleWord nk i (wordAt s.w (i - nk)) (wordAt s.w (i - 1))) }

end Sys2Proof.Machine
end

