-- ==== Sys2Proof/Machine/Sequencer.lean ====
section
/-! DEFINITION. The core: what a launched command does. The atomic commit of the transaction level (43_sequencer.md
R182), and the micro-steps and latencies of the cycle level (R185 to R187). -/

namespace Sys2Proof.Machine

/-- SUB on the state matrix (42_block_transform.md R152). -/
def commitSub (s : State) : State := { s with st := subBytes s.st }

/-- ISUB on the state matrix (42_block_transform.md R154). -/
def commitIsub (s : State) : State := { s with st := invSubBytes s.st }

/-- SHR on the state matrix (42_block_transform.md R156). -/
def commitShr (s : State) : State := { s with st := shiftRows s.st }

/-- ISHR on the state matrix (42_block_transform.md R158). -/
def commitIshr (s : State) : State := { s with st := invShiftRows s.st }

/-- MIX on the state matrix (42_block_transform.md R160). -/
def commitMix (s : State) : State := { s with st := mixColumns s.st }

/-- IMIX on the state matrix (42_block_transform.md R162). -/
def commitImix (s : State) : State := { s with st := invMixColumns s.st }

/-- ARK on the state matrix, with the latched index (42_block_transform.md R164). -/
def commitArk (s : State) : State := { s with st := addRoundKey s.st (roundKey s.w s.curArg.toNat) }

/-- ENC on the state matrix (42_block_transform.md R166). -/
def commitEnc (s : State) : State := { s with st := cipher (roundKey s.w) s.nr.toNat s.st }

/-- DEC on the state matrix (42_block_transform.md R168). -/
def commitDec (s : State) : State := { s with st := invCipher (roundKey s.w) s.nr.toNat s.st }

/-- The results of a command's commit, by command (43_sequencer.md R182). -/
def commitEffect : Op → State → State
  | .keyexp => keyexpCommit
  | .enc => commitEnc
  | .dec => commitDec
  | .sub => commitSub
  | .isub => commitIsub
  | .shr => commitShr
  | .ishr => commitIshr
  | .mix => commitMix
  | .imix => commitImix
  | .ark => commitArk

/-- Commit (10_state.md R36, 43_sequencer.md R182): the whole operation of `cur_op`, then idle. With `cur_op` NONE, which
no run reaches while busy, only the end (log entry 8). -/
def commit (s : State) : State :=
  match s.curOp with
  | some o => finish (commitEffect o s)
  | none => finish s

/-- The latency `L` of a command in cycles (43_sequencer.md R186). -/
def latency (o : Op) (s : State) : Nat :=
  match o with
  | .keyexp => 1 + scheduleWords s.nr.toNat - nkOf s.strength
  | .enc | .dec => 4 * s.nr.toNat
  | .sub | .isub | .shr | .ishr | .mix | .imix | .ark => 1

/-- Micro-step `n` of ENC on the matrix (43_sequencer.md R187): step 0 adds round key 0; step 4 nr - 1 the last one;
between them round i is steps 4i-3 to 4i. -/
def encMicro (rk : Nat → Matrix4) (nr n : Nat) (m : Matrix4) : Matrix4 :=
  if n = 0 then addRoundKey m (rk 0)
  else if n = 4 * nr - 1 then addRoundKey m (rk nr)
  else if n % 4 = 1 then subBytes m
  else if n % 4 = 2 then shiftRows m
  else if n % 4 = 3 then mixColumns m
  else addRoundKey m (rk (n / 4))

/-- Micro-step `n` of DEC on the matrix (43_sequencer.md R187): steps 0 to 2 open with round key nr; then, for round i,
`b = 3 + 4(nr - 1 - i)`: AddRoundKey, InvMixColumns, InvShiftRows, InvSubBytes at b to b + 3; step 4 nr - 1 is the
AddRoundKey of i = 0. -/
def decMicro (rk : Nat → Matrix4) (nr n : Nat) (m : Matrix4) : Matrix4 :=
  if n = 0 then addRoundKey m (rk nr)
  else if n % 4 = 1 then invShiftRows m
  else if n % 4 = 2 then invSubBytes m
  else if n % 4 = 3 then addRoundKey m (rk (nr - 1 - (n - 3) / 4))
  else invMixColumns m

/-- Micro-step `n` of a command (43_sequencer.md R187). A stage command and ARK have the one step 0. -/
def microEffect (o : Op) (n : Nat) (s : State) : State :=
  match o with
  | .keyexp => keyexpMicro n s
  | .enc => { s with st := encMicro (roundKey s.w) s.nr.toNat n s.st }
  | .dec => { s with st := decMicro (roundKey s.w) s.nr.toNat n s.st }
  | .sub => commitSub s
  | .isub => commitIsub s
  | .shr => commitShr s
  | .ishr => commitIshr s
  | .mix => commitMix s
  | .imix => commitImix s
  | .ark => commitArk s

/-- What the last micro-step adds: KEYEXP sets `key_valid` (43_sequencer.md R187). -/
def lastEffect (o : Op) (s : State) : State :=
  match o with
  | .keyexp => { s with keyValid := true }
  | .enc | .dec | .sub | .isub | .shr | .ishr | .mix | .imix | .ark => s

/-- The core's part of one clock edge with `busy = 1` (43_sequencer.md R185 item 2): micro-step `seq` of `cur_op`, and
the end of the command if it is the last, `seq = L - 1`; else `seq + 1`. -/
def microStep (s : State) : State :=
  match s.curOp with
  | none => s
  | some o =>
    if s.seq.toNat + 1 = latency o s then finish (lastEffect o (microEffect o s.seq.toNat s))
    else { microEffect o s.seq.toNat s with seq := s.seq + 1 }

end Sys2Proof.Machine
end

