-- ==== Sys2Proof/Machine/Cycle.lean ====
section
/-! DEFINITION. The parts of one clock cycle (43_sequencer.md R184, R185; 70_reset_and_hazards.md R220): the pins, the
reset, and the core's turn. Sys2Proof/Machine/Step.lean puts them together. -/

namespace Sys2Proof.Machine

/-- The bus word on the pins: `W`, `A`, `D` (30_encoding.md R91, 43_sequencer.md R184). -/
def Pins.word (p : Pins) : BitVec 17 := BitVec.ofBool p.we ++ p.addr ++ p.wdata

/-- The pins in a cycle that carries the bus word `w`, without reset. -/
def Pins.ofWord (w : BitVec 17) : Pins := ⟨false, true, busW w, busA w, busD w⟩

/-- The pins of the coming cycle; none queued means an idle cycle (log entry 2). -/
def nextPins (s : State) : Pins := s.inputs.headD .idle

/-- The state as the access of the cycle sees it: the pins taken off the queue, and `bus_rdata` 0x00 unless a read
drives it (43_sequencer.md R184). -/
def beginCycle (s : State) : State := { s with inputs := s.inputs.tail, rdata := 0x00 }

/-- A cycle with `rst = 1` (70_reset_and_hazards.md R220): every element takes its reset value, whatever was in flight
or on the bus. A read in such a cycle returns an unspecified byte (R221). -/
def resetCycle (p : Pins) (s : State) : State :=
  if p.en && !p.we then { State.reset with inputs := s.inputs, rdata := Config.draw s.draws, draws := s.draws + 1 }
  else { State.reset with inputs := s.inputs, draws := s.draws }

/-- The core's turn at the edge, judged by `busy` at the start of the cycle (43_sequencer.md R185 item 2): a command
launched in this cycle takes its first micro-step at the next edge. -/
def coreTurn (busy : Bool) (s : State) : State := if busy then microStep s else s

end Sys2Proof.Machine
end

