-- ==== Sys2Proof/Machine/Block.lean ====
section
/-! DEFINITION. The whole-block commands ENC and DEC at the CMD write (42_block_transform.md R166, R168). What they do
to the state matrix is in Sys2Proof/Machine/Sequencer.lean. -/

namespace Sys2Proof.Machine

/-- ENC at a CMD write with `busy = 0`: NOKEY without a valid key, else the launch (42_block_transform.md R166). -/
def launchEnc (s : State) : State := if !s.keyValid then raise .nokey s else launch .enc s

/-- ENC: the write of 0x02 to CMD (42_block_transform.md R166). -/
def execEnc (s : State) : Host.Outcome State Fault Refusal := .next (hostWrite cmdAddr launchEnc s)

/-- DEC at a CMD write with `busy = 0`: NOKEY without a valid key, else the launch (42_block_transform.md R168). -/
def launchDec (s : State) : State := if !s.keyValid then raise .nokey s else launch .dec s

/-- DEC: the write of 0x03 to CMD (42_block_transform.md R168). -/
def execDec (s : State) : Host.Outcome State Fault Refusal := .next (hostWrite cmdAddr launchDec s)

end Sys2Proof.Machine
end

