-- ==== Sys2Proof/Machine/Stages.lean ====
section
/-! DEFINITION. The commands of one round primitive: SUB, ISUB, SHR, ISHR, MIX, IMIX and ARK, and NOP
(42_block_transform.md R150 to R164). What each does to the state matrix at its commit is in
Sys2Proof/Machine/Sequencer.lean. -/

namespace Sys2Proof.Machine

/-- NOP at a CMD write with `busy = 0`: nothing (42_block_transform.md R150). -/
def launchNop (s : State) : State := s

/-- NOP: the write of 0x00 to CMD (42_block_transform.md R150). -/
def execNop (s : State) : Host.Outcome State Fault Refusal := .next (hostWrite cmdAddr launchNop s)

/-- SUB: no key needed, always launches (42_block_transform.md R151, R152). -/
def launchSub (s : State) : State := launch .sub s

/-- SUB: the write of 0x10 to CMD. -/
def execSub (s : State) : Host.Outcome State Fault Refusal := .next (hostWrite cmdAddr launchSub s)

/-- ISUB: always launches (42_block_transform.md R151, R154). -/
def launchIsub (s : State) : State := launch .isub s

/-- ISUB: the write of 0x11 to CMD. -/
def execIsub (s : State) : Host.Outcome State Fault Refusal := .next (hostWrite cmdAddr launchIsub s)

/-- SHR: always launches (42_block_transform.md R151, R156). -/
def launchShr (s : State) : State := launch .shr s

/-- SHR: the write of 0x12 to CMD. -/
def execShr (s : State) : Host.Outcome State Fault Refusal := .next (hostWrite cmdAddr launchShr s)

/-- ISHR: always launches (42_block_transform.md R151, R158). -/
def launchIshr (s : State) : State := launch .ishr s

/-- ISHR: the write of 0x13 to CMD. -/
def execIshr (s : State) : Host.Outcome State Fault Refusal := .next (hostWrite cmdAddr launchIshr s)

/-- MIX: always launches (42_block_transform.md R151, R160). -/
def launchMix (s : State) : State := launch .mix s

/-- MIX: the write of 0x14 to CMD. -/
def execMix (s : State) : Host.Outcome State Fault Refusal := .next (hostWrite cmdAddr launchMix s)

/-- IMIX: always launches (42_block_transform.md R151, R162). -/
def launchImix (s : State) : State := launch .imix s

/-- IMIX: the write of 0x15 to CMD. -/
def execImix (s : State) : Host.Outcome State Fault Refusal := .next (hostWrite cmdAddr launchImix s)

/-- ARK at a CMD write with `busy = 0` (42_block_transform.md R163): NOKEY, then RKRANGE, then the launch. -/
def launchArk (s : State) : State :=
  if !s.keyValid then raise .nokey s
  else if s.nr.toNat < s.rksel.toNat then raise .rkrange s
  else launch .ark s

/-- ARK: the write of 0x16 to CMD (42_block_transform.md R164). -/
def execArk (s : State) : Host.Outcome State Fault Refusal := .next (hostWrite cmdAddr launchArk s)

end Sys2Proof.Machine
end

