-- ==== Sys2Proof/Machine/Bus.lean ====
section
/-! DEFINITION. The host's two transactions, RD and WR (20_memory.md R60 to R73). -/

namespace Sys2Proof.Machine

/-- What a command does at a CMD write with `busy = 0` (43_sequencer.md R181). -/
def launchCommand : Command → State → State
  | .nop => launchNop
  | .launch .keyexp => launchKeyexp
  | .launch .enc => launchEnc
  | .launch .dec => launchDec
  | .launch .sub => launchSub
  | .launch .isub => launchIsub
  | .launch .shr => launchShr
  | .launch .ishr => launchIshr
  | .launch .mix => launchMix
  | .launch .imix => launchImix
  | .launch .ark => launchArk

/-- `RegWrite(0x34, d)` with `busy = 0`: ILLCMD, or the command (43_sequencer.md R181; 60_exceptions.md R205). -/
def launchByte (d : Byte) (s : State) : State :=
  match decodeCmd d with
  | none => raise .illcmd s
  | some c => launchCommand c s

/-- The low byte of `strength` replaced: `{strength[15:8], d}` (20_memory.md R66). -/
def withLowByte (x : BitVec 16) (d : Byte) : BitVec 16 := x.extractLsb' 8 8 ++ d

/-- The high byte of `strength` replaced: `{d, strength[7:0]}` (20_memory.md R66). -/
def withHighByte (x : BitVec 16) (d : Byte) : BitVec 16 := d ++ x.extractLsb' 0 8

/-- What a write of `d` to a register does (20_memory.md R64 to R73). -/
def regStore (d : Byte) (s : State) : Reg → State
  | .key i => { s with key := s.key.set i d, keyValid := false }
  | .blk i => { s with st := s.st.set (rowOf i) (colOf i) d }
  | .strl => { s with strength := withLowByte s.strength d, keyValid := false }
  | .strh => { s with strength := withHighByte s.strength d, keyValid := false }
  | .keylen => { s with keylen := d, keyValid := false }
  | .rksel => { s with rksel := d }
  | .cmd => launchByte d s
  | .err => clearErr d s
  | .status | .nr | .rkdata _ | .reserved => s

/-- `RegWrite(a, d)` (20_memory.md R61). -/
def regWrite (a d : Byte) (s : State) : State := regStore d s (regAt a)

/-- RD (20_memory.md R60): the register's byte, or a draw where the read races the in-flight command (R62). -/
def execRd (a : Byte) (s : State) : Host.Outcome State Fault Refusal :=
  .next (if racingRead a s then readDraws s else readReturns (regRead a s) s)

/-- WR (20_memory.md R61). -/
def execWr (a d : Byte) (s : State) : Host.Outcome State Fault Refusal := .next (hostWrite a (regWrite a d) s)

end Sys2Proof.Machine
end

