-- ==== Sys2Proof/Machine/Dispatch.lean ====
section
/-! DEFINITION. What a host access does: one arm per instruction, one meaning per arm. -/

namespace Sys2Proof.Machine

def exec (i : Instr) (s : State) : Host.Outcome State Fault Refusal :=
  match i with
  | .rd a => Sys2Proof.Machine.execRd a s
  | .wr a d => Sys2Proof.Machine.execWr a d s
  | .nop => Sys2Proof.Machine.execNop s
  | .keyexp => Sys2Proof.Machine.execKeyexp s
  | .enc => Sys2Proof.Machine.execEnc s
  | .dec => Sys2Proof.Machine.execDec s
  | .sub => Sys2Proof.Machine.execSub s
  | .isub => Sys2Proof.Machine.execIsub s
  | .shr => Sys2Proof.Machine.execShr s
  | .ishr => Sys2Proof.Machine.execIshr s
  | .mix => Sys2Proof.Machine.execMix s
  | .imix => Sys2Proof.Machine.execImix s
  | .ark => Sys2Proof.Machine.execArk s

end Sys2Proof.Machine
end

