-- ==== Sys2Proof/Machine/Step.lean ====
section
/-! DEFINITION. One step of the machine is one clock cycle of 43_sequencer.md R185. -/

namespace Sys2Proof.Machine

/-- One rising edge of `clk` (43_sequencer.md R185): reset and nothing else; or the host's access, and the core's turn
if `busy` was 1 at the start of the cycle. Access and core both start from the state at the start of the cycle; they
never write the same element (R185; log entry 13). -/
def step (s : State) : Host.Outcome State Fault Refusal :=
  if (nextPins s).rst then .next (resetCycle (nextPins s) (beginCycle s))
  else if (nextPins s).en then
    match exec (decodeWord (nextPins s).word) (beginCycle s) with
    | .next t => .next (coreTurn s.busy t)
    | .fault r => .fault r
    | .refused r => .refused r
  else .next (coreTurn s.busy (beginCycle s))

/-- `s` with the bus word `w` on the pins of its next cycle, ahead of what is queued: the block fetches no instruction
of its own, the host's access is the instruction (20_memory.md R81, 30_encoding.md R90; log entry 2). -/
def State.withFetchWord (s : State) (nbits w : Nat) : State :=
  { s with inputs := Pins.ofWord (BitVec.ofNat 17 (w % 2 ^ nbits)) :: s.inputs }

end Sys2Proof.Machine
end

