-- ==== Sys2Proof/Machine/Instances.lean ====
section
/-! DEFINITION. Several instances side by side (60_exceptions.md R213): each is one State with its own bus port, and
they share no writable state. -/

namespace Sys2Proof.Machine

/-- Instance `k` of a system takes one step (60_exceptions.md R213); none if there is no such instance. DESIGN CHOICE: all
instances take their unspecified bytes from the one `Config.draw`, each at its own count `draws`; the spec relates the
bytes of different instances by no law (20_memory.md R62), and no statement compares them (log entries 4 and 15). -/
def stepOne (k : Nat) (sys : List State) : Option (List State) :=
  match sys[k]? with
  | none => none
  | some s =>
    match step s with
    | .next t => some (sys.set k t)
    | .fault _ => none
    | .refused _ => none

end Sys2Proof.Machine
end

