-- ==== Sys2Proof/Machine/HostProgram.lean ====
section
/-! DEFINITION. The assembler's register names and pseudo-instructions (30_encoding.md R98, R99) as lists of
transactions, and a listing put on the pins. -/

namespace Sys2Proof.Machine

/-- The address of a named register (20_memory.md R63); `reserved` stands for its first address. -/
def addrOf : Reg → Byte
  | .key i => BitVec.ofNat 8 i.val
  | .blk i => BitVec.ofNat 8 (0x20 + i.val)
  | .strl => 0x30
  | .strh => 0x31
  | .keylen => 0x32
  | .rksel => 0x33
  | .cmd => 0x34
  | .status => 0x35
  | .err => 0x36
  | .nr => 0x37
  | .reserved => 0x38
  | .rkdata i => BitVec.ofNat 8 (0x40 + i.val)

/-- `CMD op`: `WR 0x34, code(op)`, which is the command's row (30_encoding.md R99). -/
def asmCmd (c : Command) : List Instr := [c.instr]

/-- `POLL`: `n` reads of STATUS. How many is the host's control flow (30_encoding.md R99; log entry 16). -/
def asmPoll (n : Nat) : List Instr := List.replicate n (.rd (addrOf .status))

/-- `SETSTR n`: the two bytes of the strength, low byte first (30_encoding.md R99). -/
def asmSetStr (n : BitVec 16) : List Instr :=
  [.wr (addrOf .strl) (n.extractLsb' 0 8), .wr (addrOf .strh) (n.extractLsb' 8 8)]

/-- `SETKEY b0 .. b(L-1)`: the key bytes, then their number in KEYLEN (30_encoding.md R99). -/
def asmSetKey (bytes : List Byte) : List Instr :=
  (bytes.mapIdx fun i b => .wr (BitVec.ofNat 8 i) b) ++ [.wr (addrOf .keylen) (BitVec.ofNat 8 bytes.length)]

/-- `LOADBLK b0 .. b15` (30_encoding.md R99). -/
def asmLoadBlk (b : Vector Byte 16) : List Instr := (List.finRange 16).map fun i => .wr (addrOf (.blk i)) b[i]

/-- `READBLK` (30_encoding.md R99). -/
def asmReadBlk : List Instr := (List.finRange 16).map fun i => .rd (addrOf (.blk i))

/-- `READRK k` (30_encoding.md R99). -/
def asmReadRk (k : Byte) : List Instr :=
  .wr (addrOf .rksel) k :: (List.finRange 16).map fun i => .rd (addrOf (.rkdata i))

/-- `CLRERR` (30_encoding.md R99). -/
def asmClrErr : List Instr := [.wr (addrOf .err) 0x1F]

/-- A listing issued one transaction a cycle (43_sequencer.md R185). -/
def pinsOf (prog : List Instr) : List Pins := prog.map fun i => Pins.ofWord (encode i)

end Sys2Proof.Machine
end

