-- ==== Sys2Proof/Machine/Transaction.lean ====
section
/-! DEFINITION. The transaction level (00_scope.md R13; 10_state.md R36, R40; 43_sequencer.md R180 to R182, R189): host
accesses and commits as atomic steps, in any order a schedule names, and the fairness of the core's step. -/

namespace Sys2Proof.Machine

/-- Whose step is next at the transaction level (00_scope.md R14; 70_reset_and_hazards.md R220 for reset). -/
inductive TxEvent where
  /-- The host's access. -/
  | access (i : Instr)
  /-- The core's Commit. -/
  | commit
  /-- The environment's reset. -/
  | reset
  deriving DecidableEq, Repr

/-- One transaction-level step, or none where the event is not enabled: a commit is enabled exactly when `busy = 1`
(10_state.md R36). -/
def txStep (e : TxEvent) (s : State) : Option State :=
  match e with
  | .access i =>
    match exec i { s with rdata := 0x00 } with
    | .next t => some t
    | .fault _ => none
    | .refused _ => none
  | .commit => if s.busy then some (commit s) else none
  | .reset => some { State.reset with inputs := s.inputs, draws := s.draws }

/-- A finite schedule of transaction-level steps: the beginning of an execution. -/
def txRun : List TxEvent → State → Option State
  | [], s => some s
  | e :: es, s =>
    match txStep e s with
    | some t => txRun es t
    | none => none

/-- An execution without end: at position `n` the state is `run n`, and `sched n` is the step taken there, or none where
nobody acts (the host is free to pause). A finite run goes on with none for ever. -/
def Executes (sched : Nat → Option TxEvent) (run : Nat → State) : Prop :=
  ∀ n, match sched n with
    | some e => txStep e (run n) = some (run (n + 1))
    | none => run (n + 1) = run n

/-- Weak fairness of the core's step (43_sequencer.md R189; 93_implementation_defined.md U13): a commit that stays enabled
from some position on, which is `busy = 1` from there on (10_state.md R36), is taken at that position or later. No bound
is set. -/
def WeaklyFair (sched : Nat → Option TxEvent) (run : Nat → State) : Prop :=
  ∀ n, (∀ m, n ≤ m → (run m).busy = true) → ∃ m, n ≤ m ∧ sched m = some .commit

/-- The executions of the transaction level (43_sequencer.md R189): the commit may fall after any number of host accesses,
and is eventually taken. -/
def FairExecution (sched : Nat → Option TxEvent) (run : Nat → State) : Prop :=
  Executes sched run ∧ WeaklyFair sched run

/-- A command issued and run to its end: the host's access, then the commit (43_sequencer.md R180). -/
def txCommand (i : Instr) : List TxEvent := [.access i, .commit]

/-- ARK with index `k`: RKSEL set, then the command (42_block_transform.md R170). -/
def txArk (k : Nat) : List TxEvent := .access (.wr 0x33 (BitVec.ofNat 8 k)) :: txCommand .ark

/-- ENC as stage commands (42_block_transform.md R170). -/
def encStages (nr : Nat) : List TxEvent :=
  txArk 0 ++
    (List.range' 1 (nr - 1)).flatMap (fun i => txCommand .sub ++ txCommand .shr ++ txCommand .mix ++ txArk i) ++
    txCommand .sub ++ txCommand .shr ++ txArk nr

/-- DEC as stage commands, the sequence of 42_block_transform.md R167 (R170). -/
def decStages (nr : Nat) : List TxEvent :=
  txArk nr ++ txCommand .ishr ++ txCommand .isub ++
    (List.range' 1 (nr - 1)).reverse.flatMap
      (fun i => txArk i ++ txCommand .imix ++ txCommand .ishr ++ txCommand .isub) ++
    txArk 0

/-- `n` micro-steps of the core with no host access between. -/
def microRun : Nat → State → State
  | 0, s => s
  | n + 1, s => microRun n (microStep s)

end Sys2Proof.Machine
end

