-- ==== Sys2Proof/Safety.lean ====
section
/-! DEFINITION. What holds of a state the block can be in, in the terms claims use: the key invariant of 10_state.md
R37, the idle rule of R31, and the facts about a command in flight that follow from the launch checks. -/

namespace Sys2Proof.Machine

/-- Every element of the spec's state has its reset value (10_state.md R38, 70_reset_and_hazards.md R220). -/
def ResetValues (s : State) : Prop :=
  (∀ i : Fin 32, s.key[i] = 0x00) ∧ (∀ r c, s.st.get r c = 0x00) ∧ s.strength = 0 ∧ s.keylen = 0 ∧ s.rksel = 0 ∧
  (∀ i : Fin 60, s.w[i] = ⟨0x00, 0x00, 0x00, 0x00⟩) ∧ s.nr = 0 ∧ s.keyValid = false ∧ s.err = 0 ∧ s.busy = false ∧
  s.fsm = .idle ∧ s.seq = 0 ∧ s.curOp = none ∧ s.curArg = 0

/-- `s` after a command ran from launch to commit at the transaction level (43_sequencer.md R181, R182), leaving the
matrix `m` in `st`: idle again, with the latch as the launch set it and no read on the output. -/
def ranTo (o : Op) (m : Matrix4) (s : State) : State where
  key := s.key
  st := m
  strength := s.strength
  keylen := s.keylen
  rksel := s.rksel
  w := s.w
  nr := s.nr
  keyValid := s.keyValid
  err := s.err
  busy := false
  fsm := .idle
  seq := 0
  curOp := some o
  curArg := s.rksel
  inputs := s.inputs
  rdata := 0x00
  draws := s.draws

/-- `fsm = IDLE` exactly when `busy = 0` (10_state.md R31); while busy, `fsm` is the state of `cur_op` (43_sequencer.md
R181), and `seq` is 0 when idle (R182). -/
def SeqInv (s : State) : Prop :=
  (s.busy = false → s.fsm = .idle ∧ s.seq = 0) ∧
  (s.busy = true → ∃ o, s.curOp = some o ∧ s.fsm = fsmOf o)

/-- (a) and (b) of the key invariant (10_state.md R37): a legal configuration, with its round count. -/
def ConfigInv (s : State) : Prop :=
  legalStrength s.strength = true ∧ s.keylen.toNat * 8 = s.strength.toNat ∧ s.nr.toNat = nkOf s.strength + 6

/-- (c) of the key invariant (10_state.md R37): the round-key memory holds the expansion of the key register. -/
def ScheduleInv (s : State) : Prop :=
  ∀ i, i < scheduleWords s.nr.toNat → wordAt s.w i = (keyExpansion (nkOf s.strength) s.key).getD i .zero

/-- The key invariant (10_state.md R37), its four parts. -/
def KeyInv (s : State) : Prop :=
  s.keyValid = true → ConfigInv s ∧ ScheduleInv s ∧ (s.busy = false ∨ s.curOp ≠ some .keyexp)

/-- What the launch checks leave of a command in flight: KEYEXP has a legal configuration and no valid key
(41_key_schedule.md R141, R142); ENC, DEC and ARK have a valid key, and ARK an index up to `nr` (42_block_transform.md
R163, R166, R168). -/
def FlightInv (s : State) : Prop :=
  s.busy = true →
    (s.curOp = some .keyexp → ConfigInv s ∧ s.keyValid = false) ∧
    (s.curOp = some .enc ∨ s.curOp = some .dec ∨ s.curOp = some .ark → s.keyValid = true) ∧
    (s.curOp = some .ark → s.curArg.toNat ≤ s.nr.toNat)

/-- How far a cycle-level command in flight has come (43_sequencer.md R186, R187): `seq` is below the latency, and a
KEYEXP that has taken `seq > 0` micro-steps has written the words of rule 41_key_schedule.md R131 up to there. -/
def ProgressInv (s : State) : Prop :=
  s.busy = true → ∀ o, s.curOp = some o →
    s.seq.toNat < latency o s ∧
    (o = .keyexp → ∀ i, 0 < s.seq.toNat → i < nkOf s.strength + s.seq.toNat - 1 →
      wordAt s.w i = (keyExpansion (nkOf s.strength) s.key).getD i .zero)

/-- What holds of every state of a cycle-level run. -/
def CycleInv (s : State) : Prop := SeqInv s ∧ KeyInv s ∧ FlightInv s ∧ ProgressInv s

/-- What holds of every state of a transaction-level run: a command in flight has written nothing yet, so `seq` is 0. -/
def TxInv (s : State) : Prop := SeqInv s ∧ KeyInv s ∧ FlightInv s ∧ s.seq = 0

/-- The values `nr` takes (10_state.md R20, R27). -/
def NrInv (s : State) : Prop := s.nr = 0 ∨ s.nr = 10 ∨ s.nr = 12 ∨ s.nr = 14

/-- The two levels agree (43_sequencer.md R187, R189): the cycle-level state `c` is the transaction-level state `t`
after the micro-steps its `seq` counts. -/
def Matches (t c : State) : Prop := t.seq = 0 ∧ c.busy = t.busy ∧ c = microRun c.seq.toNat t

end Sys2Proof.Machine
end

