-- ==== Sys2Proof/Certificates/Slice0/Obligations.lean ====
section
/-! DEFINITION. The statements about AES-CORE that the provers settle. Each docstring says which rule of spec/ it
formalises. Error bits are written as numbers: CFG 1, NOKEY 2, ILLCMD 4, BUSYACC 8, RKRANGE 16 (60_exceptions.md
R202). -/

open Sys2Proof Sys2Proof.Machine

/-! ## Encoding (30_encoding.md) -/

/-- Words written out from 30_encoding.md R91 and the code table R94 decode to what they stand for: every command row, an
ordinary write, an illegal command byte (a plain WR), a read, and a read whose ignored `D` is not 0x00. The three-byte
layout behind decodeTableWord is the model's choice (log entry 5). -/
def Obligations.SpecWordsDecode : Prop :=
  decodeWord 0x13400 = .nop ∧ decodeWord 0x13401 = .keyexp ∧ decodeWord 0x13402 = .enc ∧ decodeWord 0x13403 = .dec ∧
  decodeWord 0x13410 = .sub ∧ decodeWord 0x13411 = .isub ∧ decodeWord 0x13412 = .shr ∧ decodeWord 0x13413 = .ishr ∧
  decodeWord 0x13414 = .mix ∧ decodeWord 0x13415 = .imix ∧ decodeWord 0x13416 = .ark ∧
  decodeWord 0x13080 = .wr 0x30 0x80 ∧ decodeWord 0x13405 = .wr 0x34 0x05 ∧ decodeWord 0x03500 = .rd 0x35 ∧
  decodeWord 0x035FF = .rd 0x35 ∧ decodeTableWord 24 0x13416 = some .ark ∧ decodeTableWord 24 0x20000 = none

/-- Decode and encode agree on every well-formed instruction, as a bus word and as bytes of a listing (the bytes are the
model's choice, log entry 5). 30_encoding.md R91, R94, R95. -/
def Obligations.DecodeOfEncode : Prop :=
  ∀ (i : Instr) (rest : List Byte), i.wellFormed = true →
    decodeWord (encode i) = i ∧ decodeBytes (encodeBytes i ++ rest) = .ok (i, rest)

/-- Every 17-bit word is a well-formed transaction and encodes back to itself, but for the `D` of a read, which is
written as 0x00 (30_encoding.md R91, R96). -/
def Obligations.EveryBusWordIsATransaction : Prop :=
  ∀ w : BitVec 17, (decodeWord w).wellFormed = true ∧
    encode (decodeWord w) = if w.getLsbD 16 then w else w &&& 0x1FF00

/-- ILLCMD (60_exceptions.md R205; the illegal bytes are those of 30_encoding.md R96): a CMD write with `busy = 0` of
0x04..0x0F or 0x17..0xFF decodes as a plain write, sets error bit 2 and does nothing else. -/
def Obligations.IllegalCommandByteSetsIllcmd : Prop :=
  ∀ (s : State) (d : Byte), s.busy = false → (0x04 ≤ d.toNat ∧ d.toNat ≤ 0x0F) ∨ 0x17 ≤ d.toNat →
    decodeWord (BitVec.ofBool true ++ (0x34 : Byte) ++ d) = .wr 0x34 d ∧
    exec (.wr 0x34 d) s = .next { s with err := s.err ||| 4 }

/-! ## One clock cycle (43_sequencer.md R184, R185) and reset (70_reset_and_hazards.md R220) -/

/-- A step runs the decoded instruction: when the pins of the coming cycle carry an access, step is exec of the decoded
instruction at the state with the pins taken off and `bus_rdata` 0x00, and then, if `busy` was 1 at the start of the
cycle, the core's micro-step (43_sequencer.md R185). The same for a word placed with withFetchWord. -/
def Obligations.StepRunsTheDecodedAccess : Prop :=
  (∀ (s t : State) (p : Pins) (rest : List Pins) (i : Instr),
    s.inputs = p :: rest → p.rst = false → p.en = true → decodeWord (BitVec.ofBool p.we ++ p.addr ++ p.wdata) = i →
    exec i { s with inputs := rest, rdata := 0x00 } = .next t →
    step s = .next (if s.busy then microStep t else t)) ∧
  (∀ (s t : State) (w : Nat) (i : Instr),
    decodeTableWord 24 w = some i → exec i { s with rdata := 0x00 } = .next t →
    step (s.withFetchWord 24 w) = .next (if s.busy then microStep t else t))

/-- A cycle without access and without reset: only the core acts, and only while busy; an empty queue of pins is such a
cycle (log entry 2). 43_sequencer.md R184, R185; 10_state.md R36. -/
def Obligations.CycleWithoutAccess : Prop :=
  ∀ s : State, (s.inputs = [] ∨ ∃ p rest, s.inputs = p :: rest ∧ p.rst = false ∧ p.en = false) →
    step s = .next
      (if s.busy then microStep { s with inputs := s.inputs.tail, rdata := 0x00 }
        else { s with inputs := s.inputs.tail, rdata := 0x00 })

/-- 70_reset_and_hazards.md R220: from any state, the unspecified one before the first reset included, a cycle with
`rst = 1` sets every element to its reset value, whatever command is in flight and whatever access is on the bus; at the
transaction level reset is a step of the environment to the same values. -/
def Obligations.ResetSetsEveryElement : Prop :=
  (∀ (s : State) (p : Pins) (rest : List Pins), s.inputs = p :: rest → p.rst = true →
    ∃ t, step s = .next t ∧ ResetValues t ∧ t.inputs = rest) ∧
  (∀ s : State, ∃ t, txStep .reset s = some t ∧ ResetValues t)

/-- The state after reset has the values of 10_state.md R38 and every invariant of the model. -/
def Obligations.ResetStateIsGood : Prop :=
  ResetValues State.reset ∧ CycleInv State.reset ∧ TxInv State.reset ∧ NrInv State.reset

/-- Nothing is stuck: every cycle and every access has a next state (43_sequencer.md R184: "every access completes in
its cycle"; 60_exceptions.md R200). And on every execution of the transaction level whose core is weakly fair (R189), a
command in flight stays so until a commit or a reset ends it, and one of them comes; the commit gives the command's
results as from the state in which it was seen in flight, whatever accesses came between. -/
def Obligations.EveryCycleCompletes : Prop :=
  (∀ s : State, ∃ t, step s = .next t) ∧ (∀ (i : Instr) (s : State), ∃ t, exec i s = .next t) ∧
  (∀ (sched : Nat → Option TxEvent) (run : Nat → State) (n : Nat), FairExecution sched run → (run n).busy = true →
    ∃ m, n ≤ m ∧ (sched m = some .commit ∨ sched m = some .reset) ∧ (run (m + 1)).busy = false ∧
      (∀ k, n ≤ k → k ≤ m → (run k).busy = true ∧ (run k).curOp = (run n).curOp) ∧
      (sched m = some .commit → ∃ t, txStep .commit (run n) = some t ∧
        run (m + 1) = { t with err := (run (m + 1)).err, rdata := (run (m + 1)).rdata, draws := (run (m + 1)).draws }))

/-! ## The register map (20_memory.md) -/

/-- 20_memory.md R60: a read of any address changes no element of the spec's state; with `busy = 0` it returns
`RegRead(a)`. (`rdata` is the output, log entry 3; `draws` counts unspecified bytes, log entry 4.) -/
def Obligations.ReadChangesNoState : Prop :=
  ∀ (s : State) (a : Byte), ∃ v n, exec (.rd a) s = .next { s with rdata := v, draws := n } ∧
    (s.busy = false → v = regRead a s ∧ n = s.draws)

/-- 20_memory.md R64, the KEY window: reads give `key[a]`; an accepted write stores the byte and clears `key_valid` even
if the byte is the old one; byte `i` of the Secret Key lands in row `i mod 4`, column `i / 4` when KEYEXP commits. -/
def Obligations.KeyWindow : Prop :=
  ∀ (s : State) (i : Fin 32) (d : Byte),
    (s.busy = false → exec (.wr (BitVec.ofNat 8 i.val) d) s = .next { s with key := s.key.set i d, keyValid := false }) ∧
    exec (.rd (BitVec.ofNat 8 i.val)) s = .next { s with rdata := s.key[i] } ∧
    (s.busy = true → s.curOp = some .keyexp → ConfigInv s → i.val < s.strength.toNat / 8 →
      ∃ t, txStep .commit s = some t ∧
        (wordAt t.w (i.val / 4)).byte ⟨i.val % 4, Nat.mod_lt _ (by decide)⟩ = s.key[i])

/-- 20_memory.md R65, the BLK window: a write changes exactly `st[i mod 4][i / 4]`; a read that does not race a command
(R62 (d)) gives it; the 16 bytes of a block written in any order leave `st = Mat(b)`, and `key_valid` is not touched;
reading them gives `Flat(st)`. -/
def Obligations.BlkWindow : Prop :=
  (∀ (s : State) (i : Fin 16) (d : Byte), s.busy = false →
    ∃ m : Matrix4, exec (.wr (BitVec.ofNat 8 (0x20 + i.val)) d) s = .next { s with st := m } ∧
      ∀ r c : Fin 4, m.get r c = if r.val = i.val % 4 ∧ c.val = i.val / 4 then d else s.st.get r c) ∧
  (∀ (s : State) (r c : Fin 4), s.busy = false ∨ s.curOp = some .keyexp →
    exec (.rd (BitVec.ofNat 8 (0x20 + (4 * c.val + r.val)))) s = .next { s with rdata := s.st.get r c }) ∧
  (∀ (s : State) (b : Vector Byte 16) (order : List (Fin 16)), s.busy = false → (∀ i, i ∈ order) →
    ∃ t, txRun (order.map fun i => .access (.wr (BitVec.ofNat 8 (0x20 + i.val)) b[i])) s = some t ∧
      t = { s with st := t.st, rdata := 0x00 } ∧ (∀ r c : Fin 4, t.st.get r c = b[4 * c.val + r.val]) ∧
      ∀ i : Fin 16, t.st.flatAt i = b[i])

/-- 20_memory.md R66, STRL and STRH: each reads and writes its byte of `strength`, keeps the other, and clears
`key_valid` when written; the two writes in either order give any 16-bit strength. -/
def Obligations.StrengthRegisters : Prop :=
  (∀ (s : State) (d : Byte), s.busy = false →
    exec (.wr 0x30 d) s = .next { s with strength := s.strength.extractLsb' 8 8 ++ d, keyValid := false } ∧
    exec (.wr 0x31 d) s = .next { s with strength := d ++ s.strength.extractLsb' 0 8, keyValid := false }) ∧
  (∀ s : State,
    exec (.rd 0x30) s = .next { s with rdata := s.strength.extractLsb' 0 8 } ∧
    exec (.rd 0x31) s = .next { s with rdata := s.strength.extractLsb' 8 8 }) ∧
  (∀ (s : State) (n : BitVec 16), s.busy = false →
    txRun [.access (.wr 0x30 (n.extractLsb' 0 8)), .access (.wr 0x31 (n.extractLsb' 8 8))] s =
      some { s with strength := n, keyValid := false, rdata := 0x00 } ∧
    txRun [.access (.wr 0x31 (n.extractLsb' 8 8)), .access (.wr 0x30 (n.extractLsb' 0 8))] s =
      some { s with strength := n, keyValid := false, rdata := 0x00 })

/-- 20_memory.md R67 and R71: KEYLEN and RKSEL read and write their register; only KEYLEN clears `key_valid`. -/
def Obligations.KeylenAndRksel : Prop :=
  ∀ (s : State) (d : Byte),
    (s.busy = false → exec (.wr 0x32 d) s = .next { s with keylen := d, keyValid := false } ∧
      exec (.wr 0x33 d) s = .next { s with rksel := d }) ∧
    exec (.rd 0x32) s = .next { s with rdata := s.keylen } ∧
    exec (.rd 0x33) s = .next { s with rdata := s.rksel }

/-- 20_memory.md R68, ERR: reads `err` with bits 7..5 zero; a write clears exactly the bits that are 1 in `d[4:0]`,
whether or not busy; bits 7..5 of `d` are ignored and 0x00 changes nothing. -/
def Obligations.ErrRegister : Prop :=
  ∀ (s : State) (d : Byte),
    (∃ v, exec (.rd 0x36) s = .next { s with rdata := v } ∧
      ∀ k < 8, v.getLsbD k = (decide (k < 5) && s.err.getLsbD k)) ∧
    (∃ e, exec (.wr 0x36 d) s = .next { s with err := e } ∧
      ∀ k < 5, e.getLsbD k = (s.err.getLsbD k && !d.getLsbD k)) ∧
    exec (.wr 0x36 (d &&& 0x1F)) s = exec (.wr 0x36 d) s ∧ exec (.wr 0x36 0x00) s = .next s

/-- 20_memory.md R69: STATUS reads BUSY, KEY_VALID and ERR in bits 0 to 2 and zero above; NR reads `nr`; CMD reads 0x00;
writes to STATUS and NR change nothing and set no error. -/
def Obligations.StatusNrAndCmdReads : Prop :=
  ∀ s : State,
    (∃ v, exec (.rd 0x35) s = .next { s with rdata := v } ∧ v.getLsbD 0 = s.busy ∧ v.getLsbD 1 = s.keyValid ∧
      v.getLsbD 2 = (s.err != 0) ∧ ∀ k, 3 ≤ k → v.getLsbD k = false) ∧
    exec (.rd 0x37) s = .next { s with rdata := s.nr } ∧ exec (.rd 0x34) s = .next { s with rdata := 0x00 } ∧
    ∀ d : Byte, exec (.wr 0x35 d) s = .next s ∧ exec (.wr 0x37 d) s = .next s

/-- 20_memory.md R70, the RKDATA window: byte `i` of round key `rksel`, 0x00 above slot 14, whatever `key_valid` is (when
the read does not race a KEYEXP, R62 (e)); writes change nothing and set no error. -/
def Obligations.RkdataWindow : Prop :=
  ∀ (s : State) (i : Fin 16),
    (s.busy = false ∨ s.curOp ≠ some .keyexp →
      ∃ v, exec (.rd (BitVec.ofNat 8 (0x40 + i.val))) s = .next { s with rdata := v } ∧
        (s.rksel.toNat ≤ 14 → ∃ x, s.w[4 * s.rksel.toNat + i.val / 4]? = some x ∧
          v = x.byte ⟨i.val % 4, Nat.mod_lt _ (by decide)⟩) ∧
        (14 < s.rksel.toNat → v = 0x00)) ∧
    ∀ d : Byte, exec (.wr (BitVec.ofNat 8 (0x40 + i.val)) d) s = .next s

/-- 20_memory.md R73: reserved addresses 0x38..0x3F and 0x50..0xFF read 0x00 and ignore writes, and so do the read-only
registers STATUS, NR and RKDATA ignore writes, in every state. -/
def Obligations.ReservedAndReadOnlyAddresses : Prop :=
  ∀ (s : State) (a d : Byte),
    ((0x38 ≤ a.toNat ∧ a.toNat ≤ 0x3F) ∨ 0x50 ≤ a.toNat →
      exec (.rd a) s = .next { s with rdata := 0x00 } ∧ exec (.wr a d) s = .next s) ∧
    (a.toNat = 0x35 ∨ a.toNat = 0x37 ∨ (0x40 ≤ a.toNat ∧ a.toNat ≤ 0x4F) → exec (.wr a d) s = .next s)

/-- 20_memory.md R62, every clause: what a host access does while a command is in flight, STATUS showing BUSY = 1. The
unspecified byte of (d) and (e) is the next free value; every other register keeps its value until the commit, over
every micro-step that is not the last. -/
def Obligations.AccessesWhileBusy : Prop :=
  ∀ (s : State) (o : Op), s.busy = true → s.curOp = some o →
    (∀ a d : Byte, a.toNat ≤ 0x34 → exec (.wr a d) s = .next { s with err := s.err ||| 8 }) ∧
    (∀ c : Command, exec c.instr s = .next { s with err := s.err ||| 8 }) ∧
    (∀ d : Byte, exec (.wr 0x36 d) s = .next { s with err := s.err &&& ~~~(d.extractLsb' 0 5) }) ∧
    (∀ a d : Byte, 0x34 < a.toNat → a.toNat ≠ 0x36 → exec (.wr a d) s = .next s) ∧
    (∀ a : Byte, o ≠ .keyexp → 0x20 ≤ a.toNat → a.toNat ≤ 0x2F →
      exec (.rd a) s = .next { s with rdata := Config.draw s.draws, draws := s.draws + 1 }) ∧
    (∀ a : Byte, o = .keyexp → 0x40 ≤ a.toNat → a.toNat ≤ 0x4F →
      exec (.rd a) s = .next { s with rdata := Config.draw s.draws, draws := s.draws + 1 }) ∧
    (∀ a : Byte, ¬(o ≠ .keyexp ∧ 0x20 ≤ a.toNat ∧ a.toNat ≤ 0x2F) → ¬(o = .keyexp ∧ 0x40 ≤ a.toNat ∧ a.toNat ≤ 0x4F) →
      exec (.rd a) s = .next { s with rdata := regRead a s } ∧
      ((microStep s).busy = true → regRead a (microStep s) = regRead a s)) ∧
    (regRead 0x35 s).getLsbD 0 = true

/-- Frame over the register space: reads leave every byte of it; a command leaves every byte but STATUS, ERR and NR; a
write to another address than CMD leaves every byte but its own, STATUS, the RKDATA window if RKSEL is written, and ERR
if busy; and with `busy = 0` the written byte reads back (20_memory.md R60 to R73; 70_reset_and_hazards.md R236). -/
def Obligations.RegisterSpaceFrame : Prop :=
  (∀ (s t : State) (a b : Byte), exec (.rd a) s = .next t → regRead b t = regRead b s) ∧
  (∀ (s t : State) (c : Command) (d b : Byte), exec c.instr s = .next t ∨ exec (.wr 0x34 d) s = .next t →
    b.toNat ≠ 0x35 → b.toNat ≠ 0x36 → b.toNat ≠ 0x37 → regRead b t = regRead b s) ∧
  (∀ (s t : State) (a d b : Byte), exec (.wr a d) s = .next t → a.toNat ≠ 0x34 → b ≠ a → b.toNat ≠ 0x35 →
    ¬(a.toNat = 0x33 ∧ 0x40 ≤ b.toNat ∧ b.toNat ≤ 0x4F) → ¬(s.busy = true ∧ b.toNat = 0x36) →
    regRead b t = regRead b s) ∧
  (∀ (s t : State) (a d : Byte), exec (.wr a d) s = .next t → s.busy = false → a.toNat < 0x34 → regRead a t = d)

/-! ## The commands (41_key_schedule.md, 42_block_transform.md) -/

/-- A CMD write of a command's code is the command (20_memory.md R72; 30_encoding.md R92, R99). -/
def Obligations.CommandWriteIsItsRow : Prop :=
  ∀ (c : Command) (s : State), exec (.wr 0x34 c.code) s = exec c.instr s

/-- 42_block_transform.md R150, NOP: nothing with `busy = 0`; BUSYACC when busy. -/
def Obligations.NopDoesNothing : Prop :=
  encode .nop = 0x13400 ∧
  ∀ s : State, (s.busy = false → exec .nop s = .next s) ∧
    (s.busy = true → exec .nop s = .next { s with err := s.err ||| 8 })

/-- 42_block_transform.md R151: the six stage commands always launch with `busy = 0`; in flight a BLK read is a draw; the
commit applies the command's function to `st` and ends the command. -/
def Obligations.StageCommandsLaunchAndCommit : Prop :=
  ∀ (i : Instr) (o : Op) (f : Matrix4 → Matrix4) (s : State),
    (i, o, f) ∈ [(Instr.sub, Op.sub, subBytes), (.isub, .isub, invSubBytes), (.shr, .shr, shiftRows),
      (.ishr, .ishr, invShiftRows), (.mix, .mix, mixColumns), (.imix, .imix, invMixColumns)] →
    s.busy = false →
    ∃ t, t = { s with busy := true, fsm := .stg, seq := 0, curOp := some o, curArg := s.rksel } ∧ exec i s = .next t ∧
      (∀ a : Byte, 0x20 ≤ a.toNat → a.toNat ≤ 0x2F →
        exec (.rd a) t = .next { t with rdata := Config.draw t.draws, draws := t.draws + 1 }) ∧
      txStep .commit t = some { t with st := f t.st, busy := false, fsm := .idle, seq := 0 }

/-- 42_block_transform.md R152 and R154, SUB and ISUB: every byte through the S-box or its inverse, at once; BUSYACC when
busy; no key needed; each undoes the other; all 0x00 becomes all 0x63, or 0x52; no byte is mapped to itself; the rules'
example. -/
def Obligations.SubAndIsub : Prop :=
  encode .sub = 0x13410 ∧ encode .isub = 0x13411 ∧ (∀ x : Byte, sbox x ≠ x) ∧
  (∀ s : State, s.busy = true → exec .sub s = .next { s with err := s.err ||| 8 } ∧
    exec .isub s = .next { s with err := s.err ||| 8 }) ∧
  (∀ s : State, s.busy = false → ∃ m n : Matrix4,
    txRun (txCommand .sub) s = some (ranTo .sub m s) ∧
    txRun (txCommand .isub) s = some (ranTo .isub n s) ∧
    (∀ r c : Fin 4, m.get r c = sbox (s.st.get r c)) ∧ (∀ r c : Fin 4, n.get r c = invSbox (s.st.get r c)) ∧
    ((∀ r c : Fin 4, s.st.get r c = 0x00) → ∀ r c : Fin 4, m.get r c = 0x63 ∧ n.get r c = 0x52) ∧
    (s.st = .mat #v[0x19, 0x3d, 0xe3, 0xbe, 0xa0, 0xf4, 0xe2, 0x2b, 0x9a, 0xc6, 0x8d, 0x2a, 0xe9, 0xf8, 0x48, 0x08] →
      m = .mat #v[0xd4, 0x27, 0x11, 0xae, 0xe0, 0xbf, 0x98, 0xf1, 0xb8, 0xb4, 0x5d, 0xe5, 0x1e, 0x41, 0x52, 0x30]) ∧
    (s.st = .mat #v[0xd4, 0x27, 0x11, 0xae, 0xe0, 0xbf, 0x98, 0xf1, 0xb8, 0xb4, 0x5d, 0xe5, 0x1e, 0x41, 0x52, 0x30] →
      n = .mat #v[0x19, 0x3d, 0xe3, 0xbe, 0xa0, 0xf4, 0xe2, 0x2b, 0x9a, 0xc6, 0x8d, 0x2a, 0xe9, 0xf8, 0x48, 0x08]) ∧
    (∃ t, txRun (txCommand .sub ++ txCommand .isub) s = some t ∧ t.st = s.st) ∧
    (∃ t, txRun (txCommand .isub ++ txCommand .sub) s = some t ∧ t.st = s.st))

/-- 42_block_transform.md R156 and R158, SHR and ISHR: row r rotated left, or right, by r; row 0 unchanged; constant rows
unchanged; four SHR restore `st`; ISHR is the inverse and equals three SHR; where each flat byte goes; the rules'
example; BUSYACC when busy. -/
def Obligations.ShrAndIshr : Prop :=
  encode .shr = 0x13412 ∧ encode .ishr = 0x13413 ∧
  (∀ s : State, s.busy = true → exec .shr s = .next { s with err := s.err ||| 8 } ∧
    exec .ishr s = .next { s with err := s.err ||| 8 }) ∧
  (∀ s : State, s.busy = false → ∃ m n : Matrix4,
    txRun (txCommand .shr) s = some (ranTo .shr m s) ∧
    txRun (txCommand .ishr) s = some (ranTo .ishr n s) ∧
    (∀ r c : Fin 4, m.get r c = s.st.get r ⟨(c.val + r.val) % 4, Nat.mod_lt _ (by decide)⟩) ∧
    (∀ r c : Fin 4, n.get r c = s.st.get r ⟨(c.val + 4 - r.val) % 4, Nat.mod_lt _ (by decide)⟩) ∧
    (∀ c : Fin 4, m.get 0 c = s.st.get 0 c) ∧
    ((∀ r c c' : Fin 4, s.st.get r c = s.st.get r c') → m = s.st) ∧
    (∀ i : Fin 16, m.flatAt ⟨4 * ((i.val / 4 + 4 - i.val % 4) % 4) + i.val % 4, by omega⟩ = s.st.flatAt i) ∧
    (s.st = .mat #v[0xd4, 0x27, 0x11, 0xae, 0xe0, 0xbf, 0x98, 0xf1, 0xb8, 0xb4, 0x5d, 0xe5, 0x1e, 0x41, 0x52, 0x30] →
      m = .mat #v[0xd4, 0xbf, 0x5d, 0x30, 0xe0, 0xb4, 0x52, 0xae, 0xb8, 0x41, 0x11, 0xf1, 0x1e, 0x27, 0x98, 0xe5]) ∧
    (s.st = .mat #v[0xd4, 0xbf, 0x5d, 0x30, 0xe0, 0xb4, 0x52, 0xae, 0xb8, 0x41, 0x11, 0xf1, 0x1e, 0x27, 0x98, 0xe5] →
      n = .mat #v[0xd4, 0x27, 0x11, 0xae, 0xe0, 0xbf, 0x98, 0xf1, 0xb8, 0xb4, 0x5d, 0xe5, 0x1e, 0x41, 0x52, 0x30]) ∧
    (∃ t, txRun (txCommand .shr ++ txCommand .shr ++ txCommand .shr ++ txCommand .shr) s = some t ∧ t.st = s.st) ∧
    (∃ t, txRun (txCommand .shr ++ txCommand .shr ++ txCommand .shr) s = some t ∧ t.st = n) ∧
    (∃ t, txRun (txCommand .shr ++ txCommand .ishr) s = some t ∧ t.st = s.st) ∧
    (∃ t, txRun (txCommand .ishr ++ txCommand .shr) s = some t ∧ t.st = s.st))

/-- 42_block_transform.md R160 and R162, MIX and IMIX: every column through the matrix of multipliers, written out row by
row; a column of four equal bytes and all 0x00 unchanged; the column (0x80, 0, 0, 0) exercises the reduction; IMIX is the
inverse; the rules' example; BUSYACC when busy. -/
def Obligations.MixAndImix : Prop :=
  encode .mix = 0x13414 ∧ encode .imix = 0x13415 ∧
  (∀ s : State, s.busy = true → exec .mix s = .next { s with err := s.err ||| 8 } ∧
    exec .imix s = .next { s with err := s.err ||| 8 }) ∧
  (∀ s : State, s.busy = false → ∃ m n : Matrix4,
    txRun (txCommand .mix) s = some (ranTo .mix m s) ∧
    txRun (txCommand .imix) s = some (ranTo .imix n s) ∧
    (∀ (j : Fin 4) (a b c d : Byte), s.st.get 0 j = a → s.st.get 1 j = b → s.st.get 2 j = c → s.st.get 3 j = d →
      m.get 0 j = gmul a 2 ^^^ gmul b 3 ^^^ gmul c 1 ^^^ gmul d 1 ∧
      m.get 1 j = gmul a 1 ^^^ gmul b 2 ^^^ gmul c 3 ^^^ gmul d 1 ∧
      m.get 2 j = gmul a 1 ^^^ gmul b 1 ^^^ gmul c 2 ^^^ gmul d 3 ∧
      m.get 3 j = gmul a 3 ^^^ gmul b 1 ^^^ gmul c 1 ^^^ gmul d 2 ∧
      n.get 0 j = gmul a 14 ^^^ gmul b 11 ^^^ gmul c 13 ^^^ gmul d 9 ∧
      n.get 1 j = gmul a 9 ^^^ gmul b 14 ^^^ gmul c 11 ^^^ gmul d 13 ∧
      n.get 2 j = gmul a 13 ^^^ gmul b 9 ^^^ gmul c 14 ^^^ gmul d 11 ∧
      n.get 3 j = gmul a 11 ^^^ gmul b 13 ^^^ gmul c 9 ^^^ gmul d 14 ∧
      (b = a ∧ c = a ∧ d = a → (∀ r, m.get r j = a) ∧ ∀ r, n.get r j = a) ∧
      (a = 0x80 ∧ b = 0 ∧ c = 0 ∧ d = 0 → m.col j = ⟨0x1B, 0x80, 0x80, 0x9B⟩)) ∧
    ((∀ r c : Fin 4, s.st.get r c = 0x00) → ∀ r c : Fin 4, m.get r c = 0x00) ∧
    (s.st = .mat #v[0xd4, 0xbf, 0x5d, 0x30, 0xe0, 0xb4, 0x52, 0xae, 0xb8, 0x41, 0x11, 0xf1, 0x1e, 0x27, 0x98, 0xe5] →
      m = .mat #v[0x04, 0x66, 0x81, 0xe5, 0xe0, 0xcb, 0x19, 0x9a, 0x48, 0xf8, 0xd3, 0x7a, 0x28, 0x06, 0x26, 0x4c]) ∧
    (s.st = .mat #v[0x04, 0x66, 0x81, 0xe5, 0xe0, 0xcb, 0x19, 0x9a, 0x48, 0xf8, 0xd3, 0x7a, 0x28, 0x06, 0x26, 0x4c] →
      n = .mat #v[0xd4, 0xbf, 0x5d, 0x30, 0xe0, 0xb4, 0x52, 0xae, 0xb8, 0x41, 0x11, 0xf1, 0x1e, 0x27, 0x98, 0xe5]) ∧
    (∃ t, txRun (txCommand .mix ++ txCommand .imix) s = some t ∧ t.st = s.st) ∧
    (∃ t, txRun (txCommand .imix ++ txCommand .mix) s = some t ∧ t.st = s.st))

/-- 42_block_transform.md R163, ARK at the CMD write with `busy = 0`: NOKEY first, then RKRANGE, each setting only its
bit; otherwise the launch, `cur_arg` latching `rksel`. -/
def Obligations.ArkLaunchChecks : Prop :=
  ∀ s : State, s.busy = false →
    (s.keyValid = false → exec .ark s = .next { s with err := s.err ||| 2 }) ∧
    (s.keyValid = true → s.nr.toNat < s.rksel.toNat → exec .ark s = .next { s with err := s.err ||| 16 }) ∧
    (s.keyValid = true → s.rksel.toNat ≤ s.nr.toNat →
      exec .ark s = .next { s with busy := true, fsm := .stg, seq := 0, curOp := some .ark, curArg := s.rksel })

/-- The result of ARK (42_block_transform.md R164): at the commit every byte of `st` is XORed with the byte of round key
`cur_arg`, and two ARK with one index restore `st`. -/
def Obligations.ArkAddsTheLatchedRoundKey : Prop :=
  (∀ s : State, s.busy = true → s.curOp = some .ark →
    ∃ m : Matrix4, txStep .commit s = some { s with st := m, busy := false, fsm := .idle, seq := 0 } ∧
      ∀ r c : Fin 4, m.get r c = s.st.get r c ^^^ (wordAt s.w (4 * s.curArg.toNat + c.val)).byte r) ∧
  (∀ s : State, s.busy = false → s.keyValid = true → s.rksel.toNat ≤ s.nr.toNat →
    txRun (txCommand .ark ++ txCommand .ark) s =
      some { s with rdata := 0x00, fsm := .idle, seq := 0, curOp := some .ark, curArg := s.rksel })

/-- 42_block_transform.md R166 and R165, ENC: NOKEY without a valid key, BUSYACC when busy, else the launch; the commit
leaves the round sequence of R165 applied to `st`, here as a fold over rounds 1 to Nr - 1, and nothing else of the key
state changes; `nr` is 10, 12 or 14 whenever the key is valid; the rule's example. -/
def Obligations.EncCommand : Prop :=
  encode .enc = 0x13402 ∧
  (∀ s : State, s.busy = true → exec .enc s = .next { s with err := s.err ||| 8 }) ∧
  (∀ s : State, s.busy = false → s.keyValid = false → exec .enc s = .next { s with err := s.err ||| 2 }) ∧
  (∀ s : State, s.busy = false → s.keyValid = true →
    exec .enc s = .next { s with busy := true, fsm := .enc, seq := 0, curOp := some .enc, curArg := s.rksel } ∧
    ∃ m : Matrix4,
      txRun (txCommand .enc) s = some (ranTo .enc m s) ∧
      m = addRoundKey (shiftRows (subBytes
        ((List.range' 1 (s.nr.toNat - 1)).foldl
          (fun x i => addRoundKey (mixColumns (shiftRows (subBytes x))) (roundKey s.w i))
          (addRoundKey s.st (roundKey s.w 0))))) (roundKey s.w s.nr.toNat)) ∧
  (∀ s : State, KeyInv s → s.keyValid = true → s.nr = 10 ∨ s.nr = 12 ∨ s.nr = 14) ∧
  (∀ s : State, KeyInv s → s.busy = false → s.keyValid = true → s.strength = 128 →
    (∀ i : Fin 16, s.key[i.val] = BitVec.ofNat 8 i.val) →
    s.st = .mat #v[0x00, 0x11, 0x22, 0x33, 0x44, 0x55, 0x66, 0x77, 0x88, 0x99, 0xaa, 0xbb, 0xcc, 0xdd, 0xee, 0xff] →
    ∃ t, txRun (txCommand .enc) s = some t ∧
      t.st = .mat #v[0x69, 0xc4, 0xe0, 0xd8, 0x6a, 0x7b, 0x04, 0x30, 0xd8, 0xcd, 0xb7, 0x80, 0x70, 0xb4, 0xc5, 0x5a])

/-- 42_block_transform.md R168 and R167, DEC: as ENC, with the inverse round sequence of R167, a fold over rounds Nr - 1
down to 1; the rule's example. -/
def Obligations.DecCommand : Prop :=
  encode .dec = 0x13403 ∧
  (∀ s : State, s.busy = true → exec .dec s = .next { s with err := s.err ||| 8 }) ∧
  (∀ s : State, s.busy = false → s.keyValid = false → exec .dec s = .next { s with err := s.err ||| 2 }) ∧
  (∀ s : State, s.busy = false → s.keyValid = true →
    exec .dec s = .next { s with busy := true, fsm := .dec, seq := 0, curOp := some .dec, curArg := s.rksel } ∧
    ∃ m : Matrix4,
      txRun (txCommand .dec) s = some (ranTo .dec m s) ∧
      m = addRoundKey
        ((List.range' 1 (s.nr.toNat - 1)).reverse.foldl
          (fun x i => invSubBytes (invShiftRows (invMixColumns (addRoundKey x (roundKey s.w i)))))
          (invSubBytes (invShiftRows (addRoundKey s.st (roundKey s.w s.nr.toNat))))) (roundKey s.w 0)) ∧
  (∀ s : State, KeyInv s → s.busy = false → s.keyValid = true → s.strength = 128 →
    (∀ i : Fin 16, s.key[i.val] = BitVec.ofNat 8 i.val) →
    s.st = .mat #v[0x69, 0xc4, 0xe0, 0xd8, 0x6a, 0x7b, 0x04, 0x30, 0xd8, 0xcd, 0xb7, 0x80, 0x70, 0xb4, 0xc5, 0x5a] →
    ∃ t, txRun (txCommand .dec) s = some t ∧
      t.st = .mat #v[0x00, 0x11, 0x22, 0x33, 0x44, 0x55, 0x66, 0x77, 0x88, 0x99, 0xaa, 0xbb, 0xcc, 0xdd, 0xee, 0xff])

/-- 41_key_schedule.md R141 and R142, KEYEXP at the CMD write: with an illegal strength or a key length that does not
match, CFG is set and `key_valid` cleared and nothing else, and `key_valid` was already 0; otherwise `nr` becomes
strength / 32 + 6, `key_valid` 0 and the command is in flight, RKDATA reads being draws and STATUS showing BUSY = 1 and
KEY_VALID = 0. -/
def Obligations.KeyexpLaunch : Prop :=
  ∀ (s : State) (legal : Prop),
    (legal ↔ (s.strength = 128 ∨ s.strength = 192 ∨ s.strength = 256) ∧ s.keylen.toNat * 8 = s.strength.toNat) →
    (s.busy = false → ¬legal → exec .keyexp s = .next { s with keyValid := false, err := s.err ||| 1 }) ∧
    (KeyInv s → ¬legal → s.keyValid = false) ∧
    (s.busy = false → legal →
      ∃ t, t = { s with
          nr := BitVec.ofNat 8 (s.strength.toNat / 32 + 6)
          keyValid := false
          busy := true
          fsm := .kx
          seq := 0
          curOp := some .keyexp
          curArg := s.rksel } ∧
        exec .keyexp s = .next t ∧ (t.nr = 10 ∨ t.nr = 12 ∨ t.nr = 14) ∧
        (∀ a : Byte, 0x40 ≤ a.toNat → a.toNat ≤ 0x4F →
          exec (.rd a) t = .next { t with rdata := Config.draw t.draws, draws := t.draws + 1 }) ∧
        (statusByte t).getLsbD 0 = true ∧ (statusByte t).getLsbD 1 = false)

/-- 41_key_schedule.md R143 and R131, the KEYEXP commit: the words 0 to 4(nr+1)-1 are the key's own words and then the
recurrence of R131; every later word keeps its value (as R144 says); `key_valid` becomes 1; `st` is not touched. -/
def Obligations.KeyexpCommitWritesTheSchedule : Prop :=
  ∀ (s : State) (nk nr : Nat), s.busy = true → s.curOp = some .keyexp → ConfigInv s →
    nk = s.strength.toNat / 32 → nr = s.nr.toNat →
    ∃ w' : Vector Word 60,
      txStep .commit s = some { s with w := w', keyValid := true, busy := false, fsm := .idle, seq := 0 } ∧
      (∀ i < nk, ∀ r : Fin 4, some ((wordAt w' i).byte r) = s.key[4 * i + r.val]?) ∧
      (∀ i, nk ≤ i → i < 4 * (nr + 1) →
        wordAt w' i = (wordAt w' (i - nk)).xor
          (if i % nk = 0 then (subWord (rotWord (wordAt w' (i - 1)))).xor ⟨rcon (i / nk), 0x00, 0x00, 0x00⟩
            else if nk = 8 ∧ i % nk = 4 then subWord (wordAt w' (i - 1))
            else wordAt w' (i - 1))) ∧
      (∀ i : Fin 60, 4 * (nr + 1) ≤ i.val → w'[i] = s.w[i])

/-- 41_key_schedule.md R132: for a 128-bit key the words group into round keys that follow the source's five steps, and
round key 0 is the key reshaped column-major. -/
def Obligations.KeySchedule128InTheSourcesForm : Prop :=
  ∀ (key : Vector Byte 32) (rk : Nat → Matrix4),
    rk = (fun k => Matrix4.ofCols fun c => (keyExpansion 4 key).getD (4 * k + c.val) .zero) →
    (∀ r c : Fin 4, (rk 0).get r c = key[4 * c.val + r.val]) ∧
    ∀ k, 1 ≤ k → k ≤ 10 →
      (rk k).col 0 = ((subWord (rotWord ((rk (k - 1)).col 3))).xor ((rk (k - 1)).col 0)).xor ⟨rcon k, 0, 0, 0⟩ ∧
      (rk k).col 1 = ((rk k).col 0).xor ((rk (k - 1)).col 1) ∧
      (rk k).col 2 = ((rk k).col 1).xor ((rk (k - 1)).col 2) ∧
      (rk k).col 3 = ((rk k).col 2).xor ((rk (k - 1)).col 3)

/-- A repeated KEYEXP with an unchanged configuration leaves the state as it was (41_key_schedule.md R146), but for the
hidden latch `cur_op`, `cur_arg`, which R142 writes, and the output. -/
def Obligations.RepeatedKeyexpChangesNothing : Prop :=
  ∀ s : State, TxInv s → s.busy = false → s.keyValid = true →
    txRun (txCommand .keyexp) s = some { s with rdata := 0x00, curOp := some .keyexp, curArg := s.rksel }

/-! ## The core (10_state.md R36, 43_sequencer.md) -/

/-- The frame of a commit (10_state.md R36; 43_sequencer.md R182): it is enabled exactly when busy, ends the command, and
writes only `st`, or for KEYEXP only `w` and `key_valid`; never `err`, the key or a configuration register. -/
def Obligations.CommitFrame : Prop :=
  ∀ s : State,
    (s.busy = false → txStep .commit s = none) ∧
    (s.busy = true → ∃ m w v, txStep .commit s =
        some { s with st := m, w := w, keyValid := v, busy := false, fsm := .idle, seq := 0 } ∧
      (s.curOp = some .keyexp → m = s.st ∧ v = true) ∧
      (s.curOp ≠ some .keyexp → w = s.w ∧ v = s.keyValid))

/-- The core and the host never write the same element in one cycle (43_sequencer.md R185): while busy an access changes
only `err` and the output, the core changes neither, and their order does not matter. -/
def Obligations.CoreAndHostWritesAreApart : Prop :=
  ∀ (s t : State) (i : Instr), s.busy = true → exec i s = .next t →
    t = { s with err := t.err, rdata := t.rdata, draws := t.draws } ∧
    (microStep s).err = s.err ∧ (microStep s).key = s.key ∧ (microStep s).strength = s.strength ∧
    (microStep s).keylen = s.keylen ∧ (microStep s).rksel = s.rksel ∧ (microStep s).nr = s.nr ∧
    (microStep s).curOp = s.curOp ∧ (microStep s).curArg = s.curArg ∧
    microStep t = { microStep s with err := t.err, rdata := t.rdata, draws := t.draws }

/-- While a command is in flight the key and configuration registers (10_state.md R21, R32), `nr` (R27) and the latch
`cur_op`, `cur_arg` (R32) cannot change, in any cycle without reset. The command's other operands, `st` and `w`, are not
spoken of: its micro-steps may write them. -/
def Obligations.KeyConfigNrAndLatchAreStableInFlight : Prop :=
  ∀ s t : State, s.busy = true → (nextPins s).rst = false → step s = .next t →
    t.key = s.key ∧ t.strength = s.strength ∧ t.keylen = s.keylen ∧ t.rksel = s.rksel ∧ t.nr = s.nr ∧
    t.curOp = s.curOp ∧ t.curArg = s.curArg

/-- The latency's worth of micro-steps from a launched state is the atomic commit (43_sequencer.md R186, R187 against
R182), for every command. -/
def Obligations.MicroStepsEqualTheCommit : Prop :=
  ∀ (s : State) (o : Op), TxInv s → s.busy = true → s.curOp = some o →
    txStep .commit s = some (microRun (latency o s) s) ∧
    (∀ n < latency o s, (microRun n s).busy = true ∧ (microRun n s).seq = BitVec.ofNat 6 n)

/-- 43_sequencer.md R188 with the latencies of R186: after a launch, STATUS shows BUSY = 1 in each of the next L cycles,
whatever the host does in them short of reset, and BUSY = 0 after them. -/
def Obligations.BusyForExactlyTheLatency : Prop :=
  ∀ (s : State) (o : Op) (n : Nat), CycleInv s → s.busy = true → s.curOp = some o → s.seq = 0 →
    n = (match o with
      | .keyexp => 1 + 4 * (s.nr.toNat + 1) - s.strength.toNat / 32
      | .enc | .dec => 4 * s.nr.toNat
      | .sub | .isub | .shr | .ishr | .mix | .imix | .ark => 1) →
    (∀ p ∈ s.inputs.take n, p.rst = false) →
    (∀ k < n, ∃ t, Sys2Proof.core.run k s = .next t ∧ (statusByte t).getLsbD 0 = true) ∧
    ∃ t, Sys2Proof.core.run n s = .next t ∧ (statusByte t).getLsbD 0 = false

/-- A cycle-level run is a transaction-level schedule (43_sequencer.md R189): a cycle without reset is the host's access,
if there is one, and then the commit, if it is the last cycle of a command. -/
def Obligations.CycleIsATransactionSchedule : Prop :=
  ∀ (t c c' : State), TxInv t → CycleInv c → Matches t c → (nextPins c).rst = false → step c = .next c' →
    ∃ t', txRun ((if (nextPins c).en then [.access (decodeWord (nextPins c).word)] else []) ++
        (if c.busy = true ∧ c'.busy = false then [.commit] else [])) (beginCycle t) = some t' ∧
      TxInv t' ∧ Matches t' c'

/-- 43_sequencer.md R183, every transition of the state machine, and `busy = 1` exactly when `fsm` is not IDLE. -/
def Obligations.FsmTransitions : Prop :=
  ∀ (s t : State) (i : Option Instr), CycleInv s → step s = .next t →
    i = (if (nextPins s).en then some (decodeWord (nextPins s).word) else none) →
    (t.busy = true ↔ t.fsm ≠ .idle) ∧
    ((nextPins s).rst = true → t.fsm = .idle) ∧
    ((nextPins s).rst = false → s.fsm = .idle →
      t.fsm = (if i = some .keyexp ∧ configLegal s = true then .kx
        else if i = some .enc ∧ s.keyValid = true then .enc
        else if i = some .dec ∧ s.keyValid = true then .dec
        else if i = some .ark ∧ s.keyValid = true ∧ s.rksel.toNat ≤ s.nr.toNat then .stg
        else if i = some .sub ∨ i = some .isub ∨ i = some .shr ∨ i = some .ishr ∨ i = some .mix ∨ i = some .imix then .stg
        else .idle)) ∧
    ((nextPins s).rst = false → s.fsm ≠ .idle → ∀ o, s.curOp = some o →
      t.fsm = if s.seq.toNat + 1 = latency o s then .idle else s.fsm)

/-! ## Errors and flags (10_state.md R27 to R29, 60_exceptions.md) -/

/-- 60_exceptions.md R208: one access raises at most one error, the first in the order BUSYACC, ILLCMD, then NOKEY before
RKRANGE, or CFG; errors accumulate. -/
def Obligations.ErrorPriority : Prop :=
  (∀ (i : Instr) (s t : State), exec i s = .next t → (∀ d, i ≠ .wr 0x36 d) →
    t.err = s.err ∨ ∃ k : Fin 5, t.err = s.err ||| ((1 : BitVec 5) <<< k.val)) ∧
  (∀ (s : State) (a d : Byte), s.busy = true → a.toNat ≤ 0x34 → exec (.wr a d) s = .next { s with err := s.err ||| 8 }) ∧
  (∀ (s : State) (c : Command), s.busy = true → exec c.instr s = .next { s with err := s.err ||| 8 }) ∧
  (∀ (s : State) (d : Byte), s.busy = false → (∀ c : Command, d ≠ c.code) →
    exec (.wr 0x34 d) s = .next { s with err := s.err ||| 4 }) ∧
  (∀ (s : State) (i : Instr), s.busy = false → s.keyValid = false → i = .enc ∨ i = .dec ∨ i = .ark →
    exec i s = .next { s with err := s.err ||| 2 }) ∧
  (∀ s : State, s.busy = false → s.keyValid = true → s.nr.toNat < s.rksel.toNat →
    exec .ark s = .next { s with err := s.err ||| 16 }) ∧
  (∀ s : State, s.busy = false → s.strength ≠ 128 ∧ s.strength ≠ 192 ∧ s.strength ≠ 256 ∨
      s.keylen.toNat * 8 ≠ s.strength.toNat →
    exec .keyexp s = .next { s with keyValid := false, err := s.err ||| 1 })

/-- A rejected access is precise (60_exceptions.md R201): an access, other than a write to ERR, that changes `err` leaves
everything else, but that CFG clears `key_valid`. -/
def Obligations.RejectionIsPrecise : Prop :=
  ∀ (i : Instr) (s t : State), i.wellFormed = true → exec i s = .next t → (∀ d, i ≠ .wr 0x36 d) → t.err ≠ s.err →
    t = { s with err := t.err, keyValid := t.keyValid } ∧ (t.keyValid = s.keyValid ∨ i = .keyexp ∧ t.keyValid = false)

/-- 60_exceptions.md R212: errors never block a later access. Whatever `err` holds, an access does the same to everything
but `err`, returns the same byte unless it reads STATUS or ERR, and raises the same errors. -/
def Obligations.ErrorsNeverBlockLaterAccesses : Prop :=
  ∀ (s t : State) (i : Instr) (e : BitVec 5), exec i s = .next t →
    ∃ e' v, exec i { s with err := e } = .next { t with err := e', rdata := v } ∧
      (i ≠ .rd 0x35 → i ≠ .rd 0x36 → v = t.rdata) ∧
      ∀ k < 5, s.err.getLsbD k = false → t.err.getLsbD k = true → e'.getLsbD k = true

/-- 10_state.md R29: over any cycle without reset, an error bit that is 0 becomes 1 exactly when the access has that bit's
cause, and a bit that is 1 becomes 0 exactly when the access writes 1 to it at ERR. -/
def Obligations.ErrorBitsHaveTheirCauses : Prop :=
  ∀ (s t : State) (i : Instr), step s = .next t → (nextPins s).rst = false → i = decodeWord (nextPins s).word →
    (∀ k < 5, s.err.getLsbD k = true →
      (t.err.getLsbD k = false ↔ (nextPins s).en = true ∧ ∃ d : Byte, i = .wr 0x36 d ∧ d.getLsbD k = true)) ∧
    (∀ k < 5, s.err.getLsbD k = false →
      (t.err.getLsbD k = true ↔ (nextPins s).en = true ∧
        ((k = 0 ∧ s.busy = false ∧ i = .keyexp ∧
            ((s.strength ≠ 128 ∧ s.strength ≠ 192 ∧ s.strength ≠ 256) ∨ s.keylen.toNat * 8 ≠ s.strength.toNat)) ∨
          (k = 1 ∧ s.busy = false ∧ s.keyValid = false ∧ (i = .enc ∨ i = .dec ∨ i = .ark)) ∨
          (k = 2 ∧ s.busy = false ∧ ∃ d : Byte, i = .wr 0x34 d ∧ ∀ c : Command, d ≠ c.code) ∨
          (k = 3 ∧ s.busy = true ∧ ((∃ a d : Byte, i = .wr a d ∧ a.toNat ≤ 0x34) ∨ ∃ c : Command, i = c.instr)) ∨
          (k = 4 ∧ s.busy = false ∧ s.keyValid = true ∧ i = .ark ∧ s.nr.toNat < s.rksel.toNat))))

/-- 10_state.md R28: `key_valid` is set only by the last micro-step of KEYEXP, and cleared exactly by reset, by KEYEXP
(launched or rejected) and by an accepted write to KEY, STRL, STRH or KEYLEN. -/
def Obligations.KeyValidIsSetAndClearedByRule : Prop :=
  ∀ (s t : State) (clears : Prop), step s = .next t →
    (clears ↔ (nextPins s).rst = true ∨ ((nextPins s).en = true ∧ s.busy = false ∧
      (decodeWord (nextPins s).word = .keyexp ∨ ∃ a d : Byte, decodeWord (nextPins s).word = .wr a d ∧
        (a.toNat < 0x20 ∨ a.toNat = 0x30 ∨ a.toNat = 0x31 ∨ a.toNat = 0x32)))) →
    (s.keyValid = false → t.keyValid = true → s.busy = true ∧ s.curOp = some .keyexp ∧ t.busy = false) ∧
    (clears → t.keyValid = false) ∧ (s.keyValid = true → t.keyValid = false → clears)

/-- Only a KEYEXP in flight and reset write the round-key memory (10_state.md R26), at both levels. -/
def Obligations.RoundKeyMemoryWriters : Prop :=
  (∀ s t : State, step s = .next t → t.w ≠ s.w →
    (nextPins s).rst = true ∨ (s.busy = true ∧ s.curOp = some .keyexp)) ∧
  (∀ (e : TxEvent) (s t : State), txStep e s = some t → t.w ≠ s.w →
    e = .reset ∨ (e = .commit ∧ s.busy = true ∧ s.curOp = some .keyexp))

/-- 10_state.md R27: `nr` changes only at an accepted KEYEXP launch and at reset, and stays 0, 10, 12 or 14. -/
def Obligations.NrIsWrittenAtLaunchOnly : Prop :=
  ∀ s t : State, step s = .next t →
    (NrInv s → NrInv t) ∧
    (t.nr ≠ s.nr → (nextPins s).rst = true ∨
      ((nextPins s).en = true ∧ s.busy = false ∧ decodeWord (nextPins s).word = .keyexp ∧ configLegal s = true))

/-- Rewriting a key register invalidates the round keys (70_reset_and_hazards.md R233): after an accepted write to KEY,
STRL, STRH or KEYLEN, whatever the byte, the next ENC, DEC or ARK is rejected with NOKEY. -/
def Obligations.KeyWriteInvalidatesTheRoundKeys : Prop :=
  ∀ (s : State) (a d : Byte) (i : Instr), s.busy = false →
    a.toNat < 0x20 ∨ (0x30 ≤ a.toNat ∧ a.toNat ≤ 0x32) → i = .enc ∨ i = .dec ∨ i = .ark →
    ∃ t, exec (.wr a d) s = .next t ∧ t.keyValid = false ∧ t.err = s.err ∧
      exec i t = .next { t with err := t.err ||| 2 }

/-! ## Invariants of every step -/

/-- Every clock cycle keeps the invariant of the cycle level: the key invariant of 10_state.md R37, `fsm` and `busy` in
step (R31), what the launch checks leave of a command in flight, and how far it has come (43_sequencer.md R187). -/
def Obligations.StepKeepsTheCycleInvariant : Prop :=
  ∀ s t : State, CycleInv s → step s = .next t → CycleInv t

/-- 10_state.md R37, the key invariant: every transaction-level step keeps it, with the rest of TxInv; so every state
that any schedule reaches from reset has its four parts, written out here. -/
def Obligations.TransactionsKeepTheKeyInvariant : Prop :=
  (∀ (e : TxEvent) (s t : State), TxInv s → txStep e s = some t → TxInv t) ∧
  (∀ (es : List TxEvent) (t : State), txRun es State.reset = some t → t.keyValid = true →
    (t.strength = 128 ∨ t.strength = 192 ∨ t.strength = 256) ∧ t.keylen.toNat * 8 = t.strength.toNat ∧
    t.nr.toNat = t.strength.toNat / 32 + 6 ∧
    (∀ i < 4 * (t.nr.toNat + 1), some (wordAt t.w i) = (keyExpansion (t.strength.toNat / 32) t.key)[i]?) ∧
    (t.busy = false ∨ t.curOp ≠ some .keyexp))

/-- 60_exceptions.md R213: instances side by side share no state. That a system is a list of states of which one steps at
a time is the model's reading (DEDUCED, log entry 15). A step of one leaves every other as it was and is that instance's
own step, and steps of two instances commute. -/
def Obligations.InstancesAreIndependent : Prop :=
  ∀ (k j : Nat) (sys sys' : List State), stepOne k sys = some sys' → j ≠ k →
    sys'.length = sys.length ∧ sys'[j]? = sys[j]? ∧
    (∃ s t, sys[k]? = some s ∧ step s = .next t ∧ sys'[k]? = some t) ∧
    (∀ x, stepOne j sys = some x → ∃ both, stepOne j sys' = some both ∧ stepOne k x = some both)

/-! ## Whole-block results (42_block_transform.md R169, R170) and boot (70_reset_and_hazards.md R223) -/

/-- 42_block_transform.md R169: with a valid key, ENC then DEC, or DEC then ENC, restores `st`, and the functions undo
each other for every matrix. -/
def Obligations.EncryptDecryptRoundTrip : Prop :=
  (∀ s : State, KeyInv s → s.keyValid = true → ∀ m : Matrix4,
    invCipher (roundKey s.w) s.nr.toNat (cipher (roundKey s.w) s.nr.toNat m) = m ∧
    cipher (roundKey s.w) s.nr.toNat (invCipher (roundKey s.w) s.nr.toNat m) = m) ∧
  (∀ s : State, TxInv s → s.busy = false → s.keyValid = true →
    txRun (txCommand .enc ++ txCommand .dec) s =
      some { s with rdata := 0x00, curOp := some .dec, curArg := s.rksel } ∧
    txRun (txCommand .dec ++ txCommand .enc) s =
      some { s with rdata := 0x00, curOp := some .enc, curArg := s.rksel })

/-- 42_block_transform.md R170: ENC and DEC have the same effect on `st` as their sequences of stage commands, each
launched with its index and run to completion, none of which is rejected. -/
def Obligations.BlockCommandsEqualTheirStages : Prop :=
  ∀ s : State, TxInv s → s.busy = false → s.keyValid = true →
    (∃ t u, txRun (encStages s.nr.toNat) s = some t ∧ txRun (txCommand .enc) s = some u ∧ t.st = u.st ∧ t.err = s.err ∧
      t.keyValid = true) ∧
    (∃ t u, txRun (decStages s.nr.toNat) s = some t ∧ txRun (txCommand .dec) s = some u ∧ t.st = u.st ∧ t.err = s.err ∧
      t.keyValid = true)

/-- The boot sequence works (70_reset_and_hazards.md R223), in one of the orders that the rule allows: from any idle state,
writing a legal strength, the key of its length and then its length, and running KEYEXP, ends with a valid key that
satisfies the key invariant, the right round count, no new error and the block untouched. -/
def Obligations.BootSequenceYieldsAValidKey : Prop :=
  ∀ (s : State) (n : BitVec 16) (k : List Byte), s.busy = false → n = 128 ∨ n = 192 ∨ n = 256 →
    k.length * 8 = n.toNat →
    ∃ t, txRun ((asmSetStr n ++ asmSetKey k ++ [Instr.keyexp]).map TxEvent.access ++ [.commit]) s = some t ∧
      t.busy = false ∧ t.keyValid = true ∧ t.nr.toNat = n.toNat / 32 + 6 ∧ ConfigInv t ∧ ScheduleInv t ∧
      (∀ i < k.length, t.key[i]? = k[i]?) ∧ t.st = s.st ∧ t.err = s.err ∧ t.rksel = s.rksel

/-! ## The primitives (40_primitives.md) -/

/-- 40_primitives.md R103: the source's decompositions agree with the generic product, for every byte. -/
def Obligations.MultiplierDecompositions : Prop :=
  ∀ a : Byte, gmul a 1 = a ∧ gmul a 2 = xtime a ∧ gmul a 3 = xtime a ^^^ a ∧
    gmul a 9 = xtime (xtime (xtime a)) ^^^ a ∧ gmul a 11 = xtime (xtime (xtime a) ^^^ a) ^^^ a ∧
    gmul a 13 = xtime (xtime (xtime a ^^^ a)) ^^^ a ∧ gmul a 14 = xtime (xtime (xtime a ^^^ a) ^^^ a)

/-- 40_primitives.md R104: the laws of multiplication in GF(2^8), and the worked examples. -/
def Obligations.FieldLaws : Prop :=
  (∀ a b c : Byte, gmul a 0 = 0 ∧ gmul a 1 = a ∧ gmul a b = gmul b a ∧ gmul (gmul a b) c = gmul a (gmul b c) ∧
    gmul a (b ^^^ c) = gmul a b ^^^ gmul a c) ∧
  gmul 0x57 0x83 = 0xC1 ∧ gmul 0x57 0x13 = 0xFE

/-- The S-box ROM is the affine map of the field inverse, every non-zero byte has one, and the inverse ROM is its inverse
permutation (40_primitives.md R106, R107). -/
def Obligations.SboxIsTheAffineInverse : Prop :=
  (∀ x b : Byte, (x = 0 ∧ b = 0) ∨ gmul x b = 1 →
    sbox x = b ^^^ b.rotateLeft 1 ^^^ b.rotateLeft 2 ^^^ b.rotateLeft 3 ^^^ b.rotateLeft 4 ^^^ 0x63) ∧
  (∀ x : Byte, x ≠ 0 → ∃ b, gmul x b = 1) ∧
  (∀ x : Byte, invSbox (sbox x) = x ∧ sbox (invSbox x) = x)

/-- 40_primitives.md R116: the round primitives come in inverse pairs, both ways round, and the byte and position
primitives commute. -/
def Obligations.RoundPrimitivesInvert : Prop :=
  ∀ m k : Matrix4,
    invSubBytes (subBytes m) = m ∧ subBytes (invSubBytes m) = m ∧
    invShiftRows (shiftRows m) = m ∧ shiftRows (invShiftRows m) = m ∧
    invMixColumns (mixColumns m) = m ∧ mixColumns (invMixColumns m) = m ∧
    addRoundKey (addRoundKey m k) k = m ∧
    subBytes (shiftRows m) = shiftRows (subBytes m) ∧ invSubBytes (invShiftRows m) = invShiftRows (invSubBytes m)

/-- The constants (40_primitives.md R108, R110, R111): the round constants double in the field from 1 to the tenth, and
the two MixColumns matrices are circulant and inverse to each other. -/
def Obligations.RomConstants : Prop :=
  rcon 1 = 0x01 ∧ (∀ j, 1 ≤ j → j < 10 → rcon (j + 1) = xtime (rcon j)) ∧
  (∀ i : Fin 4, mixM i i = 0x02 ∧ mixM i (i + 1) = 0x03 ∧ mixM i (i + 2) = 0x01 ∧ mixM i (i + 3) = 0x01 ∧
    invMixM i i = 0x0E ∧ invMixM i (i + 1) = 0x0B ∧ invMixM i (i + 2) = 0x0D ∧ invMixM i (i + 3) = 0x09) ∧
  ∀ i j : Fin 4, gmul (mixM i 0) (invMixM 0 j) ^^^ gmul (mixM i 1) (invMixM 1 j) ^^^ gmul (mixM i 2) (invMixM 2 j) ^^^
    gmul (mixM i 3) (invMixM 3 j) = if i = j then 1 else 0
end

