-- ==== Sys2Proof/Laws/Decode.lean ====
section
/-! SUPPORT. What decoding and encoding do: the fields of a bus word, the command codes. -/

namespace Sys2Proof

/-- Every bit of three fields laid out in 17 bits (30_encoding.md R91). -/
theorem append_getLsbD (x : BitVec 1) (a d : Byte) (i : Nat) :
    (BitVec.getLsbD (w := 17) (x ++ a ++ d) i) =
      if i < 8 then d.getLsbD i else if i < 16 then a.getLsbD (i - 8) else x.getLsbD (i - 16) := by
  change BitVec.getLsbD (w := 1 + 8 + 8) (x ++ a ++ d) i = _
  rw [BitVec.getLsbD_append, BitVec.getLsbD_append, Nat.sub_sub]
  by_cases h : i < 8
  · simp [h]
  · by_cases h2 : i < 16
    · have h3 : i - 8 < 8 := by omega
      simp [h, h2, h3]
    · have h3 : ¬ (i - 8 < 8) := by omega
      simp [h, h2, h3]

/-- Every bit of a laid-out bus word (30_encoding.md R91). -/
theorem busWord_getLsbD (b : Bool) (a d : Byte) (i : Nat) :
    (busWord b a d).getLsbD i =
      if i < 8 then d.getLsbD i else if i < 16 then a.getLsbD (i - 8) else (BitVec.ofBool b).getLsbD (i - 16) :=
  append_getLsbD _ a d i

@[simp] theorem busW_busWord (b : Bool) (a d : Byte) : busW (busWord b a d) = b := by
  rw [busW, busWord_getLsbD]
  cases b <;> rfl

@[simp] theorem busA_busWord (b : Bool) (a d : Byte) : busA (busWord b a d) = a := by
  apply BitVec.eq_of_getLsbD_eq
  intro i hi
  have h : 8 + i < 16 := by omega
  simp [busA, busWord_getLsbD, hi, h]

@[simp] theorem busD_busWord (b : Bool) (a d : Byte) : busD (busWord b a d) = d := by
  apply BitVec.eq_of_getLsbD_eq
  intro i hi
  simp [busD, busWord_getLsbD, hi]

/-- A bus word is its three fields (30_encoding.md R91). -/
theorem busWord_fields (w : BitVec 17) : busWord (busW w) (busA w) (busD w) = w := by
  apply BitVec.eq_of_getLsbD_eq
  intro i hi
  rw [busWord_getLsbD]
  by_cases h : i < 8
  · simp [h, busD]
  · by_cases h2 : i < 16
    · have h3 : i - 8 < 8 := by omega
      have h4 : 8 + (i - 8) = i := by omega
      simp [h, h2, h3, h4, busA]
    · have h3 : i = 16 := by omega
      subst h3
      simp [busW]

/-- The decoder reads exactly a command's own code (30_encoding.md R94, R95). -/
theorem decodeCmd_eq_some (d : Byte) (c : Command) : decodeCmd d = some c ↔ d = c.code := by
  constructor
  · intro h
    simp only [decodeCmd] at h
    repeat' split at h
    all_goals first
      | (cases h; assumption)
      | cases h
  · rintro rfl
    rcases c with _ | ⟨_ | _ | _ | _ | _ | _ | _ | _ | _ | _⟩ <;> rfl

@[simp] theorem decodeCmd_code (c : Command) : decodeCmd c.code = some c := (decodeCmd_eq_some _ _).2 rfl

/-- A byte decodes to a command exactly when it is one of the eleven legal codes (30_encoding.md R96). -/
theorem decodeCmd_isSome (d : Byte) : (decodeCmd d).isSome = commandCodes.contains d := by
  revert d
  decide

/-- A write no command row matches decodes to WR. -/
theorem decodeWrite_wr (a d : Byte) (h : isCommandRow a d = false) : decodeWrite a d = .wr a d := by
  by_cases ha : a = cmdAddr
  · have hd := decodeCmd_isSome d
    simp only [isCommandRow, ha, BEq.rfl, Bool.true_and] at h
    rw [h, Option.isSome_eq_false_iff, Option.isNone_iff_eq_none] at hd
    simp [decodeWrite, hd]
  · simp [decodeWrite, ha]

/-- A command row decodes to its command's instruction. -/
@[simp] theorem decodeWrite_code (c : Command) : decodeWrite cmdAddr c.code = c.instr := by simp [decodeWrite]

/-- The decoder reads the three bytes of a word back (log entry 5). -/
theorem decodeBytes_wordBytes (n : Nat) (h : n < 2 ^ 17) (rest : List Byte) :
    decodeBytes (wordBytes n ++ rest) = .ok (decodeWord (BitVec.ofNat 17 n), rest) := by
  have h2 : (BitVec.ofNat 8 (n / 65536)).toNat < 2 := by
    simp only [BitVec.toNat_ofNat]; omega
  simp only [wordBytes, List.cons_append, List.nil_append, decodeBytes, h2, if_true]
  congr 3
  apply BitVec.eq_of_getLsbD_eq
  intro i hi
  rw [append_getLsbD]
  simp only [BitVec.getLsbD_setWidth, BitVec.getLsbD_ofNat]
  have e1 : n / 256 = n / 2 ^ 8 := rfl
  have e2 : n / 65536 = n / 2 ^ 16 := rfl
  by_cases h8 : i < 8
  · simp [h8, hi]
  · by_cases h16 : i < 16
    · have h3 : i - 8 < 8 := by omega
      have h4 : i - 8 + 8 = i := by omega
      simp [h8, h16, h3, hi, e1, Nat.testBit_div_two_pow, h4]
    · have h3 : i = 16 := by omega
      subst h3
      simp [e2, Nat.testBit_eq_decide_div_mod_eq]

/-- A table word is a bus word exactly when nothing stands above bit 16. -/
theorem decodeTableWord_24 (w : Nat) : decodeTableWord 24 w =
    if w % 2 ^ 24 < 2 ^ 17 then some (decodeWord (BitVec.ofNat 17 (w % 2 ^ 24))) else none := by
  have hv : w % 2 ^ 24 < 2 ^ 24 := Nat.mod_lt _ (by decide)
  simp only [decodeTableWord, hv, if_true]
  by_cases h : w % 2 ^ 24 < 2 ^ 17
  · have := decodeBytes_wordBytes (w % 2 ^ 24) h []
    rw [List.append_nil] at this
    rw [this, if_pos h]
  · have h2 : ¬ (BitVec.ofNat 8 (w % 2 ^ 24 / 65536)).toNat < 2 := by
      simp only [BitVec.toNat_ofNat]; omega
    simp only [wordBytes, decodeBytes, h2, if_false, if_neg h]

end Sys2Proof
end

