-- ==== Sys2Proof/Laws/Field.lean ====
section
/-! SUPPORT. Multiplication in GF(2^8): the loop of 40_primitives.md R102 written out, and its first argument. -/

namespace Sys2Proof

theorem xtime_getLsbD (a : Byte) (i : Nat) (h : i < 8) :
    (xtime a).getLsbD i = ((decide (0 < i) && a.getLsbD (i - 1)) ^^ (a.getLsbD 7 && (0x1B#8).getLsbD i)) := by
  have hs : (a <<< 1).getLsbD i = (decide (0 < i) && a.getLsbD (i - 1)) := by
    rw [BitVec.getLsbD_shiftLeft]
    cases i <;> simp [h]
  rw [xtime, BitVec.getLsbD_xor, hs]
  cases a.getLsbD 7 <;> simp

/-- Doubling is linear. -/
theorem xtime_xor (a b : Byte) : xtime (a ^^^ b) = xtime a ^^^ xtime b := by
  apply BitVec.eq_of_getLsbD_eq
  intro i hi
  rw [BitVec.getLsbD_xor, xtime_getLsbD _ _ hi, xtime_getLsbD _ _ hi, xtime_getLsbD _ _ hi, BitVec.getLsbD_xor,
    BitVec.getLsbD_xor]
  cases a.getLsbD (i - 1) <;> cases b.getLsbD (i - 1) <;> cases a.getLsbD 7 <;> cases b.getLsbD 7 <;>
    cases decide (0 < i) <;> cases (0x1B#8).getLsbD i <;> rfl

/-- The term that bit `k` of the second factor adds. -/
def gmulTerm (bit : Bool) (t : Byte) : Byte := if bit then t else 0

theorem gmulTerm_xor (bit : Bool) (s t : Byte) : gmulTerm bit (s ^^^ t) = gmulTerm bit s ^^^ gmulTerm bit t := by
  cases bit <;> simp [gmulTerm]

/-- `a` doubled `k` times. -/
def doubled (a : Byte) : Nat → Byte
  | 0 => a
  | k + 1 => xtime (doubled a k)

theorem doubled_xor (a b : Byte) (k : Nat) : doubled (a ^^^ b) k = doubled a k ^^^ doubled b k := by
  induction k with
  | zero => rfl
  | succ k ih => rw [doubled, ih, xtime_xor]; rfl

/-- The product is the sum of the doublings of `a` that the bits of `b` select (40_primitives.md R102). -/
theorem gmul_eq_terms (a b : Byte) : gmul a b =
    gmulTerm (b.getLsbD 0) (doubled a 0) ^^^ gmulTerm (b.getLsbD 1) (doubled a 1) ^^^
    gmulTerm (b.getLsbD 2) (doubled a 2) ^^^ gmulTerm (b.getLsbD 3) (doubled a 3) ^^^
    gmulTerm (b.getLsbD 4) (doubled a 4) ^^^ gmulTerm (b.getLsbD 5) (doubled a 5) ^^^
    gmulTerm (b.getLsbD 6) (doubled a 6) ^^^ gmulTerm (b.getLsbD 7) (doubled a 7) := by
  have step : ∀ (p t : Byte) (k : Nat), gmulStep b (p, t) k = (p ^^^ gmulTerm (b.getLsbD k) t, xtime t) := by
    intro p t k
    cases h : b.getLsbD k <;> simp [gmulStep, gmulTerm, h]
  have hz : ∀ x : Byte, (0x00 : Byte) ^^^ x = x := fun x => by simp
  simp only [gmul, List.foldl, step, doubled, hz]

/-- The product distributes over a sum in its first factor. -/
theorem gmul_xor_left (a b c : Byte) : gmul (a ^^^ b) c = gmul a c ^^^ gmul b c := by
  simp only [gmul_eq_terms, doubled_xor, gmulTerm_xor]
  ac_rfl

@[simp] theorem gmul_zero_left (c : Byte) : gmul 0 c = 0 := by
  have h := gmul_xor_left 0 0 c
  rwa [BitVec.xor_self, BitVec.xor_self] at h

end Sys2Proof
end

