-- ==== Sys2Proof/Laws/HostProgram.lean ====
section
/-! SUPPORT. The assembler's register names (30_encoding.md R98), and several instances (60_exceptions.md R213). -/

namespace Sys2Proof.Machine

/-- A register's name stands for its address (20_memory.md R63). -/
theorem regAt_addrOf (r : Reg) : regAt (addrOf r) = r := by
  cases r
  case key i => revert i; decide
  case blk i => revert i; decide
  case rkdata i => revert i; decide
  all_goals rfl

/-- What a step of one instance can do. -/
theorem stepOne_cases {k : Nat} {sys sys' : List State} (h : stepOne k sys = some sys') :
    ∃ s t, sys[k]? = some s ∧ step s = .next t ∧ sys' = sys.set k t := by
  simp only [stepOne] at h
  split at h
  · cases h
  · rename_i s hs
    split at h
    · rename_i t ht
      exact ⟨s, t, hs, ht, (Option.some.inj h).symm⟩
    · cases h
    · cases h

end Sys2Proof.Machine
end

