-- ==== Sys2Proof/Laws/KeySchedule.lean ====
section
/-! SUPPORT. The key expansion (41_key_schedule.md R131): its length, its first words, its recurrence; and the words of a
round-key memory after each of the ways KEYEXP writes it. -/

namespace Sys2Proof

theorem expandWords_length (nk n : Nat) (ws : List Word) : (expandWords nk n ws).length = ws.length + n := by
  induction n generalizing ws with
  | zero => rfl
  | succ n ih => rw [expandWords, ih, List.length_append]; simp; omega

/-- The loop keeps the words it starts from. -/
theorem expandWords_getD_lt {nk n i : Nat} {ws : List Word} (h : i < ws.length) :
    (expandWords nk n ws).getD i .zero = ws.getD i .zero := by
  induction n generalizing ws with
  | zero => rfl
  | succ n ih =>
    rw [expandWords, ih (by simp; omega)]
    simp [List.getD_eq_getElem?_getD, List.getElem?_append_left h]

/-- Every word the loop adds follows the recurrence of 41_key_schedule.md R131. -/
theorem expandWords_getD_ge {nk n i : Nat} {ws : List Word} (h0 : 0 < nk) (hk : nk ≤ ws.length) (h : ws.length ≤ i)
    (hi : i < ws.length + n) :
    (expandWords nk n ws).getD i .zero =
      scheduleWord nk i ((expandWords nk n ws).getD (i - nk) .zero) ((expandWords nk n ws).getD (i - 1) .zero) := by
  induction n generalizing ws with
  | zero => omega
  | succ n ih =>
    rw [expandWords]
    by_cases hl : i = ws.length
    · subst hl
      have hlen : (ws ++ [nextScheduleWord nk ws]).length = ws.length + 1 := by simp
      rw [expandWords_getD_lt (i := ws.length) (by omega), expandWords_getD_lt (i := ws.length - nk) (by omega),
        expandWords_getD_lt (i := ws.length - 1) (by omega)]
      simp only [List.getD_eq_getElem?_getD]
      rw [List.getElem?_append_left (i := ws.length - nk) (by omega),
        List.getElem?_append_left (i := ws.length - 1) (by omega),
        List.getElem?_append_right (i := ws.length) (by omega)]
      simp [nextScheduleWord]
    · exact ih (by simp; omega) (by simp; omega) (by simp; omega)

theorem keyExpansion_length (nk : Nat) (key : Vector Byte 32) :
    (keyExpansion nk key).length = scheduleWords (nk + 6) := by
  rw [keyExpansion, expandWords_length]
  simp [scheduleWords]; omega

/-- The first words are the key's own (41_key_schedule.md R131). -/
theorem keyExpansion_key {nk i : Nat} {key : Vector Byte 32} (h : i < nk) :
    (keyExpansion nk key).getD i .zero = keyWord key i := by
  rw [keyExpansion, expandWords_getD_lt (by simpa using h)]
  simp [h]

/-- The other words follow the recurrence (41_key_schedule.md R131). -/
theorem keyExpansion_rec {nk i : Nat} {key : Vector Byte 32} (h0 : 0 < nk) (h : nk ≤ i) (hi : i < scheduleWords (nk + 6)) :
    (keyExpansion nk key).getD i .zero =
      scheduleWord nk i ((keyExpansion nk key).getD (i - nk) .zero) ((keyExpansion nk key).getD (i - 1) .zero) := by
  rw [keyExpansion]
  exact expandWords_getD_ge h0 (by simp) (by simpa using h) (by simp; omega)

/-- The first words of two expansions agree where the key words do. -/
theorem keyExpansion_congr {nk : Nat} {key key' : Vector Byte 32} (h : ∀ i < nk, keyWord key i = keyWord key' i) :
    keyExpansion nk key = keyExpansion nk key' := by
  rw [keyExpansion, keyExpansion]
  congr 1
  exact List.map_congr_left fun i hi => h i (by simpa using hi)

theorem legalStrength_cases {x : BitVec 16} (h : legalStrength x = true) : x = 128 ∨ x = 192 ∨ x = 256 := by
  simpa [legalStrength, or_assoc] using h

namespace Machine

/-! ## The words of a round-key memory -/

/-- Two round-key memories with equal words are equal. -/
theorem eq_of_wordAt {w w' : Vector Word 60} (h : ∀ i < 60, wordAt w i = wordAt w' i) : w = w' := by
  apply Vector.ext
  intro i hi
  simpa [wordAt, hi] using h i hi

theorem wordAt_storeSchedule {nr i : Nat} {ws : List Word} {w : Vector Word 60} (hi : i < 60) :
    wordAt (storeSchedule nr ws w) i = if i < scheduleWords nr then ws.getD i (wordAt w i) else wordAt w i := by
  simp [wordAt, storeSchedule, hi]

theorem wordAt_loadKeyWords {nk i : Nat} {key : Vector Byte 32} {w : Vector Word 60} (hi : i < 60) :
    wordAt (loadKeyWords nk key w) i = if i < nk then keyWord key i else wordAt w i := by
  simp [wordAt, loadKeyWords, hi]

theorem wordAt_setIfInBounds {i j : Nat} {x : Word} {w : Vector Word 60} (hi : i < 60) :
    wordAt (w.setIfInBounds j x) i = if i = j then x else wordAt w i := by
  simp only [wordAt]
  by_cases h : i = j
  · subst h; simp [hi]
  · simp [h, Vector.getElem?_setIfInBounds_ne (Ne.symm h)]

end Machine

end Sys2Proof
end

