-- ==== Sys2Proof/Laws/Matrix.lean ====
section
/-! SUPPORT. Reading and building words and matrices: what each function of Machine/Matrix.lean does, entry by entry. -/

namespace Sys2Proof

@[simp] theorem Word.byte_ofFn (f : Fin 4 → Byte) (r : Fin 4) : (Word.ofFn f).byte r = f r := by
  revert r; simp [Fin.forall_fin_succ, Word.ofFn, Word.byte]

@[simp] theorem Matrix4.col_ofCols (f : Fin 4 → Word) (c : Fin 4) : (Matrix4.ofCols f).col c = f c := by
  revert c; simp [Fin.forall_fin_succ, Matrix4.ofCols, Matrix4.col]

@[simp] theorem Matrix4.get_ofFn (f : Fin 4 → Fin 4 → Byte) (r c : Fin 4) : (Matrix4.ofFn f).get r c = f r c := by
  simp [Matrix4.get, Matrix4.ofFn]

@[simp] theorem Word.byte_xor (x y : Word) (r : Fin 4) : (x.xor y).byte r = x.byte r ^^^ y.byte r := by
  revert r; simp [Fin.forall_fin_succ, Word.xor, Word.byte]

@[simp] theorem Matrix4.get_xor (m k : Matrix4) (r c : Fin 4) : (m.xor k).get r c = m.get r c ^^^ k.get r c := by
  revert c; simp [Fin.forall_fin_succ, Matrix4.get, Matrix4.xor, Matrix4.col]

/-- Two words with equal bytes are equal. -/
theorem Word.eq_of_byte {x y : Word} (h : ∀ r, x.byte r = y.byte r) : x = y := by
  cases x; cases y
  simpa [Fin.forall_fin_succ, Word.byte] using h

/-- Two matrices with equal entries are equal. -/
theorem Matrix4.eq_of_get {m k : Matrix4} (h : ∀ r c, m.get r c = k.get r c) : m = k := by
  have hc : ∀ c, m.col c = k.col c := fun c => Word.eq_of_byte fun r => h r c
  cases m; cases k
  simpa [Fin.forall_fin_succ, Matrix4.col] using hc

@[simp] theorem Matrix4.get_set (m : Matrix4) (r c r' c' : Fin 4) (v : Byte) :
    (m.set r c v).get r' c' = if r' = r ∧ c' = c then v else m.get r' c' := by simp [Matrix4.set]

/-- Byte `i` of a flattened matrix sits at row `i mod 4`, column `i / 4`, and no other byte does (00_scope.md R10). -/
theorem rowOf_colOf_inj {i j : Fin 16} (hr : rowOf i = rowOf j) (hc : colOf i = colOf j) : i = j := by
  simp only [rowOf, colOf, Fin.mk.injEq] at hr hc
  omega

@[simp] theorem Matrix4.flatAt_mat (b : Vector Byte 16) (i : Fin 16) : (Matrix4.mat b).flatAt i = b[i] := by
  simp only [Matrix4.flatAt, Matrix4.mat, Matrix4.get_ofFn, rowOf, colOf]
  have h : 4 * (i.val / 4) + i.val % 4 = i.val := by omega
  simp [h]

@[simp] theorem get_subBytes (m : Matrix4) (r c : Fin 4) : (subBytes m).get r c = sbox (m.get r c) := by simp [subBytes]

@[simp] theorem get_invSubBytes (m : Matrix4) (r c : Fin 4) : (invSubBytes m).get r c = invSbox (m.get r c) := by
  simp [invSubBytes]

@[simp] theorem get_shiftRows (m : Matrix4) (r c : Fin 4) : (shiftRows m).get r c = m.get r (c + r) := by simp [shiftRows]

@[simp] theorem get_invShiftRows (m : Matrix4) (r c : Fin 4) : (invShiftRows m).get r c = m.get r (c - r) := by
  simp [invShiftRows]

@[simp] theorem get_addRoundKey (m k : Matrix4) (r c : Fin 4) : (addRoundKey m k).get r c = m.get r c ^^^ k.get r c := by
  simp [addRoundKey]

@[simp] theorem get_mixWith (coeff : Fin 4 → Fin 4 → Byte) (m : Matrix4) (i j : Fin 4) :
    (mixWith coeff m).get i j = gmul (m.get 0 j) (coeff i 0) ^^^ gmul (m.get 1 j) (coeff i 1) ^^^
      gmul (m.get 2 j) (coeff i 2) ^^^ gmul (m.get 3 j) (coeff i 3) := by simp [mixWith]

@[simp] theorem get_roundKey (w : Vector Word 60) (k : Nat) (r c : Fin 4) :
    (roundKey w k).get r c = (wordAt w (4 * k + c.val)).byte r := by simp [roundKey, Matrix4.get]

end Sys2Proof
end

