-- ==== Sys2Proof/Laws/State.lean ====
section
/-! SUPPORT. One lemma per field and update of State, for the named updates of Machine/Ops.lean and Machine/Cycle.lean:
what the field is afterwards. -/

namespace Sys2Proof.Machine

@[simp] theorem raise_key (e : ErrCode) (s : State) : (raise e s).key = s.key := rfl
@[simp] theorem raise_st (e : ErrCode) (s : State) : (raise e s).st = s.st := rfl
@[simp] theorem raise_strength (e : ErrCode) (s : State) : (raise e s).strength = s.strength := rfl
@[simp] theorem raise_keylen (e : ErrCode) (s : State) : (raise e s).keylen = s.keylen := rfl
@[simp] theorem raise_rksel (e : ErrCode) (s : State) : (raise e s).rksel = s.rksel := rfl
@[simp] theorem raise_w (e : ErrCode) (s : State) : (raise e s).w = s.w := rfl
@[simp] theorem raise_nr (e : ErrCode) (s : State) : (raise e s).nr = s.nr := rfl
@[simp] theorem raise_keyValid (e : ErrCode) (s : State) : (raise e s).keyValid = s.keyValid := rfl
@[simp] theorem raise_err (e : ErrCode) (s : State) : (raise e s).err = errSet s.err e := rfl
@[simp] theorem raise_busy (e : ErrCode) (s : State) : (raise e s).busy = s.busy := rfl
@[simp] theorem raise_fsm (e : ErrCode) (s : State) : (raise e s).fsm = s.fsm := rfl
@[simp] theorem raise_seq (e : ErrCode) (s : State) : (raise e s).seq = s.seq := rfl
@[simp] theorem raise_curOp (e : ErrCode) (s : State) : (raise e s).curOp = s.curOp := rfl
@[simp] theorem raise_curArg (e : ErrCode) (s : State) : (raise e s).curArg = s.curArg := rfl
@[simp] theorem raise_inputs (e : ErrCode) (s : State) : (raise e s).inputs = s.inputs := rfl
@[simp] theorem raise_rdata (e : ErrCode) (s : State) : (raise e s).rdata = s.rdata := rfl
@[simp] theorem raise_draws (e : ErrCode) (s : State) : (raise e s).draws = s.draws := rfl

@[simp] theorem clearErr_key (d : Byte) (s : State) : (clearErr d s).key = s.key := rfl
@[simp] theorem clearErr_st (d : Byte) (s : State) : (clearErr d s).st = s.st := rfl
@[simp] theorem clearErr_strength (d : Byte) (s : State) : (clearErr d s).strength = s.strength := rfl
@[simp] theorem clearErr_keylen (d : Byte) (s : State) : (clearErr d s).keylen = s.keylen := rfl
@[simp] theorem clearErr_rksel (d : Byte) (s : State) : (clearErr d s).rksel = s.rksel := rfl
@[simp] theorem clearErr_w (d : Byte) (s : State) : (clearErr d s).w = s.w := rfl
@[simp] theorem clearErr_nr (d : Byte) (s : State) : (clearErr d s).nr = s.nr := rfl
@[simp] theorem clearErr_keyValid (d : Byte) (s : State) : (clearErr d s).keyValid = s.keyValid := rfl
@[simp] theorem clearErr_err (d : Byte) (s : State) : (clearErr d s).err = errCleared s.err d := rfl
@[simp] theorem clearErr_busy (d : Byte) (s : State) : (clearErr d s).busy = s.busy := rfl
@[simp] theorem clearErr_fsm (d : Byte) (s : State) : (clearErr d s).fsm = s.fsm := rfl
@[simp] theorem clearErr_seq (d : Byte) (s : State) : (clearErr d s).seq = s.seq := rfl
@[simp] theorem clearErr_curOp (d : Byte) (s : State) : (clearErr d s).curOp = s.curOp := rfl
@[simp] theorem clearErr_curArg (d : Byte) (s : State) : (clearErr d s).curArg = s.curArg := rfl
@[simp] theorem clearErr_inputs (d : Byte) (s : State) : (clearErr d s).inputs = s.inputs := rfl
@[simp] theorem clearErr_rdata (d : Byte) (s : State) : (clearErr d s).rdata = s.rdata := rfl
@[simp] theorem clearErr_draws (d : Byte) (s : State) : (clearErr d s).draws = s.draws := rfl

@[simp] theorem launch_key (o : Op) (s : State) : (launch o s).key = s.key := rfl
@[simp] theorem launch_st (o : Op) (s : State) : (launch o s).st = s.st := rfl
@[simp] theorem launch_strength (o : Op) (s : State) : (launch o s).strength = s.strength := rfl
@[simp] theorem launch_keylen (o : Op) (s : State) : (launch o s).keylen = s.keylen := rfl
@[simp] theorem launch_rksel (o : Op) (s : State) : (launch o s).rksel = s.rksel := rfl
@[simp] theorem launch_w (o : Op) (s : State) : (launch o s).w = s.w := rfl
@[simp] theorem launch_nr (o : Op) (s : State) : (launch o s).nr = s.nr := rfl
@[simp] theorem launch_keyValid (o : Op) (s : State) : (launch o s).keyValid = s.keyValid := rfl
@[simp] theorem launch_err (o : Op) (s : State) : (launch o s).err = s.err := rfl
@[simp] theorem launch_busy (o : Op) (s : State) : (launch o s).busy = true := rfl
@[simp] theorem launch_fsm (o : Op) (s : State) : (launch o s).fsm = fsmOf o := rfl
@[simp] theorem launch_seq (o : Op) (s : State) : (launch o s).seq = 0 := rfl
@[simp] theorem launch_curOp (o : Op) (s : State) : (launch o s).curOp = some o := rfl
@[simp] theorem launch_curArg (o : Op) (s : State) : (launch o s).curArg = s.rksel := rfl
@[simp] theorem launch_inputs (o : Op) (s : State) : (launch o s).inputs = s.inputs := rfl
@[simp] theorem launch_rdata (o : Op) (s : State) : (launch o s).rdata = s.rdata := rfl
@[simp] theorem launch_draws (o : Op) (s : State) : (launch o s).draws = s.draws := rfl

@[simp] theorem finish_key (s : State) : (finish s).key = s.key := rfl
@[simp] theorem finish_st (s : State) : (finish s).st = s.st := rfl
@[simp] theorem finish_strength (s : State) : (finish s).strength = s.strength := rfl
@[simp] theorem finish_keylen (s : State) : (finish s).keylen = s.keylen := rfl
@[simp] theorem finish_rksel (s : State) : (finish s).rksel = s.rksel := rfl
@[simp] theorem finish_w (s : State) : (finish s).w = s.w := rfl
@[simp] theorem finish_nr (s : State) : (finish s).nr = s.nr := rfl
@[simp] theorem finish_keyValid (s : State) : (finish s).keyValid = s.keyValid := rfl
@[simp] theorem finish_err (s : State) : (finish s).err = s.err := rfl
@[simp] theorem finish_busy (s : State) : (finish s).busy = false := rfl
@[simp] theorem finish_fsm (s : State) : (finish s).fsm = .idle := rfl
@[simp] theorem finish_seq (s : State) : (finish s).seq = 0 := rfl
@[simp] theorem finish_curOp (s : State) : (finish s).curOp = s.curOp := rfl
@[simp] theorem finish_curArg (s : State) : (finish s).curArg = s.curArg := rfl
@[simp] theorem finish_inputs (s : State) : (finish s).inputs = s.inputs := rfl
@[simp] theorem finish_rdata (s : State) : (finish s).rdata = s.rdata := rfl
@[simp] theorem finish_draws (s : State) : (finish s).draws = s.draws := rfl

@[simp] theorem readReturns_key (v : Byte) (s : State) : (readReturns v s).key = s.key := rfl
@[simp] theorem readReturns_st (v : Byte) (s : State) : (readReturns v s).st = s.st := rfl
@[simp] theorem readReturns_strength (v : Byte) (s : State) : (readReturns v s).strength = s.strength := rfl
@[simp] theorem readReturns_keylen (v : Byte) (s : State) : (readReturns v s).keylen = s.keylen := rfl
@[simp] theorem readReturns_rksel (v : Byte) (s : State) : (readReturns v s).rksel = s.rksel := rfl
@[simp] theorem readReturns_w (v : Byte) (s : State) : (readReturns v s).w = s.w := rfl
@[simp] theorem readReturns_nr (v : Byte) (s : State) : (readReturns v s).nr = s.nr := rfl
@[simp] theorem readReturns_keyValid (v : Byte) (s : State) : (readReturns v s).keyValid = s.keyValid := rfl
@[simp] theorem readReturns_err (v : Byte) (s : State) : (readReturns v s).err = s.err := rfl
@[simp] theorem readReturns_busy (v : Byte) (s : State) : (readReturns v s).busy = s.busy := rfl
@[simp] theorem readReturns_fsm (v : Byte) (s : State) : (readReturns v s).fsm = s.fsm := rfl
@[simp] theorem readReturns_seq (v : Byte) (s : State) : (readReturns v s).seq = s.seq := rfl
@[simp] theorem readReturns_curOp (v : Byte) (s : State) : (readReturns v s).curOp = s.curOp := rfl
@[simp] theorem readReturns_curArg (v : Byte) (s : State) : (readReturns v s).curArg = s.curArg := rfl
@[simp] theorem readReturns_inputs (v : Byte) (s : State) : (readReturns v s).inputs = s.inputs := rfl
@[simp] theorem readReturns_rdata (v : Byte) (s : State) : (readReturns v s).rdata = v := rfl
@[simp] theorem readReturns_draws (v : Byte) (s : State) : (readReturns v s).draws = s.draws := rfl

@[simp] theorem readDraws_key (s : State) : (readDraws s).key = s.key := rfl
@[simp] theorem readDraws_st (s : State) : (readDraws s).st = s.st := rfl
@[simp] theorem readDraws_strength (s : State) : (readDraws s).strength = s.strength := rfl
@[simp] theorem readDraws_keylen (s : State) : (readDraws s).keylen = s.keylen := rfl
@[simp] theorem readDraws_rksel (s : State) : (readDraws s).rksel = s.rksel := rfl
@[simp] theorem readDraws_w (s : State) : (readDraws s).w = s.w := rfl
@[simp] theorem readDraws_nr (s : State) : (readDraws s).nr = s.nr := rfl
@[simp] theorem readDraws_keyValid (s : State) : (readDraws s).keyValid = s.keyValid := rfl
@[simp] theorem readDraws_err (s : State) : (readDraws s).err = s.err := rfl
@[simp] theorem readDraws_busy (s : State) : (readDraws s).busy = s.busy := rfl
@[simp] theorem readDraws_fsm (s : State) : (readDraws s).fsm = s.fsm := rfl
@[simp] theorem readDraws_seq (s : State) : (readDraws s).seq = s.seq := rfl
@[simp] theorem readDraws_curOp (s : State) : (readDraws s).curOp = s.curOp := rfl
@[simp] theorem readDraws_curArg (s : State) : (readDraws s).curArg = s.curArg := rfl
@[simp] theorem readDraws_inputs (s : State) : (readDraws s).inputs = s.inputs := rfl
@[simp] theorem readDraws_rdata (s : State) : (readDraws s).rdata = Config.draw s.draws := rfl
@[simp] theorem readDraws_draws (s : State) : (readDraws s).draws = s.draws + 1 := rfl

@[simp] theorem beginCycle_key (s : State) : (beginCycle s).key = s.key := rfl
@[simp] theorem beginCycle_st (s : State) : (beginCycle s).st = s.st := rfl
@[simp] theorem beginCycle_strength (s : State) : (beginCycle s).strength = s.strength := rfl
@[simp] theorem beginCycle_keylen (s : State) : (beginCycle s).keylen = s.keylen := rfl
@[simp] theorem beginCycle_rksel (s : State) : (beginCycle s).rksel = s.rksel := rfl
@[simp] theorem beginCycle_w (s : State) : (beginCycle s).w = s.w := rfl
@[simp] theorem beginCycle_nr (s : State) : (beginCycle s).nr = s.nr := rfl
@[simp] theorem beginCycle_keyValid (s : State) : (beginCycle s).keyValid = s.keyValid := rfl
@[simp] theorem beginCycle_err (s : State) : (beginCycle s).err = s.err := rfl
@[simp] theorem beginCycle_busy (s : State) : (beginCycle s).busy = s.busy := rfl
@[simp] theorem beginCycle_fsm (s : State) : (beginCycle s).fsm = s.fsm := rfl
@[simp] theorem beginCycle_seq (s : State) : (beginCycle s).seq = s.seq := rfl
@[simp] theorem beginCycle_curOp (s : State) : (beginCycle s).curOp = s.curOp := rfl
@[simp] theorem beginCycle_curArg (s : State) : (beginCycle s).curArg = s.curArg := rfl
@[simp] theorem beginCycle_inputs (s : State) : (beginCycle s).inputs = s.inputs.tail := rfl
@[simp] theorem beginCycle_rdata (s : State) : (beginCycle s).rdata = 0x00 := rfl
@[simp] theorem beginCycle_draws (s : State) : (beginCycle s).draws = s.draws := rfl

/-! The core's effects touch only `st`, or for KEYEXP `w` and `keyValid` (10_state.md R21; 43_sequencer.md R182). -/

theorem commitEffect_eq (o : Op) (s : State) :
    ∃ m w v, commitEffect o s = { s with st := m, w := w, keyValid := v } := by
  cases o <;> exact ⟨_, _, _, rfl⟩

theorem microEffect_eq (o : Op) (n : Nat) (s : State) : ∃ m w, microEffect o n s = { s with st := m, w := w } := by
  cases o
  case keyexp =>
    simp only [microEffect, keyexpMicro]
    split <;> exact ⟨_, _, rfl⟩
  all_goals exact ⟨_, _, rfl⟩

@[simp] theorem commitEffect_key (o : Op) (s : State) : (commitEffect o s).key = s.key := by
  obtain ⟨_, _, _, h⟩ := commitEffect_eq o s; rw [h]
@[simp] theorem commitEffect_strength (o : Op) (s : State) : (commitEffect o s).strength = s.strength := by
  obtain ⟨_, _, _, h⟩ := commitEffect_eq o s; rw [h]
@[simp] theorem commitEffect_keylen (o : Op) (s : State) : (commitEffect o s).keylen = s.keylen := by
  obtain ⟨_, _, _, h⟩ := commitEffect_eq o s; rw [h]
@[simp] theorem commitEffect_rksel (o : Op) (s : State) : (commitEffect o s).rksel = s.rksel := by
  obtain ⟨_, _, _, h⟩ := commitEffect_eq o s; rw [h]
@[simp] theorem commitEffect_nr (o : Op) (s : State) : (commitEffect o s).nr = s.nr := by
  obtain ⟨_, _, _, h⟩ := commitEffect_eq o s; rw [h]
@[simp] theorem commitEffect_err (o : Op) (s : State) : (commitEffect o s).err = s.err := by
  obtain ⟨_, _, _, h⟩ := commitEffect_eq o s; rw [h]
@[simp] theorem commitEffect_busy (o : Op) (s : State) : (commitEffect o s).busy = s.busy := by
  obtain ⟨_, _, _, h⟩ := commitEffect_eq o s; rw [h]
@[simp] theorem commitEffect_fsm (o : Op) (s : State) : (commitEffect o s).fsm = s.fsm := by
  obtain ⟨_, _, _, h⟩ := commitEffect_eq o s; rw [h]
@[simp] theorem commitEffect_seq (o : Op) (s : State) : (commitEffect o s).seq = s.seq := by
  obtain ⟨_, _, _, h⟩ := commitEffect_eq o s; rw [h]
@[simp] theorem commitEffect_curOp (o : Op) (s : State) : (commitEffect o s).curOp = s.curOp := by
  obtain ⟨_, _, _, h⟩ := commitEffect_eq o s; rw [h]
@[simp] theorem commitEffect_curArg (o : Op) (s : State) : (commitEffect o s).curArg = s.curArg := by
  obtain ⟨_, _, _, h⟩ := commitEffect_eq o s; rw [h]
@[simp] theorem commitEffect_inputs (o : Op) (s : State) : (commitEffect o s).inputs = s.inputs := by
  obtain ⟨_, _, _, h⟩ := commitEffect_eq o s; rw [h]
@[simp] theorem commitEffect_rdata (o : Op) (s : State) : (commitEffect o s).rdata = s.rdata := by
  obtain ⟨_, _, _, h⟩ := commitEffect_eq o s; rw [h]
@[simp] theorem commitEffect_draws (o : Op) (s : State) : (commitEffect o s).draws = s.draws := by
  obtain ⟨_, _, _, h⟩ := commitEffect_eq o s; rw [h]

@[simp] theorem microEffect_key (o : Op) (n : Nat) (s : State) : (microEffect o n s).key = s.key := by
  obtain ⟨_, _, h⟩ := microEffect_eq o n s; rw [h]
@[simp] theorem microEffect_strength (o : Op) (n : Nat) (s : State) : (microEffect o n s).strength = s.strength := by
  obtain ⟨_, _, h⟩ := microEffect_eq o n s; rw [h]
@[simp] theorem microEffect_keylen (o : Op) (n : Nat) (s : State) : (microEffect o n s).keylen = s.keylen := by
  obtain ⟨_, _, h⟩ := microEffect_eq o n s; rw [h]
@[simp] theorem microEffect_rksel (o : Op) (n : Nat) (s : State) : (microEffect o n s).rksel = s.rksel := by
  obtain ⟨_, _, h⟩ := microEffect_eq o n s; rw [h]
@[simp] theorem microEffect_nr (o : Op) (n : Nat) (s : State) : (microEffect o n s).nr = s.nr := by
  obtain ⟨_, _, h⟩ := microEffect_eq o n s; rw [h]
@[simp] theorem microEffect_err (o : Op) (n : Nat) (s : State) : (microEffect o n s).err = s.err := by
  obtain ⟨_, _, h⟩ := microEffect_eq o n s; rw [h]
@[simp] theorem microEffect_busy (o : Op) (n : Nat) (s : State) : (microEffect o n s).busy = s.busy := by
  obtain ⟨_, _, h⟩ := microEffect_eq o n s; rw [h]
@[simp] theorem microEffect_fsm (o : Op) (n : Nat) (s : State) : (microEffect o n s).fsm = s.fsm := by
  obtain ⟨_, _, h⟩ := microEffect_eq o n s; rw [h]
@[simp] theorem microEffect_seq (o : Op) (n : Nat) (s : State) : (microEffect o n s).seq = s.seq := by
  obtain ⟨_, _, h⟩ := microEffect_eq o n s; rw [h]
@[simp] theorem microEffect_curOp (o : Op) (n : Nat) (s : State) : (microEffect o n s).curOp = s.curOp := by
  obtain ⟨_, _, h⟩ := microEffect_eq o n s; rw [h]
@[simp] theorem microEffect_curArg (o : Op) (n : Nat) (s : State) : (microEffect o n s).curArg = s.curArg := by
  obtain ⟨_, _, h⟩ := microEffect_eq o n s; rw [h]
@[simp] theorem microEffect_inputs (o : Op) (n : Nat) (s : State) : (microEffect o n s).inputs = s.inputs := by
  obtain ⟨_, _, h⟩ := microEffect_eq o n s; rw [h]
@[simp] theorem microEffect_rdata (o : Op) (n : Nat) (s : State) : (microEffect o n s).rdata = s.rdata := by
  obtain ⟨_, _, h⟩ := microEffect_eq o n s; rw [h]
@[simp] theorem microEffect_draws (o : Op) (n : Nat) (s : State) : (microEffect o n s).draws = s.draws := by
  obtain ⟨_, _, h⟩ := microEffect_eq o n s; rw [h]
@[simp] theorem microEffect_keyValid (o : Op) (n : Nat) (s : State) : (microEffect o n s).keyValid = s.keyValid := by
  obtain ⟨_, _, h⟩ := microEffect_eq o n s; rw [h]

@[simp] theorem lastEffect_key (o : Op) (s : State) : (lastEffect o s).key = s.key := by cases o <;> rfl
@[simp] theorem lastEffect_st (o : Op) (s : State) : (lastEffect o s).st = s.st := by cases o <;> rfl
@[simp] theorem lastEffect_strength (o : Op) (s : State) : (lastEffect o s).strength = s.strength := by cases o <;> rfl
@[simp] theorem lastEffect_keylen (o : Op) (s : State) : (lastEffect o s).keylen = s.keylen := by cases o <;> rfl
@[simp] theorem lastEffect_rksel (o : Op) (s : State) : (lastEffect o s).rksel = s.rksel := by cases o <;> rfl
@[simp] theorem lastEffect_w (o : Op) (s : State) : (lastEffect o s).w = s.w := by cases o <;> rfl
@[simp] theorem lastEffect_nr (o : Op) (s : State) : (lastEffect o s).nr = s.nr := by cases o <;> rfl
@[simp] theorem lastEffect_err (o : Op) (s : State) : (lastEffect o s).err = s.err := by cases o <;> rfl
@[simp] theorem lastEffect_busy (o : Op) (s : State) : (lastEffect o s).busy = s.busy := by cases o <;> rfl
@[simp] theorem lastEffect_fsm (o : Op) (s : State) : (lastEffect o s).fsm = s.fsm := by cases o <;> rfl
@[simp] theorem lastEffect_seq (o : Op) (s : State) : (lastEffect o s).seq = s.seq := by cases o <;> rfl
@[simp] theorem lastEffect_curOp (o : Op) (s : State) : (lastEffect o s).curOp = s.curOp := by cases o <;> rfl
@[simp] theorem lastEffect_curArg (o : Op) (s : State) : (lastEffect o s).curArg = s.curArg := by cases o <;> rfl
@[simp] theorem lastEffect_inputs (o : Op) (s : State) : (lastEffect o s).inputs = s.inputs := by cases o <;> rfl
@[simp] theorem lastEffect_rdata (o : Op) (s : State) : (lastEffect o s).rdata = s.rdata := by cases o <;> rfl
@[simp] theorem lastEffect_draws (o : Op) (s : State) : (lastEffect o s).draws = s.draws := by cases o <;> rfl

end Sys2Proof.Machine
end

