-- ==== Sys2Proof/Laws/Ops.lean ====
section
/-! SUPPORT. What each shared operation can do, once: the busy guard, the register an address names, the meaning of a
command, the launches, a step. -/

namespace Sys2Proof.Machine

/-! ## The guard of a host write (20_memory.md R61) -/

theorem hostWrite_idle {a : Byte} {f : State → State} {s : State} (h : s.busy = false) : hostWrite a f s = f s := by
  simp [hostWrite, h]

theorem hostWrite_busy {a : Byte} {f : State → State} {s : State} (h : s.busy = true) (ha : a.toNat ≤ 0x34) :
    hostWrite a f s = raise .busyacc s := by simp [hostWrite, h, ha]

theorem hostWrite_high {a : Byte} {f : State → State} {s : State} (ha : 0x34 < a.toNat) : hostWrite a f s = f s := by
  have : ¬ a.toNat ≤ 0x34 := by omega
  simp [hostWrite, this]

/-- A host write is a rejection or the write itself. -/
theorem hostWrite_cases (a : Byte) (f : State → State) (s : State) :
    (s.busy = true ∧ a.toNat ≤ 0x34 ∧ hostWrite a f s = raise .busyacc s) ∨
    ((s.busy = false ∨ 0x34 < a.toNat) ∧ hostWrite a f s = f s) := by
  cases hb : s.busy
  · exact .inr ⟨.inl rfl, hostWrite_idle hb⟩
  · by_cases ha : a.toNat ≤ 0x34
    · exact .inl ⟨rfl, ha, hostWrite_busy hb ha⟩
    · exact .inr ⟨.inr (by omega), hostWrite_high (by omega)⟩

/-! ## The register an address names (20_memory.md R63) -/

/-- The addresses a register stands for: one, or for `reserved` the two ranges of 20_memory.md R73. -/
def regHas (r : Reg) (a : Nat) : Bool :=
  match r with
  | .key i => a == i.val
  | .blk i => a == 0x20 + i.val
  | .strl => a == 0x30
  | .strh => a == 0x31
  | .keylen => a == 0x32
  | .rksel => a == 0x33
  | .cmd => a == 0x34
  | .status => a == 0x35
  | .err => a == 0x36
  | .nr => a == 0x37
  | .rkdata i => a == 0x40 + i.val
  | .reserved => decide (0x38 ≤ a ∧ a ≤ 0x3F ∨ 0x50 ≤ a)

/-- The register at an address has that address. -/
theorem regHas_regAt (a : Byte) : regHas (regAt a) a.toNat = true := by
  revert a; decide

theorem regAt_key (i : Fin 32) : regAt (BitVec.ofNat 8 i.val) = .key i := by
  revert i; decide

theorem regAt_blk (i : Fin 16) : regAt (BitVec.ofNat 8 (0x20 + i.val)) = .blk i := by
  revert i; decide

theorem regAt_rkdata (i : Fin 16) : regAt (BitVec.ofNat 8 (0x40 + i.val)) = .rkdata i := by
  revert i; decide

/-- No two registers share an address. -/
theorem regAt_eq {a : Byte} {r : Reg} (h : regHas r a.toNat = true) : regAt a = r := by
  have h' := regHas_regAt a
  revert h'
  cases regAt a <;> cases r <;> intro h' <;> simp only [regHas, beq_iff_eq, decide_eq_true_eq] at h h' <;>
    first
      | rfl
      | (exfalso; omega)
      | (congr 1; omega)

/-! ## The meaning of an instruction -/

/-- A command is the guarded launch of its code. -/
theorem exec_command (c : Command) (s : State) : exec c.instr s = .next (hostWrite cmdAddr (launchCommand c) s) := by
  rcases c with _ | ⟨_ | _ | _ | _ | _ | _ | _ | _ | _ | _⟩ <;> rfl

/-- Every instruction is a read, a write, or a command's row. -/
theorem instr_cases (i : Instr) : (∃ a, i = .rd a) ∨ (∃ a d, i = .wr a d) ∨ ∃ c : Command, i = c.instr := by
  cases i
  case rd a => exact .inl ⟨a, rfl⟩
  case wr a d => exact .inr (.inl ⟨a, d, rfl⟩)
  case nop => exact .inr (.inr ⟨.nop, rfl⟩)
  case keyexp => exact .inr (.inr ⟨.launch .keyexp, rfl⟩)
  case enc => exact .inr (.inr ⟨.launch .enc, rfl⟩)
  case dec => exact .inr (.inr ⟨.launch .dec, rfl⟩)
  case sub => exact .inr (.inr ⟨.launch .sub, rfl⟩)
  case isub => exact .inr (.inr ⟨.launch .isub, rfl⟩)
  case shr => exact .inr (.inr ⟨.launch .shr, rfl⟩)
  case ishr => exact .inr (.inr ⟨.launch .ishr, rfl⟩)
  case mix => exact .inr (.inr ⟨.launch .mix, rfl⟩)
  case imix => exact .inr (.inr ⟨.launch .imix, rfl⟩)
  case ark => exact .inr (.inr ⟨.launch .ark, rfl⟩)

/-- What an accepted command does to the state: nothing, one error bit, CFG with `key_valid` cleared, or the launch, for
KEYEXP with the new round count and `key_valid` cleared (43_sequencer.md R181). -/
theorem launchCommand_cases (c : Command) (s : State) :
    (c = .nop ∧ launchCommand c s = s) ∨
    (c = .launch .keyexp ∧ configLegal s = false ∧ launchCommand c s = raise .cfg { s with keyValid := false }) ∨
    (c = .launch .keyexp ∧ configLegal s = true ∧
      launchCommand c s = launch .keyexp { s with nr := BitVec.ofNat 8 (nkOf s.strength + 6), keyValid := false }) ∨
    ((c = .launch .enc ∨ c = .launch .dec ∨ c = .launch .ark) ∧ s.keyValid = false ∧ launchCommand c s = raise .nokey s) ∨
    (c = .launch .ark ∧ s.keyValid = true ∧ s.nr.toNat < s.rksel.toNat ∧ launchCommand c s = raise .rkrange s) ∨
    ∃ o, c = .launch o ∧ o ≠ .keyexp ∧ (o = .enc ∨ o = .dec ∨ o = .ark → s.keyValid = true) ∧
      (o = .ark → s.rksel.toNat ≤ s.nr.toNat) ∧ launchCommand c s = launch o s := by
  rcases c with _ | o
  · exact .inl ⟨rfl, rfl⟩
  cases o
  case keyexp =>
    cases hc : configLegal s
    · exact .inr (.inl ⟨rfl, rfl, by simp [launchCommand, launchKeyexp, hc]⟩)
    · exact .inr (.inr (.inl ⟨rfl, rfl, by simp [launchCommand, launchKeyexp, hc]⟩))
  case enc =>
    cases hk : s.keyValid
    · exact .inr (.inr (.inr (.inl ⟨.inl rfl, rfl, by simp [launchCommand, launchEnc, hk]⟩)))
    · exact .inr (.inr (.inr (.inr (.inr ⟨.enc, rfl, by simp, by simp, by simp,
        by simp [launchCommand, launchEnc, hk]⟩))))
  case dec =>
    cases hk : s.keyValid
    · exact .inr (.inr (.inr (.inl ⟨.inr (.inl rfl), rfl, by simp [launchCommand, launchDec, hk]⟩)))
    · exact .inr (.inr (.inr (.inr (.inr ⟨.dec, rfl, by simp, by simp, by simp,
        by simp [launchCommand, launchDec, hk]⟩))))
  case ark =>
    cases hk : s.keyValid
    · exact .inr (.inr (.inr (.inl ⟨.inr (.inr rfl), rfl, by simp [launchCommand, launchArk, hk]⟩)))
    · by_cases hr : s.nr.toNat < s.rksel.toNat
      · exact .inr (.inr (.inr (.inr (.inl ⟨rfl, rfl, hr, by simp [launchCommand, launchArk, hk, hr]⟩))))
      · exact .inr (.inr (.inr (.inr (.inr ⟨.ark, rfl, by simp, by simp, by simpa using hr,
          by simp [launchCommand, launchArk, hk, hr]⟩))))
  all_goals exact .inr (.inr (.inr (.inr (.inr ⟨_, rfl, by simp, by simp, by simp, rfl⟩))))

/-- Every access has a next state. -/
theorem exec_next (i : Instr) (s : State) : ∃ t, exec i s = .next t := by
  rcases instr_cases i with ⟨a, rfl⟩ | ⟨a, d, rfl⟩ | ⟨c, rfl⟩
  · exact ⟨_, rfl⟩
  · exact ⟨_, rfl⟩
  · exact ⟨_, exec_command c s⟩

/-- While a command is in flight an access changes only `err` and the output (20_memory.md R62). -/
theorem exec_busy {i : Instr} {s t : State} (hb : s.busy = true) (h : exec i s = .next t) :
    t = { s with err := t.err, rdata := t.rdata, draws := t.draws } := by
  rcases instr_cases i with ⟨a, rfl⟩ | ⟨a, d, rfl⟩ | ⟨c, rfl⟩
  · simp only [exec, execRd] at h
    split at h <;> (cases h; rfl)
  · simp only [exec, execWr] at h
    rcases hostWrite_cases a (regWrite a d) s with ⟨-, -, hw⟩ | ⟨hh, hw⟩
    · rw [hw] at h; cases h; rfl
    · rw [hw] at h
      have ha : 0x34 < a.toNat := by simpa [hb] using hh
      have hr := regHas_regAt a
      simp only [regWrite] at h
      cases hreg : regAt a <;> rw [hreg] at h hr <;>
        simp only [regHas, beq_iff_eq, decide_eq_true_eq] at hr <;>
        first
          | omega
          | (cases h; rfl)
  · rw [exec_command, hostWrite_busy hb (by decide)] at h
    cases h; rfl

/-! ## What an access answers, by case (20_memory.md R60 to R62) -/

/-- A read that races no command returns the register's byte. -/
theorem exec_rd_exact {a : Byte} {s : State} (h : racingRead a s = false) :
    exec (.rd a) s = .next { s with rdata := regRead a s } := by
  simp only [exec, execRd, h]; rfl

/-- A racing read returns the next draw. -/
theorem exec_rd_race {a : Byte} {s : State} (h : racingRead a s = true) :
    exec (.rd a) s = .next { s with rdata := Config.draw s.draws, draws := s.draws + 1 } := by
  simp only [exec, execRd, h]; rfl

/-- With `busy = 0` a write is the register's store. -/
theorem exec_wr_idle {a d : Byte} {s : State} (h : s.busy = false) :
    exec (.wr a d) s = .next (regStore d s (regAt a)) := by
  simp [exec, execWr, hostWrite_idle h, regWrite]

/-- Above CMD a write is the register's store, busy or not. -/
theorem exec_wr_high {a d : Byte} {s : State} (h : 0x34 < a.toNat) :
    exec (.wr a d) s = .next (regStore d s (regAt a)) := by
  simp [exec, execWr, hostWrite_high h, regWrite]

/-- While busy a write up to CMD is BUSYACC. -/
theorem exec_wr_busy {a d : Byte} {s : State} (h : s.busy = true) (ha : a.toNat ≤ 0x34) :
    exec (.wr a d) s = .next (raise .busyacc s) := by
  simp only [exec, execWr, hostWrite_busy h ha]

/-- With `busy = 0` a command is its launch. -/
theorem exec_command_idle {c : Command} {s : State} (h : s.busy = false) :
    exec c.instr s = .next (launchCommand c s) := by rw [exec_command, hostWrite_idle h]

/-- While busy a command is BUSYACC. -/
theorem exec_command_busy {c : Command} {s : State} (h : s.busy = true) :
    exec c.instr s = .next (raise .busyacc s) := by rw [exec_command, hostWrite_busy h (by decide)]

@[simp] theorem racingRead_idle {a : Byte} {s : State} (h : s.busy = false) : racingRead a s = false := by
  simp [racingRead, h]

/-! ## A step (43_sequencer.md R185) -/

/-- One clock cycle: reset; an access and the core's turn; or the core's turn alone. -/
theorem step_cases {s t : State} (h : step s = .next t) :
    ((nextPins s).rst = true ∧ t = resetCycle (nextPins s) (beginCycle s)) ∨
    ((nextPins s).rst = false ∧ (nextPins s).en = true ∧
      ∃ u, exec (decodeWord (nextPins s).word) (beginCycle s) = .next u ∧ t = coreTurn s.busy u) ∨
    ((nextPins s).rst = false ∧ (nextPins s).en = false ∧ t = coreTurn s.busy (beginCycle s)) := by
  simp only [step] at h
  cases hr : (nextPins s).rst
  · cases he : (nextPins s).en
    · rw [hr, he] at h
      cases h
      exact .inr (.inr ⟨rfl, rfl, rfl⟩)
    · obtain ⟨u, hu⟩ := exec_next (decodeWord (nextPins s).word) (beginCycle s)
      rw [hr, he, hu] at h
      cases h
      exact .inr (.inl ⟨rfl, rfl, u, hu, rfl⟩)
  · rw [hr] at h
    cases h
    exact .inl ⟨rfl, rfl⟩

/-- The core's turn with a command in flight: the last micro-step ends it, any other counts on (43_sequencer.md R185). -/
theorem microStep_cases {s : State} {o : Op} (h : s.curOp = some o) :
    (s.seq.toNat + 1 = latency o s ∧ microStep s = finish (lastEffect o (microEffect o s.seq.toNat s))) ∨
    (s.seq.toNat + 1 ≠ latency o s ∧ microStep s = { microEffect o s.seq.toNat s with seq := s.seq + 1 }) := by
  simp only [microStep, h]
  split
  · exact .inl ⟨by assumption, rfl⟩
  · exact .inr ⟨by assumption, rfl⟩

end Sys2Proof.Machine
end

