-- ==== Sys2Proof/Laws/PerInstr.lean ====
section
/-! SUPPORT. Facts per instruction. Family RowBits: the encoded word carries the fixed bits of the instruction's row of
opcode_table.json (its match under its mask). -/

namespace Sys2Proof.Laws.RowBits

/-- The mask of an instruction's row (opcode_table.json): RD and WR fix bit 16, a command fixes all 17 bits. -/
def rowMask : Instr → BitVec 17
  | .rd _ => 0x10000
  | .wr _ _ => 0x10000
  | .nop | .keyexp | .enc | .dec | .sub | .isub | .shr | .ishr | .mix | .imix | .ark => 0x1FFFF

/-- The match of an instruction's row (opcode_table.json). -/
def rowMatch : Instr → BitVec 17
  | .rd _ => 0x00000
  | .wr _ _ => 0x10000
  | .nop => 0x13400
  | .keyexp => 0x13401
  | .enc => 0x13402
  | .dec => 0x13403
  | .sub => 0x13410
  | .isub => 0x13411
  | .shr => 0x13412
  | .ishr => 0x13413
  | .mix => 0x13414
  | .imix => 0x13415
  | .ark => 0x13416

/-- The encoded word matches the instruction's row. -/
def Statement (i : Instr) : Prop := encode i &&& rowMask i = rowMatch i

/-- A word under the mask of RD and WR is its bit 16. -/
theorem masked_bit16 (b : Bool) (a d : Byte) : busWord b a d &&& 0x10000 = busWord b 0 0 := by
  apply BitVec.eq_of_getLsbD_eq
  intro i hi
  rw [BitVec.getLsbD_and, busWord_getLsbD, busWord_getLsbD]
  by_cases h : i < 16
  · have h0 : (0x10000#17).getLsbD i = false := by interval_cases i <;> rfl
    simp [h0, h]
  · have h1 : i = 16 := by omega
    subst h1
    simp

theorem masked_read (a d : Byte) : busWord false a d &&& 0x10000 = 0x00000 := by rw [masked_bit16]; rfl

theorem masked_write (a d : Byte) : busWord true a d &&& 0x10000 = 0x10000 := by rw [masked_bit16]; rfl

theorem rd (a : Byte) : Statement (.rd a) := masked_read a 0x00
theorem wr (a d : Byte) : Statement (.wr a d) := masked_write a d
theorem nop : Statement .nop := rfl
theorem keyexp : Statement .keyexp := rfl
theorem enc : Statement .enc := rfl
theorem dec : Statement .dec := rfl
theorem sub : Statement .sub := rfl
theorem isub : Statement .isub := rfl
theorem shr : Statement .shr := rfl
theorem ishr : Statement .ishr := rfl
theorem mix : Statement .mix := rfl
theorem imix : Statement .imix := rfl
theorem ark : Statement .ark := rfl

end Sys2Proof.Laws.RowBits
end

