-- ==== Sys2Proof/Laws/Sequencer.lean ====
section
/-! SUPPORT. What the core's effects can do, and which micro-step does what (43_sequencer.md R182, R185 to R187). -/

namespace Sys2Proof.Machine

/-! ## Which fields an effect writes -/

/-- Every commit but KEYEXP's writes the state matrix only. -/
theorem commitEffect_matrix {o : Op} (h : o ≠ .keyexp) (s : State) : ∃ m, commitEffect o s = { s with st := m } := by
  cases o
  case keyexp => exact absurd rfl h
  case enc => exact ⟨cipher (roundKey s.w) s.nr.toNat s.st, rfl⟩
  case dec => exact ⟨invCipher (roundKey s.w) s.nr.toNat s.st, rfl⟩
  case sub => exact ⟨subBytes s.st, rfl⟩
  case isub => exact ⟨invSubBytes s.st, rfl⟩
  case shr => exact ⟨shiftRows s.st, rfl⟩
  case ishr => exact ⟨invShiftRows s.st, rfl⟩
  case mix => exact ⟨mixColumns s.st, rfl⟩
  case imix => exact ⟨invMixColumns s.st, rfl⟩
  case ark => exact ⟨addRoundKey s.st (roundKey s.w s.curArg.toNat), rfl⟩

/-- A KEYEXP commit writes the round-key memory and `key_valid` only (41_key_schedule.md R143). -/
theorem commitEffect_keyexp (s : State) : ∃ w, commitEffect .keyexp s = { s with w := w, keyValid := true } ∧
    ∀ i < 60, wordAt w i =
      if i < scheduleWords s.nr.toNat then (keyExpansion (nkOf s.strength) s.key).getD i (wordAt s.w i)
      else wordAt s.w i :=
  ⟨storeSchedule s.nr.toNat (keyExpansion (nkOf s.strength) s.key) s.w, rfl, fun _ hi => wordAt_storeSchedule hi⟩

/-- Every micro-step but KEYEXP's writes the state matrix only. -/
theorem microEffect_matrix {o : Op} (h : o ≠ .keyexp) (n : Nat) (s : State) :
    ∃ m, microEffect o n s = { s with st := m } := by
  cases o
  case keyexp => exact absurd rfl h
  all_goals exact ⟨_, rfl⟩

/-- A micro-step of KEYEXP writes the round-key memory only. -/
theorem microEffect_keyexp (n : Nat) (s : State) : ∃ w, microEffect .keyexp n s = { s with w := w } := by
  simp only [microEffect, keyexpMicro]
  split <;> exact ⟨_, rfl⟩

/-- Only KEYEXP's last micro-step adds anything. -/
theorem lastEffect_matrix {o : Op} (h : o ≠ .keyexp) (s : State) : lastEffect o s = s := by
  cases o
  case keyexp => exact absurd rfl h
  all_goals rfl

/-- An effect does not look at the step counter. -/
theorem microEffect_withSeq (o : Op) (n : Nat) (s : State) (q : BitVec 6) :
    microEffect o n { s with seq := q } = { microEffect o n s with seq := q } := by
  cases o
  case keyexp =>
    simp only [microEffect, keyexpMicro]
    split <;> rfl
  all_goals rfl

/-- A micro-step leaves the errors, the key, the configuration, the round count and the latch (43_sequencer.md R185). -/
theorem microStep_eq (s : State) :
    ∃ m w v b f q, microStep s = { s with st := m, w := w, keyValid := v, busy := b, fsm := f, seq := q } := by
  simp only [microStep]
  split
  · exact ⟨_, _, _, _, _, _, rfl⟩
  · rename_i o _
    obtain ⟨m, w, h⟩ := microEffect_eq o s.seq.toNat s
    rw [h]
    split
    · by_cases hk : o = .keyexp
      · subst hk; exact ⟨_, _, _, _, _, _, rfl⟩
      · rw [lastEffect_matrix hk]; exact ⟨_, _, _, _, _, _, rfl⟩
    · exact ⟨_, _, _, _, _, _, rfl⟩

/-- One more micro-step, at the end of a run. -/
theorem microRun_succ (n : Nat) (s : State) : microRun (n + 1) s = microStep (microRun n s) := by
  induction n generalizing s with
  | zero => rfl
  | succ n ih => exact ih (microStep s)

/-! ## Which micro-step does what (43_sequencer.md R187) -/

theorem encMicro_first (rk : Nat → Matrix4) (nr : Nat) (m : Matrix4) : encMicro rk nr 0 m = addRoundKey m (rk 0) := rfl

/-- Step `4i + 1` substitutes bytes: rounds 1 to nr - 1, and the last one. -/
theorem encMicro_sub {rk : Nat → Matrix4} {nr i : Nat} (m : Matrix4) : encMicro rk nr (4 * i + 1) m = subBytes m := by
  unfold encMicro
  rw [if_neg (by omega), if_neg (by omega), if_pos (by omega)]

theorem encMicro_shift {rk : Nat → Matrix4} {nr i : Nat} (m : Matrix4) :
    encMicro rk nr (4 * i + 2) m = shiftRows m := by
  unfold encMicro
  rw [if_neg (by omega), if_neg (by omega), if_neg (by omega), if_pos (by omega)]

/-- Step `4i + 3` mixes columns, but in the last round. -/
theorem encMicro_mix {rk : Nat → Matrix4} {nr i : Nat} (h : i + 1 < nr) (m : Matrix4) :
    encMicro rk nr (4 * i + 3) m = mixColumns m := by
  unfold encMicro
  rw [if_neg (by omega), if_neg (by omega), if_neg (by omega), if_neg (by omega), if_pos (by omega)]

theorem encMicro_ark {rk : Nat → Matrix4} {nr i : Nat} (h : i + 1 < nr) (m : Matrix4) :
    encMicro rk nr (4 * i + 4) m = addRoundKey m (rk (i + 1)) := by
  unfold encMicro
  rw [if_neg (by omega), if_neg (by omega), if_neg (by omega), if_neg (by omega), if_neg (by omega),
    show (4 * i + 4) / 4 = i + 1 by omega]

/-- The last step, `4 nr - 1`, adds the last round key. -/
theorem encMicro_last {rk : Nat → Matrix4} {nr i : Nat} (h : i + 1 = nr) (m : Matrix4) :
    encMicro rk nr (4 * i + 3) m = addRoundKey m (rk nr) := by
  unfold encMicro
  rw [if_neg (by omega), if_pos (by omega)]

theorem decMicro_first (rk : Nat → Matrix4) (nr : Nat) (m : Matrix4) : decMicro rk nr 0 m = addRoundKey m (rk nr) := rfl

theorem decMicro_shift {rk : Nat → Matrix4} {nr i : Nat} (m : Matrix4) :
    decMicro rk nr (4 * i + 1) m = invShiftRows m := by
  unfold decMicro
  rw [if_neg (by omega), if_pos (by omega)]

theorem decMicro_sub {rk : Nat → Matrix4} {nr i : Nat} (m : Matrix4) :
    decMicro rk nr (4 * i + 2) m = invSubBytes m := by
  unfold decMicro
  rw [if_neg (by omega), if_neg (by omega), if_pos (by omega)]

/-- Step `4i + 3` adds round key `nr - 1 - i`, down to round key 0 in the last step. -/
theorem decMicro_ark {rk : Nat → Matrix4} {nr i : Nat} (m : Matrix4) :
    decMicro rk nr (4 * i + 3) m = addRoundKey m (rk (nr - 1 - i)) := by
  unfold decMicro
  rw [if_neg (by omega), if_neg (by omega), if_neg (by omega), if_pos (by omega),
    show nr - 1 - (4 * i + 3 - 3) / 4 = nr - 1 - i by omega]

theorem decMicro_mix {rk : Nat → Matrix4} {nr i : Nat} (m : Matrix4) :
    decMicro rk nr (4 * i + 4) m = invMixColumns m := by
  unfold decMicro
  rw [if_neg (by omega), if_neg (by omega), if_neg (by omega), if_neg (by omega)]

/-! ## The legal configurations (00_scope.md R6) -/

/-- The three legal configurations, with their round counts. -/
theorem ConfigInv.cases {s : State} (h : ConfigInv s) :
    (s.strength = 128 ∧ s.keylen = 16 ∧ s.nr = 10) ∨ (s.strength = 192 ∧ s.keylen = 24 ∧ s.nr = 12) ∨
      (s.strength = 256 ∧ s.keylen = 32 ∧ s.nr = 14) := by
  obtain ⟨hs, hk, hn⟩ := h
  rcases legalStrength_cases hs with hs | hs | hs <;> rw [hs] at hk hn <;>
    simp only [nkOf] at hn
  · exact .inl ⟨hs, BitVec.eq_of_toNat_eq (by simp at hk ⊢; omega), BitVec.eq_of_toNat_eq hn⟩
  · exact .inr (.inl ⟨hs, BitVec.eq_of_toNat_eq (by simp at hk ⊢; omega), BitVec.eq_of_toNat_eq hn⟩)
  · exact .inr (.inr ⟨hs, BitVec.eq_of_toNat_eq (by simp at hk ⊢; omega), BitVec.eq_of_toNat_eq hn⟩)

/-- A launched KEYEXP has a legal configuration (41_key_schedule.md R141, R142). -/
theorem configInv_of_configLegal {s : State} (h : configLegal s = true) :
    ConfigInv { s with nr := BitVec.ofNat 8 (nkOf s.strength + 6), keyValid := false } := by
  simp only [configLegal, Bool.and_eq_true, beq_iff_eq] at h
  refine ⟨h.1, h.2, ?_⟩
  rcases legalStrength_cases h.1 with hs | hs | hs <;> simp [hs, nkOf]

end Sys2Proof.Machine
end

