-- ==== Sys2Proof/Laws/Transaction.lean ====
section
/-! SUPPORT. Schedules of transaction-level steps (43_sequencer.md R180, R189): how they compose, and what one command run
to its end leaves. -/

namespace Sys2Proof.Machine

theorem txRun_append (es fs : List TxEvent) (s : State) : txRun (es ++ fs) s = (txRun es s).bind (txRun fs) := by
  induction es generalizing s with
  | nil => rfl
  | cons e es ih =>
    simp only [List.cons_append, txRun]
    cases txStep e s <;> simp [ih]

/-- Two schedules in a row. -/
theorem txRun_trans {es fs : List TxEvent} {s t u : State} (h : txRun es s = some t) (h' : txRun fs t = some u) :
    txRun (es ++ fs) s = some u := by rw [txRun_append, h]; exact h'

/-- An access is always enabled. -/
theorem txStep_access {i : Instr} {s t : State} (h : exec i { s with rdata := 0x00 } = .next t) :
    txStep (.access i) s = some t := by simp only [txStep, h]

/-- An access while busy leaves everything but `err`, the output and the draw count (20_memory.md R62). -/
theorem txStep_access_busy {i : Instr} {s t : State} (hb : s.busy = true) (h : txStep (.access i) s = some t) :
    t = { s with err := t.err, rdata := t.rdata, draws := t.draws } := by
  obtain ⟨u, hu⟩ := exec_next i { s with rdata := 0x00 }
  rw [txStep_access hu] at h
  cases h
  exact exec_busy (s := { s with rdata := 0x00 }) hb hu

/-- Along an execution, from a busy position up to the next commit or reset, everything but `err`, the output and the
draw count stays (43_sequencer.md R180). -/
theorem Executes.busy_frame {sched : Nat → Option TxEvent} {run : Nat → State} (hx : Executes sched run) {n : Nat}
    (hb : (run n).busy = true) (d : Nat)
    (hq : ∀ k, n ≤ k → k < n + d → sched k ≠ some .commit ∧ sched k ≠ some .reset) :
    run (n + d) = { run n with err := (run (n + d)).err, rdata := (run (n + d)).rdata, draws := (run (n + d)).draws } := by
  induction d with
  | zero => rfl
  | succ d ih =>
    have ih := ih fun k hk hd => hq k hk (by omega)
    have hbd : (run (n + d)).busy = true := by rw [ih]; exact hb
    have hs := hx (n + d)
    cases he : sched (n + d) with
    | none => rw [he] at hs; rw [show n + (d + 1) = n + d + 1 by omega, hs]; exact ih
    | some e =>
      rw [he] at hs
      cases e with
      | commit => exact absurd he (hq (n + d) (by omega) (by omega)).1
      | reset => exact absurd he (hq (n + d) (by omega) (by omega)).2
      | access i =>
        have h := txStep_access_busy hbd hs
        rw [ih] at h
        exact h

/-- A command on the state matrix that its launch checks accept, run from idle to its commit (43_sequencer.md R181,
R182). -/
theorem txRun_command {o : Op} {s : State} (hb : s.busy = false) (hk : o ≠ .keyexp)
    (hv : o = .enc ∨ o = .dec ∨ o = .ark → s.keyValid = true) (hr : o = .ark → s.rksel.toNat ≤ s.nr.toNat) :
    txRun (txCommand (Command.launch o).instr) s =
      some (ranTo o (commitEffect o { s with curArg := s.rksel }).st s) := by
  have hl : launchCommand (.launch o) { s with rdata := 0x00 } = launch o { s with rdata := 0x00 } := by
    rcases launchCommand_cases (.launch o) { s with rdata := 0x00 } with
      ⟨h, -⟩ | ⟨h, -, -⟩ | ⟨h, -, -⟩ | ⟨h, hf, -⟩ | ⟨h, -, hf, -⟩ | ⟨p, h, -, -, -, hp⟩
    · cases h
    · exact absurd (Command.launch.inj h) hk
    · exact absurd (Command.launch.inj h) hk
    · have hv' := hv (by simpa using h)
      have hf' : s.keyValid = false := hf
      rw [hv'] at hf'
      cases hf'
    · have hr' := hr (Command.launch.inj h)
      have hf' : s.nr.toNat < s.rksel.toNat := hf
      omega
    · cases h
      exact hp
  simp only [txCommand, txRun, txStep]
  rw [exec_command_idle (by exact hb), hl]
  simp only [launch_busy, if_true, commit, launch_curOp]
  cases o
  case keyexp => exact absurd rfl hk
  all_goals rfl

end Sys2Proof.Machine
end

