-- ==== Sys2Proof/Tests/Slice0.lean ====
section
/-! SUPPORT. The model's own tests. Expected values are those of 95_test_vectors.md (the section is named at each test) or
of the rule named. After them, one witness for the hypotheses of each statement that has any. -/

namespace Sys2Proof.Tests

set_option Elab.async false

open Sys2Proof.Machine

/-! ## States -/

/-- The state an access leaves. -/
def after (o : Host.Outcome State Fault Refusal) : State :=
  match o with
  | .next s => s
  | .fault _ => .reset
  | .refused _ => .reset

/-- The key register with byte `i` equal to `i`: the keys `00 01 ..` of 95_test_vectors.md section 3. -/
def seqKey : Vector Byte 32 := Vector.ofFn fun i => BitVec.ofNat 8 i.val

/-- The key `2b 7e 15 16 ..` of 95_test_vectors.md section 3.1. -/
def exampleKey : Vector Byte 32 :=
  #v[(0x2b : Byte), 0x7e, 0x15, 0x16, 0x28, 0xae, 0xd2, 0xa6, 0xab, 0xf7, 0x15, 0x88, 0x09, 0xcf, 0x4f, 0x3c] ++
    Vector.replicate 16 (0x00 : Byte)

/-- An idle state with `key` set and a legal configuration of `4 nk` key bytes, not expanded. -/
def loaded (nk : Nat) (key : Vector Byte 32) : State :=
  { State.reset with key := key, strength := BitVec.ofNat 16 (32 * nk), keylen := BitVec.ofNat 8 (4 * nk) }

/-- The state after KEYEXP of `loaded nk key` ran. -/
def keyed (nk : Nat) (key : Vector Byte 32) : State :=
  { loaded nk key with
    w := storeSchedule (nk + 6) (keyExpansion nk key) (Vector.replicate 60 Word.zero)
    nr := BitVec.ofNat 8 (nk + 6)
    keyValid := true }

/-- The state K128 of 95_test_vectors.md section 5.3, up to the latch. -/
def k128 : State := keyed 4 seqKey

/-- KEYEXP launched and not yet committed. -/
def expanding : State := after (exec .keyexp (loaded 4 seqKey))

/-- A stage command in flight. -/
def shifting : State := after (exec .shr State.reset)

/-- ENC in flight. -/
def encrypting : State := after (exec .enc k128)

/-- ARK in flight, round key 10. -/
def adding : State := after (exec .ark { k128 with rksel := 10 })

/-- The plaintext of 95_test_vectors.md section 5.1, E1. -/
def plain : Matrix4 :=
  .mat #v[0x00, 0x11, 0x22, 0x33, 0x44, 0x55, 0x66, 0x77, 0x88, 0x99, 0xaa, 0xbb, 0xcc, 0xdd, 0xee, 0xff]

/-- The ciphertext of 95_test_vectors.md section 5.1, E1. -/
def coded : Matrix4 :=
  .mat #v[0x69, 0xc4, 0xe0, 0xd8, 0x6a, 0x7b, 0x04, 0x30, 0xd8, 0xcd, 0xb7, 0x80, 0x70, 0xb4, 0xc5, 0x5a]

/-! ## Well-formedness: each ill-formed term is a WR that spells a command row -/

theorem test_wellFormed_refuses_command_rows :
    commandCodes.all (fun d => !(Instr.wr 0x34 d).wellFormed) = true := by decide

theorem test_wellFormed_accepts_the_rest :
    (Instr.wr 0x34 0x04).wellFormed = true ∧ (Instr.wr 0x34 0x17).wellFormed = true ∧
    (Instr.wr 0x33 0x02).wellFormed = true ∧ (Instr.rd 0x34).wellFormed = true ∧ Instr.ark.wellFormed = true := by decide

/-! ## Decoding: words written out bit by bit, `W` then `A` then `D` (30_encoding.md R91, R94) -/

theorem test_decode_rd : decodeWord 0b0_00110101_00000000 = .rd 0x35 := by decide
theorem test_decode_wr : decodeWord 0b1_00110000_10000000 = .wr 0x30 0x80 := by decide
theorem test_decode_illegal_byte_is_wr : decodeWord 0b1_00110100_00010111 = .wr 0x34 0x17 := by decide
theorem test_decode_nop : decodeWord 0b1_00110100_00000000 = .nop := by decide
theorem test_decode_keyexp : decodeWord 0b1_00110100_00000001 = .keyexp := by decide
theorem test_decode_enc : decodeWord 0b1_00110100_00000010 = .enc := by decide
theorem test_decode_dec : decodeWord 0b1_00110100_00000011 = .dec := by decide
theorem test_decode_sub : decodeWord 0b1_00110100_00010000 = .sub := by decide
theorem test_decode_isub : decodeWord 0b1_00110100_00010001 = .isub := by decide
theorem test_decode_shr : decodeWord 0b1_00110100_00010010 = .shr := by decide
theorem test_decode_ishr : decodeWord 0b1_00110100_00010011 = .ishr := by decide
theorem test_decode_mix : decodeWord 0b1_00110100_00010100 = .mix := by decide
theorem test_decode_imix : decodeWord 0b1_00110100_00010101 = .imix := by decide
theorem test_decode_ark : decodeWord 0b1_00110100_00010110 = .ark := by decide

/-- Three bytes of a listing; too few bytes and a word above 17 bits are refused by name (log entry 5). -/
theorem test_decode_bytes :
    decodeBytes [0x16, 0x34, 0x01, 0xFF] = .ok (.ark, [0xFF]) ∧ decodeBytes [0x16, 0x34] = .error .truncated ∧
    decodeBytes [0x16, 0x34, 0x02] = .error .notBus17 := ⟨rfl, rfl, rfl⟩

/-! ## Primitives (95_test_vectors.md section 2) -/

theorem test_xtime : xtime 0x7F = 0xFE ∧ xtime 0xFF = 0xE5 := by decide
theorem test_gmul : gmul 0x53 0xCA = 0x01 ∧ gmul 0x0E 0xB9 = 0x04 ∧ gmul 0x80 0x80 = 0x9A := by decide
theorem test_sbox : sbox 0x53 = 0xED ∧ sbox 0x10 = 0xCA ∧ invSbox 0x53 = 0x50 ∧ invSbox 0xFF = 0x7D := by decide
theorem test_words : rotWord ⟨0x09, 0xcf, 0x4f, 0x3c⟩ = ⟨0xcf, 0x4f, 0x3c, 0x09⟩ ∧
    subWord ⟨0xcf, 0x4f, 0x3c, 0x09⟩ = ⟨0x8a, 0x84, 0xeb, 0x01⟩ := by decide

/-! ## RD and WR (95_test_vectors.md section 5.3) -/

theorem test_rd_status : (after (exec (.rd 0x35) k128)).rdata = 0x02 := by decide +kernel
theorem test_rd_race_draws : (after (exec (.rd 0x20) encrypting)).draws = 1 := by decide +kernel
theorem test_wr_key_clears_key_valid :
    (after (exec (.wr 0x00 0x00) k128)).keyValid = false ∧ (after (exec (.wr 0x20 0xAA) k128)).keyValid = true := by
  decide +kernel

/-- V14: a write to KEY while busy is dropped with BUSYACC. -/
theorem test_wr_busy : (after (exec (.wr 0x00 0xAA) encrypting)).err = 8 ∧
    (after (exec (.wr 0x00 0xAA) encrypting)).key[0] = 0x00 := by decide +kernel

/-! ## The commands -/

theorem test_nop : exec .nop k128 = .next k128 := rfl

/-- V1: strength 0 after reset is illegal. -/
theorem test_keyexp_rejects_reset : (after (exec .keyexp State.reset)).err = 1 ∧
    (after (exec .keyexp State.reset)).busy = false := by decide +kernel

/-- 95_test_vectors.md section 3: the last round keys for the keys `00 01 ..` of 16, 24 and 32 bytes. -/
theorem test_keyexp_round_keys :
    (roundKey (commit (after (exec .keyexp (loaded 4 seqKey)))).w 10).flat =
      #v[0x13, 0x11, 0x1d, 0x7f, 0xe3, 0x94, 0x4a, 0x17, 0xf3, 0x07, 0xa7, 0x8b, 0x4d, 0x2b, 0x30, 0xc5] ∧
    (roundKey (commit (after (exec .keyexp (loaded 6 seqKey)))).w 12).flat =
      #v[0xa4, 0x97, 0x0a, 0x33, 0x1a, 0x78, 0xdc, 0x09, 0xc4, 0x18, 0xc2, 0x71, 0xe3, 0xa4, 0x1d, 0x5d] ∧
    (roundKey (commit (after (exec .keyexp (loaded 8 seqKey)))).w 14).flat =
      #v[0x24, 0xfc, 0x79, 0xcc, 0xbf, 0x09, 0x79, 0xe9, 0x37, 0x1a, 0xc2, 0x3c, 0x6d, 0x68, 0xde, 0x36] := by
  decide +kernel

/-- E1. -/
theorem test_enc : (commit (after (exec .enc { k128 with st := plain }))).st = coded := by decide +kernel

/-- V5. -/
theorem test_enc_without_key : (after (exec .enc State.reset)).err = 2 := by decide +kernel

/-- E1. -/
theorem test_dec : (commit (after (exec .dec { k128 with st := coded }))).st = plain := by decide +kernel

/-- 95_test_vectors.md section 4.1. -/
theorem test_sub : (commit (after (exec .sub { k128 with st := .mat (Vector.replicate 16 0xff) }))).st =
    .mat (Vector.replicate 16 0x16) := by decide +kernel

theorem test_isub : (commit (after (exec .isub k128))).st = .mat (Vector.replicate 16 0x52) := by decide +kernel

/-- 95_test_vectors.md section 1.5. -/
theorem test_shr : (commit (after (exec .shr { k128 with st := .mat (seqKey.extract 0 16) }))).st.flat =
    #v[0x00, 0x05, 0x0a, 0x0f, 0x04, 0x09, 0x0e, 0x03, 0x08, 0x0d, 0x02, 0x07, 0x0c, 0x01, 0x06, 0x0b] := by
  decide +kernel

theorem test_ishr : (commit (after (exec .ishr { k128 with st := .mat (seqKey.extract 0 16) }))).st.flat =
    #v[0x00, 0x0d, 0x0a, 0x07, 0x04, 0x01, 0x0e, 0x0b, 0x08, 0x05, 0x02, 0x0f, 0x0c, 0x09, 0x06, 0x03] := by
  decide +kernel

/-- 95_test_vectors.md section 4.1. -/
theorem test_mix : (commit (after (exec .mix { k128 with st := .mat (seqKey.extract 0 16) }))).st.flat =
    #v[0x02, 0x07, 0x00, 0x05, 0x06, 0x03, 0x04, 0x01, 0x0a, 0x0f, 0x08, 0x0d, 0x0e, 0x0b, 0x0c, 0x09] := by
  decide +kernel

theorem test_imix : (commit (after (exec .imix { k128 with st := .mat (seqKey.extract 0 16) }))).st.flat =
    #v[0x0a, 0x0f, 0x08, 0x0d, 0x0e, 0x0b, 0x0c, 0x09, 0x02, 0x07, 0x00, 0x05, 0x06, 0x03, 0x04, 0x01] := by
  decide +kernel

/-- 95_test_vectors.md section 4.1: ARK with RKSEL = 1 and the key `2b 7e ..`. -/
theorem test_ark : (commit (after (exec .ark
      { keyed 4 exampleKey with
        rksel := 1
        st := .mat #v[0x04, 0x66, 0x81, 0xe5, 0xe0, 0xcb, 0x19, 0x9a, 0x48, 0xf8, 0xd3, 0x7a, 0x28, 0x06, 0x26, 0x4c] }))).st =
    .mat #v[0xa4, 0x9c, 0x7f, 0xf2, 0x68, 0x9f, 0x35, 0x2b, 0x6b, 0x5b, 0xea, 0x43, 0x02, 0x6a, 0x50, 0x49] := by
  decide +kernel

/-- V7 and V6: RKRANGE with a valid key and RKSEL = 11; NOKEY first without one. -/
theorem test_ark_rejections : (after (exec .ark { k128 with rksel := 11 })).err = 16 ∧
    (after (exec .ark { State.reset with rksel := 5 })).err = 2 := by decide +kernel

/-! ## One clock cycle -/

/-- A command placed on the pins launches, and takes its first micro-step in the next cycle (43_sequencer.md R185). -/
theorem test_step_launches : (after (step (State.reset.withFetchWord 24 0x13410))).busy = true ∧
    (after (step (State.reset.withFetchWord 24 0x13410))).st = Matrix4.zero := by decide +kernel

/-- The last micro-step of SUB, with an illegal CMD byte in the same cycle: BUSYACC only (V15; 43_sequencer.md R185). -/
theorem test_step_last_micro_step :
    (after (step ((after (exec .sub State.reset)).withFetchWord 24 0x134FF))).busy = false ∧
    (after (step ((after (exec .sub State.reset)).withFetchWord 24 0x134FF))).err = 8 ∧
    (after (step ((after (exec .sub State.reset)).withFetchWord 24 0x134FF))).st.flatAt 0 = 0x63 := by decide +kernel

/-- A reset during ENC aborts it (10_state.md R38). -/
theorem test_step_reset : (after (step { encrypting with inputs := [⟨true, true, true, 0x30, 0x80⟩] })).busy = false ∧
    (after (step { encrypting with inputs := [⟨true, true, true, 0x30, 0x80⟩] })).strength = 0 := by decide +kernel

/-! ## Witnesses: states and operands that meet the hypotheses of each statement -/

theorem k128_config : ConfigInv k128 := by unfold ConfigInv; decide +kernel

theorem k128_schedule : ScheduleInv k128 := by
  intro i hi
  have h44 : i < 44 := hi
  have hlen : (keyExpansion 4 seqKey).length = 44 := keyExpansion_length 4 seqKey
  change wordAt (storeSchedule 10 (keyExpansion 4 seqKey) (Vector.replicate 60 Word.zero)) i =
    (keyExpansion 4 seqKey).getD i .zero
  rw [wordAt_storeSchedule (by omega), if_pos (show i < scheduleWords 10 from hi), List.getD_eq_getElem?_getD, List.getD_eq_getElem?_getD,
    List.getElem?_eq_getElem (by omega)]
  rfl

theorem k128_keyInv : KeyInv k128 := fun _ => ⟨k128_config, k128_schedule, .inl rfl⟩

theorem k128_txInv : TxInv k128 :=
  ⟨⟨fun _ => ⟨rfl, rfl⟩, fun h => absurd h (by decide +kernel)⟩, k128_keyInv, fun h => absurd h (by decide +kernel), rfl⟩

theorem encrypting_keyInv : KeyInv encrypting := fun _ => ⟨k128_config, k128_schedule, .inr (by decide +kernel)⟩

theorem encrypting_flight : FlightInv encrypting :=
  fun _ => ⟨fun h => absurd h (by decide +kernel), fun _ => rfl, fun h => absurd h (by decide +kernel)⟩

theorem encrypting_seqInv : SeqInv encrypting :=
  ⟨fun h => absurd h (by decide +kernel), fun _ => ⟨.enc, rfl, rfl⟩⟩

theorem encrypting_txInv : TxInv encrypting := ⟨encrypting_seqInv, encrypting_keyInv, encrypting_flight, rfl⟩

theorem encrypting_cycleInv : CycleInv encrypting := by
  refine ⟨encrypting_seqInv, encrypting_keyInv, encrypting_flight, fun _ o ho => ?_⟩
  cases ho
  exact ⟨by decide +kernel, fun h => absurd h (by decide)⟩

theorem expanding_config : ConfigInv expanding := by unfold ConfigInv; decide +kernel

theorem expanding_keyInv : KeyInv expanding := fun h => absurd h (by decide +kernel)

theorem expanding_txInv : TxInv expanding :=
  ⟨⟨fun h => absurd h (by decide +kernel), fun _ => ⟨.keyexp, rfl, rfl⟩⟩, expanding_keyInv,
    fun _ => ⟨fun _ => ⟨expanding_config, rfl⟩, fun h => absurd h (by decide +kernel), fun h => absurd h (by decide +kernel)⟩,
    rfl⟩

theorem expanding_cycleInv : CycleInv expanding := by
  refine ⟨expanding_txInv.1, expanding_keyInv, expanding_txInv.2.2.1, fun _ o ho => ?_⟩
  cases ho
  exact ⟨by decide +kernel, fun _ i h => absurd h (by decide +kernel)⟩

theorem witness_DecodeOfEncode :
    (Instr.wr 0x34 0x04).wellFormed = true ∧ (Instr.wr 0xFF 0xFF).wellFormed = true ∧ Instr.ark.wellFormed = true := by
  decide

theorem witness_IllegalCommandByteSetsIllcmd : State.reset.busy = false ∧
    ∀ d ∈ [(0x04 : Byte), 0x0F, 0x17, 0xFF], (0x04 ≤ d.toNat ∧ d.toNat ≤ 0x0F) ∨ 0x17 ≤ d.toNat := by decide

/-- The pins of a read of STATUS; and the word of SUB placed on the pins. -/
theorem witness_StepRunsTheDecodedAccess :
    decodeWord (BitVec.ofBool false ++ (0x35 : Byte) ++ (0x00 : Byte)) = .rd 0x35 ∧
    exec (.rd 0x35) { State.reset with inputs := [], rdata := 0x00 } = .next (after (exec (.rd 0x35) State.reset)) ∧
    decodeTableWord 24 0x13410 = some .sub ∧
    exec .sub { State.reset with rdata := 0x00 } = .next (after (exec .sub State.reset)) :=
  ⟨by decide, rfl, by decide, rfl⟩

/-- ENC in flight, a STATUS read, the commit, and then nobody acts: a fair execution. -/
theorem witness_EveryCycleCompletes :
    FairExecution
      (fun | 0 => some (.access (.rd 0x35)) | 1 => some .commit | _ + 2 => none)
      (fun | 0 => encrypting | 1 => after (exec (.rd 0x35) encrypting) | _ + 2 => commit (after (exec (.rd 0x35) encrypting))) ∧
    encrypting.busy = true :=
  ⟨⟨fun | 0 => rfl | 1 => rfl | _ + 2 => rfl, fun
    | 0, _ => ⟨1, by decide, rfl⟩
    | 1, _ => ⟨1, by decide, rfl⟩
    | n + 2, h => absurd (h (n + 2) (by omega))
        (show ¬(commit (after (exec (.rd 0x35) encrypting))).busy = true by decide +kernel)⟩, rfl⟩

theorem witness_CycleWithoutAccess : State.reset.inputs = [] ∧
    ∃ p rest, ({ State.reset with inputs := [Pins.idle] } : State).inputs = p :: rest ∧ p.rst = false ∧ p.en = false :=
  ⟨rfl, _, _, rfl, rfl, rfl⟩

theorem witness_ResetSetsEveryElement :
    ∃ p rest, ({ encrypting with inputs := [⟨true, true, true, 0x30, 0x80⟩] } : State).inputs = p :: rest ∧ p.rst = true :=
  ⟨_, _, rfl, rfl⟩

/-- Idle states and busy ones: the hypotheses of ReadChangesNoState, StrengthRegisters, KeylenAndRksel, NopDoesNothing
and CommitFrame, and the clauses `busy = 0` and `busy = 1` of every other statement about accesses. -/
theorem witness_busy_clauses : State.reset.busy = false ∧ k128.busy = false ∧ encrypting.busy = true ∧
    encrypting.curOp = some .enc ∧ encrypting.curOp ≠ some .keyexp ∧ expanding.busy = true ∧
    expanding.curOp = some .keyexp := by decide +kernel

theorem witness_KeyWindow : expanding.busy = true ∧ expanding.curOp = some .keyexp ∧ ConfigInv expanding ∧
    (15 : Fin 32).val < expanding.strength.toNat / 8 := ⟨rfl, rfl, expanding_config, by decide +kernel⟩

theorem witness_BlkWindow : ∀ i : Fin 16, i ∈ (List.finRange 16).reverse := by decide

/-- RKSEL on both sides of the last slot. -/
theorem witness_RkdataWindow : ({ k128 with rksel := 14 } : State).rksel.toNat ≤ 14 ∧
    14 < ({ k128 with rksel := 15 } : State).rksel.toNat := by decide +kernel

theorem witness_ReservedAndReadOnlyAddresses :
    (∀ a ∈ [(0x38 : Byte), 0x3F, 0x50, 0xFF], (0x38 ≤ a.toNat ∧ a.toNat ≤ 0x3F) ∨ 0x50 ≤ a.toNat) ∧
    (∀ a ∈ [(0x35 : Byte), 0x37, 0x40, 0x4F], a.toNat = 0x35 ∨ a.toNat = 0x37 ∨ (0x40 ≤ a.toNat ∧ a.toNat ≤ 0x4F)) := by
  decide

/-- The boundaries of the clauses of 20_memory.md R62, for ENC and for KEYEXP; the last clause's address races neither. -/
theorem witness_AccessesWhileBusy :
    (0x34 : Byte).toNat ≤ 0x34 ∧ (0x34 < (0x35 : Byte).toNat ∧ (0x35 : Byte).toNat ≠ 0x36) ∧
    (0x34 < (0x37 : Byte).toNat ∧ (0x37 : Byte).toNat ≠ 0x36) ∧
    (Op.enc ≠ .keyexp ∧ 0x20 ≤ (0x20 : Byte).toNat ∧ (0x2F : Byte).toNat ≤ 0x2F) ∧
    (0x40 ≤ (0x40 : Byte).toNat ∧ (0x4F : Byte).toNat ≤ 0x4F) ∧
    (∀ a ∈ [(0x1F : Byte), 0x30, 0x40, 0x4F], ¬(Op.enc ≠ .keyexp ∧ 0x20 ≤ a.toNat ∧ a.toNat ≤ 0x2F) ∧
      ¬(Op.enc = .keyexp ∧ 0x40 ≤ a.toNat ∧ a.toNat ≤ 0x4F)) ∧
    (microStep encrypting).busy = true := by decide +kernel

/-- A read; a command; writes of RKSEL with the addresses around the RKDATA window, and of ERR while busy. -/
theorem witness_RegisterSpaceFrame :
    exec (.rd 0x30) k128 = .next (after (exec (.rd 0x30) k128)) ∧
    exec (Command.launch .enc).instr k128 = .next encrypting ∧
    exec (.wr 0x33 0x05) k128 = .next { k128 with rksel := 0x05 } ∧
    (∀ b ∈ [(0x32 : Byte), 0x34, 0x3F, 0x50], b ≠ 0x33 ∧ b.toNat ≠ 0x35 ∧ ¬(0x40 ≤ b.toNat ∧ b.toNat ≤ 0x4F)) ∧
    exec (.wr 0x36 0x1F) encrypting = .next (after (exec (.wr 0x36 0x1F) encrypting)) ∧
    exec (.wr 0x32 0x10) k128 = .next (after (exec (.wr 0x32 0x10) k128)) ∧ (0x33 : Byte).toNat < 0x34 :=
  ⟨rfl, rfl, rfl, by decide, rfl, rfl, by decide⟩

theorem witness_StageCommandsLaunchAndCommit : State.reset.busy = false ∧
    (Instr.shr, Op.shr, shiftRows) ∈ [(Instr.sub, Op.sub, subBytes), (.isub, .isub, invSubBytes), (.shr, .shr, shiftRows),
      (.ishr, .ishr, invShiftRows), (.mix, .mix, mixColumns), (.imix, .imix, invMixColumns)] ∧
    0x20 ≤ (0x20 : Byte).toNat ∧ (0x2F : Byte).toNat ≤ 0x2F := ⟨rfl, by simp, by decide, by decide⟩

/-- The block of the corner cases: all zero, constant rows, and columns of the corner cases of MIX. -/
theorem witness_SubAndIsub : State.reset.busy = false ∧ encrypting.busy = true ∧ ∀ r c : Fin 4, State.reset.st.get r c = 0x00 :=
  by decide +kernel

theorem witness_ShrAndIshr : State.reset.busy = false ∧ shifting.busy = true ∧
    ∀ r c c' : Fin 4, State.reset.st.get r c = State.reset.st.get r c' := by decide +kernel

theorem witness_MixAndImix : State.reset.busy = false ∧ shifting.busy = true ∧
    (∃ m : Matrix4, m.get 0 1 = 0x80 ∧ m.get 1 1 = 0 ∧ m.get 2 1 = 0 ∧ m.get 3 1 = 0 ∧
      m.get 0 2 = 0xC6 ∧ m.get 1 2 = 0xC6 ∧ m.get 2 2 = 0xC6 ∧ m.get 3 2 = 0xC6) ∧
    ∀ r c : Fin 4, State.reset.st.get r c = 0x00 :=
  ⟨rfl, rfl, ⟨⟨.zero, ⟨0x80, 0, 0, 0⟩, ⟨0xC6, 0xC6, 0xC6, 0xC6⟩, .zero⟩, by decide⟩, by decide +kernel⟩

/-- RKSEL = nr is in range, nr + 1 is not. -/
theorem witness_ArkLaunchChecks : State.reset.busy = false ∧ State.reset.keyValid = false ∧ k128.busy = false ∧
    k128.keyValid = true ∧ ({ k128 with rksel := 10 } : State).rksel.toNat ≤ k128.nr.toNat ∧
    k128.nr.toNat < ({ k128 with rksel := 11 } : State).rksel.toNat := by decide +kernel

theorem witness_ArkAddsTheLatchedRoundKey : adding.busy = true ∧ adding.curOp = some .ark ∧ adding.curArg = 10 := by
  decide +kernel

/-- The example of 42_block_transform.md R166; that of R168 is the same with `coded`. -/
theorem witness_EncCommand : KeyInv { k128 with st := plain } ∧ k128.keyValid = true ∧ k128.strength = 128 ∧
    ∀ i : Fin 16, k128.key[i.val] = BitVec.ofNat 8 i.val := ⟨k128_keyInv, rfl, rfl, by decide +kernel⟩

theorem witness_DecCommand : KeyInv { k128 with st := coded } ∧ k128.busy = false ∧ k128.keyValid = true ∧
    k128.strength = 128 := ⟨k128_keyInv, rfl, rfl, rfl⟩

/-- A configuration that is not legal by its strength, one by its length, and a legal one. -/
theorem witness_KeyexpLaunch :
    (State.reset.strength ≠ 128 ∧ State.reset.strength ≠ 192 ∧ State.reset.strength ≠ 256 ∧ State.reset.busy = false) ∧
    ({ loaded 4 seqKey with keylen := 24 } : State).keylen.toNat * 8 ≠ (loaded 4 seqKey).strength.toNat ∧
    KeyInv State.reset ∧ (loaded 4 seqKey).busy = false ∧ (loaded 4 seqKey).strength = 128 ∧
    (loaded 4 seqKey).keylen.toNat * 8 = (loaded 4 seqKey).strength.toNat :=
  ⟨by decide, by decide +kernel, fun h => absurd h (by decide), rfl, rfl, by decide +kernel⟩

theorem witness_KeyexpCommitWritesTheSchedule : expanding.busy = true ∧ expanding.curOp = some .keyexp ∧
    ConfigInv expanding ∧ 4 = expanding.strength.toNat / 32 ∧ 10 = expanding.nr.toNat :=
  ⟨rfl, rfl, expanding_config, by decide +kernel, by decide +kernel⟩

/-- The first and the last round key that the five steps give. -/
theorem witness_KeySchedule128InTheSourcesForm : ∃ rk : Nat → Matrix4,
    rk = (fun k => Matrix4.ofCols fun c => (keyExpansion 4 exampleKey).getD (4 * k + c.val) .zero) ∧
    1 ≤ 1 ∧ 1 ≤ 10 ∧ 10 ≤ 10 := ⟨_, rfl, by decide⟩

theorem witness_RepeatedKeyexpChangesNothing : TxInv k128 ∧ k128.busy = false ∧ k128.keyValid = true :=
  ⟨k128_txInv, rfl, rfl⟩

theorem witness_CoreAndHostWritesAreApart : encrypting.busy = true ∧
    exec (.wr 0x36 0x1F) encrypting = .next (after (exec (.wr 0x36 0x1F) encrypting)) := ⟨rfl, rfl⟩

theorem witness_KeyConfigNrAndLatchAreStableInFlight : encrypting.busy = true ∧ (nextPins encrypting).rst = false ∧
    ∃ t, step encrypting = .next t := ⟨rfl, rfl, _, rfl⟩

theorem witness_MicroStepsEqualTheCommit : (TxInv encrypting ∧ encrypting.busy = true ∧ encrypting.curOp = some .enc ∧
      39 < latency .enc encrypting) ∧
    TxInv expanding ∧ expanding.busy = true ∧ expanding.curOp = some .keyexp ∧ 40 < latency .keyexp expanding :=
  ⟨⟨encrypting_txInv, rfl, rfl, by decide +kernel⟩, expanding_txInv, rfl, rfl, by decide +kernel⟩

theorem witness_BusyForExactlyTheLatency : CycleInv expanding ∧ expanding.busy = true ∧ expanding.curOp = some .keyexp ∧
    expanding.seq = 0 ∧ 41 = 1 + 4 * (expanding.nr.toNat + 1) - expanding.strength.toNat / 32 ∧
    ∀ p ∈ expanding.inputs.take 41, p.rst = false :=
  ⟨expanding_cycleInv, rfl, rfl, rfl, by decide +kernel, by decide +kernel⟩

/-- Both levels at the launch of ENC, and one micro-step later. -/
theorem witness_CycleIsATransactionSchedule : TxInv encrypting ∧ CycleInv encrypting ∧ Matches encrypting encrypting ∧
    (nextPins encrypting).rst = false ∧ step encrypting = .next (after (step encrypting)) :=
  ⟨encrypting_txInv, encrypting_cycleInv, ⟨rfl, rfl, rfl⟩, rfl, rfl⟩

theorem witness_FsmTransitions : CycleInv encrypting ∧ step encrypting = .next (after (step encrypting)) ∧
    encrypting.fsm ≠ .idle ∧ encrypting.curOp = some .enc ∧ CycleInv State.reset ∧ State.reset.fsm = .idle ∧
    step State.reset = .next (after (step State.reset)) := by
  refine ⟨encrypting_cycleInv, rfl, by decide +kernel, rfl, ⟨⟨fun _ => ⟨rfl, rfl⟩, fun h => absurd h (by decide)⟩,
    fun h => absurd h (by decide), fun h => absurd h (by decide), fun h => absurd h (by decide)⟩, rfl, rfl⟩

theorem witness_ErrorPriority : encrypting.busy = true ∧ (0x34 : Byte).toNat ≤ 0x34 ∧ State.reset.busy = false ∧
    (∀ c ∈ commandCodes, (0x17 : Byte) ≠ c) ∧ State.reset.keyValid = false ∧
    k128.nr.toNat < ({ k128 with rksel := 0xFF } : State).rksel.toNat ∧
    State.reset.strength ≠ 128 := by decide +kernel

theorem witness_RejectionIsPrecise : Instr.keyexp.wellFormed = true ∧
    exec .keyexp State.reset = .next (after (exec .keyexp State.reset)) ∧
    (after (exec .keyexp State.reset)).err ≠ State.reset.err := ⟨rfl, rfl, by decide +kernel⟩

theorem witness_ErrorsNeverBlockLaterAccesses : exec .enc k128 = .next encrypting := rfl

/-- The pins of ENC before KEYEXP: NOKEY. -/
theorem witness_ErrorBitsHaveTheirCauses :
    step { State.reset with inputs := [Pins.ofWord 0x13402] } =
      .next (after (step { State.reset with inputs := [Pins.ofWord 0x13402] })) ∧
    (nextPins { State.reset with inputs := [Pins.ofWord 0x13402] }).rst = false ∧
    (after (step { State.reset with inputs := [Pins.ofWord 0x13402] })).err.getLsbD 1 = true :=
  ⟨rfl, rfl, by decide +kernel⟩

theorem witness_KeyValidIsSetAndClearedByRule :
    step { k128 with inputs := [Pins.ofWord 0x132AA] } =
      .next (after (step { k128 with inputs := [Pins.ofWord 0x132AA] })) ∧ k128.keyValid = true ∧
    (after (step { k128 with inputs := [Pins.ofWord 0x132AA] })).keyValid = false := ⟨rfl, rfl, by decide +kernel⟩

/-- The first micro-step of KEYEXP changes the round-key memory, and so does its commit. -/
theorem witness_RoundKeyMemoryWriters : step expanding = .next (after (step expanding)) ∧
    wordAt (after (step expanding)).w 1 ≠ wordAt expanding.w 1 ∧ txStep .commit expanding = some (commit expanding) ∧
    wordAt (commit expanding).w 43 ≠ wordAt expanding.w 43 := ⟨rfl, by decide +kernel, rfl, by decide +kernel⟩

theorem witness_NrIsWrittenAtLaunchOnly :
    step { loaded 4 seqKey with inputs := [Pins.ofWord 0x13401] } =
      .next (after (step { loaded 4 seqKey with inputs := [Pins.ofWord 0x13401] })) ∧
    (after (step { loaded 4 seqKey with inputs := [Pins.ofWord 0x13401] })).nr ≠ (loaded 4 seqKey).nr :=
  ⟨rfl, by decide +kernel⟩

theorem witness_KeyWriteInvalidatesTheRoundKeys : k128.busy = false ∧
    ∀ a ∈ [(0x00 : Byte), 0x1F, 0x30, 0x32], a.toNat < 0x20 ∨ (0x30 ≤ a.toNat ∧ a.toNat ≤ 0x32) := by decide +kernel

theorem witness_StepKeepsTheCycleInvariant : CycleInv expanding ∧ step expanding = .next (after (step expanding)) :=
  ⟨expanding_cycleInv, rfl⟩

theorem witness_TransactionsKeepTheKeyInvariant : TxInv expanding ∧
    txStep .commit expanding = some (commit expanding) := ⟨expanding_txInv, rfl⟩

theorem witness_EncryptDecryptRoundTrip : KeyInv k128 ∧ k128.keyValid = true ∧ TxInv k128 ∧ k128.busy = false :=
  ⟨k128_keyInv, rfl, k128_txInv, rfl⟩

theorem witness_BlockCommandsEqualTheirStages : TxInv k128 ∧ k128.busy = false ∧ k128.keyValid = true :=
  ⟨k128_txInv, rfl, rfl⟩

theorem witness_BootSequenceYieldsAValidKey : State.reset.busy = false ∧
    (List.replicate 32 (0x5A : Byte)).length * 8 = (256 : BitVec 16).toNat := by decide

theorem witness_InstancesAreIndependent : (stepOne 1 [State.reset, encrypting]).isSome = true ∧ (0 : Nat) ≠ 1 ∧
    (stepOne 0 [State.reset, encrypting]).isSome = true := by decide +kernel

theorem witness_SboxIsTheAffineInverse : gmul 0x53 0xCA = 1 ∧ (0xFF : Byte) ≠ 0 := by decide

end Sys2Proof.Tests
end

section
/-! PROOF. What an access and a cycle can do, said once: well-formed instructions, the accesses an idle block accepts
(20_memory.md R60 to R73), the three kinds of cycle (43_sequencer.md R185), and the core's micro-step by command. -/

namespace Sys2Proof.Machine

/-! ## Well-formed instructions -/

theorem command_instr_wellFormed (c : Command) : c.instr.wellFormed = true := by
  rcases c with _ | ⟨_ | _ | _ | _ | _ | _ | _ | _ | _ | _⟩ <;> rfl

theorem wellFormed_wr_cmd {d : Byte} : (Instr.wr cmdAddr d).wellFormed = true ↔ decodeCmd d = none := by
  simp [Instr.wellFormed, isCommandRow, -List.contains_eq_mem, ← decodeCmd_isSome]

theorem decodeWord_wellFormed (w : BitVec 17) : (decodeWord w).wellFormed = true := by
  simp only [decodeWord]
  split
  · by_cases ha : busA w = cmdAddr
    · simp only [decodeWrite, ha, if_true]
      split
      · exact command_instr_wellFormed _
      · exact wellFormed_wr_cmd.2 (by assumption)
    · simp [decodeWrite, Instr.wellFormed, isCommandRow, ha]
  · rfl

/-- Every access is that of a well-formed instruction: a WR that spells a command row has the command's meaning
(20_memory.md R72; log entry 10). -/
theorem exec_eq_wellFormed (i : Instr) (s : State) : ∃ j, j.wellFormed = true ∧ exec j s = exec i s := by
  cases hw : i.wellFormed
  case true => exact ⟨i, hw, rfl⟩
  rcases instr_cases i with ⟨a, rfl⟩ | ⟨a, d, rfl⟩ | ⟨c, rfl⟩
  · cases hw
  · simp only [Instr.wellFormed, isCommandRow, Bool.not_eq_false', Bool.and_eq_true, beq_iff_eq] at hw
    obtain ⟨rfl, hd⟩ := hw
    rw [← decodeCmd_isSome] at hd
    obtain ⟨c, hc⟩ := Option.isSome_iff_exists.1 hd
    refine ⟨c.instr, command_instr_wellFormed c, ?_⟩
    have hs : regWrite cmdAddr d = launchCommand c := by
      funext u
      exact show launchByte d u = _ by simp only [launchByte, hc]
    rw [exec_command, exec, execWr, hs]
  · rw [command_instr_wellFormed] at hw; cases hw

/-! ## What an accepted access does -/

/-- The accesses that clear `key_valid` when accepted (10_state.md R28): KEYEXP, and a write to KEY, STRL, STRH or
KEYLEN. -/
def ClearsKeyValid (i : Instr) : Prop :=
  i = .keyexp ∨ ∃ a d : Byte, i = .wr a d ∧ (a.toNat < 0x20 ∨ a.toNat = 0x30 ∨ a.toNat = 0x31 ∨ a.toNat = 0x32)

theorem clearsKeyValid_wr {a d : Byte} :
    ClearsKeyValid (.wr a d) ↔ a.toNat < 0x20 ∨ a.toNat = 0x30 ∨ a.toNat = 0x31 ∨ a.toNat = 0x32 := by
  simp [ClearsKeyValid]

theorem clearsKeyValid_command {c : Command} : ClearsKeyValid c.instr ↔ c = .launch .keyexp := by
  rcases c with _ | ⟨_ | _ | _ | _ | _ | _ | _ | _ | _ | _⟩ <;> simp [ClearsKeyValid, Command.instr]

/-- What an accepted write does that is no command: it clears `key_valid` and writes the key or the configuration, or it
touches neither. -/
theorem regStore_cases {a d : Byte} (hw : (Instr.wr a d).wellFormed = true) (s : State) :
    (¬ ClearsKeyValid (.wr a d) ∧ ∃ m r e, regStore d s (regAt a) = { s with st := m, rksel := r, err := e }) ∨
    (ClearsKeyValid (.wr a d) ∧
      ∃ k x l, regStore d s (regAt a) = { s with key := k, strength := x, keylen := l, keyValid := false }) := by
  rw [clearsKeyValid_wr]
  have ha := regHas_regAt a
  cases hr : regAt a <;> rw [hr] at ha <;> simp only [regHas, beq_iff_eq, decide_eq_true_eq] at ha
  case key i => exact .inr ⟨by omega, _, _, _, rfl⟩
  case strl | strh | keylen => exact .inr ⟨by omega, _, _, _, rfl⟩
  case cmd =>
    obtain rfl : a = cmdAddr := BitVec.eq_of_toNat_eq ha
    refine .inl ⟨by omega, s.st, s.rksel, errSet s.err .illcmd, ?_⟩
    simp only [regStore, launchByte, wellFormed_wr_cmd.1 hw]
    rfl
  all_goals exact .inl ⟨by omega, _, _, _, rfl⟩

/-- What an access does to an idle block: it leaves the key, the configuration and `key_valid` alone; it clears
`key_valid` and may write the key and the configuration; it launches KEYEXP; or it launches another command, whose checks
hold. -/
theorem exec_idle_cases {i : Instr} {s t : State} (hw : i.wellFormed = true) (hb : s.busy = false)
    (h : exec i s = .next t) :
    (¬ ClearsKeyValid i ∧ ∃ m r e v n, t = { s with st := m, rksel := r, err := e, rdata := v, draws := n }) ∨
    (ClearsKeyValid i ∧
      ∃ k x l e, t = { s with key := k, strength := x, keylen := l, err := e, keyValid := false }) ∨
    (i = .keyexp ∧ configLegal s = true ∧
      t = launch .keyexp { s with nr := BitVec.ofNat 8 (nkOf s.strength + 6), keyValid := false }) ∨
    (¬ ClearsKeyValid i ∧ ∃ o, o ≠ .keyexp ∧ (o = .enc ∨ o = .dec ∨ o = .ark → s.keyValid = true) ∧
      (o = .ark → s.rksel.toNat ≤ s.nr.toNat) ∧ t = launch o s) := by
  rcases instr_cases i with ⟨a, rfl⟩ | ⟨a, d, rfl⟩ | ⟨c, rfl⟩
  · rw [exec_rd_exact (racingRead_idle hb)] at h
    cases h
    exact .inl ⟨by simp [ClearsKeyValid], _, _, _, _, _, rfl⟩
  · rw [exec_wr_idle hb] at h
    cases h
    rcases regStore_cases hw s with ⟨hc, m, r, e, hs⟩ | ⟨hc, k, x, l, hs⟩
    · exact .inl ⟨hc, m, r, e, _, _, hs⟩
    · exact .inr (.inl ⟨hc, k, x, l, _, hs⟩)
  · rw [exec_command_idle hb] at h
    injection h with h
    rw [clearsKeyValid_command]
    subst h
    rcases launchCommand_cases c s with ⟨rfl, hl⟩ | ⟨rfl, -, hl⟩ | ⟨rfl, hc, hl⟩ | ⟨hc, -, hl⟩ | ⟨rfl, -, -, hl⟩ |
      ⟨o, rfl, ho, hv, hr, hl⟩ <;> rw [hl]
    · exact .inl ⟨by simp, _, _, _, _, _, rfl⟩
    · exact .inr (.inl ⟨rfl, _, _, _, _, rfl⟩)
    · exact .inr (.inr (.inl ⟨rfl, hc, rfl⟩))
    · exact .inl ⟨by rcases hc with rfl | rfl | rfl <;> simp, _, _, _, _, _, rfl⟩
    · exact .inl ⟨by simp, _, _, _, _, _, rfl⟩
    · exact .inr (.inr (.inr ⟨by simpa using ho, o, ho, hv, hr, rfl⟩))

/-! ## What a cycle does -/

theorem microEffect_withHostSide (o : Op) (k : Nat) (s : State) (l : List Pins) (e : BitVec 5) (v : Byte) (n : Nat) :
    microEffect o k { s with inputs := l, err := e, rdata := v, draws := n } =
      { microEffect o k s with inputs := l, err := e, rdata := v, draws := n } := by
  cases o
  case keyexp =>
    simp only [microEffect, keyexpMicro]
    split <;> rfl
  all_goals rfl

/-- The core neither reads nor writes the pins, the errors, the output and the draw count (43_sequencer.md R185). -/
theorem microStep_withHostSide (s : State) (l : List Pins) (e : BitVec 5) (v : Byte) (n : Nat) :
    microStep { s with inputs := l, err := e, rdata := v, draws := n } =
      { microStep s with inputs := l, err := e, rdata := v, draws := n } := by
  rcases Option.eq_none_or_eq_some s.curOp with hc | ⟨o, hc⟩
  · simp only [microStep, hc]
  · have hl : latency o { s with inputs := l, err := e, rdata := v, draws := n } = latency o s := by cases o <;> rfl
    rcases microStep_cases hc with ⟨hs, h⟩ | ⟨hs, h⟩ <;>
      rcases microStep_cases (s := { s with inputs := l, err := e, rdata := v, draws := n }) hc with
        ⟨hs', h'⟩ | ⟨hs', h'⟩ <;> rw [hl] at hs'
    · rw [h', h, microEffect_withHostSide]
      cases o <;> rfl
    · exact absurd hs hs'
    · exact absurd hs' hs
    · rw [h', h, microEffect_withHostSide]

/-- A cycle with `rst = 1` leaves the reset state, but for the model's own fields. -/
theorem step_reset {s t : State} (hr : (nextPins s).rst = true) (h : step s = .next t) :
    ∃ l v n, t = { State.reset with inputs := l, rdata := v, draws := n } := by
  rcases step_cases h with ⟨-, rfl⟩ | ⟨hr', -⟩ | ⟨hr', -⟩
  · simp only [resetCycle]
    split <;> exact ⟨_, _, _, rfl⟩
  all_goals rw [hr] at hr'; cases hr'

/-- A cycle with a command in flight is the core's micro-step; the access changes only `err` and the output (20_memory.md
R62; 43_sequencer.md R185). -/
theorem step_busy {s t : State} (hr : (nextPins s).rst = false) (hb : s.busy = true) (h : step s = .next t) :
    ∃ l e v n, t = { microStep s with inputs := l, err := e, rdata := v, draws := n } := by
  rcases step_cases h with ⟨hr', -⟩ | ⟨-, -, u, hu, rfl⟩ | ⟨-, -, rfl⟩
  · rw [hr] at hr'; cases hr'
  · have hu := exec_busy (s := beginCycle s) hb hu
    rw [coreTurn, if_pos hb, hu]
    exact ⟨_, _, _, _, microStep_withHostSide s _ _ _ _⟩
  · rw [coreTurn, if_pos hb]
    exact ⟨_, _, _, _, microStep_withHostSide s _ s.err _ s.draws⟩

/-- A cycle of an idle block is the access on the bus, if there is one (43_sequencer.md R185). -/
theorem step_idle {s t : State} (hr : (nextPins s).rst = false) (hb : s.busy = false) (h : step s = .next t) :
    ((nextPins s).en = false ∧ t = beginCycle s) ∨
    ((nextPins s).en = true ∧ exec (decodeWord (nextPins s).word) (beginCycle s) = .next t) := by
  rcases step_cases h with ⟨hr', -⟩ | ⟨-, he, u, hu, rfl⟩ | ⟨-, he, rfl⟩
  · rw [hr] at hr'; cases hr'
  · exact .inr ⟨he, by simpa [coreTurn, hb] using hu⟩
  · exact .inl ⟨he, by simp [coreTurn, hb]⟩

/-! ## What a micro-step does, by command -/

/-- Every command but KEYEXP writes the state matrix, and ends at the last step of its latency. -/
theorem microStep_matrix_cases {s : State} {o : Op} (hc : s.curOp = some o) (ho : o ≠ .keyexp) :
    (s.seq.toNat + 1 = latency o s ∧ ∃ m, microStep s = finish { s with st := m }) ∨
    (s.seq.toNat + 1 ≠ latency o s ∧ ∃ m, microStep s = { s with st := m, seq := s.seq + 1 }) := by
  obtain ⟨m, hm⟩ := microEffect_matrix ho s.seq.toNat s
  rcases microStep_cases hc with ⟨hl, h⟩ | ⟨hl, h⟩ <;> rw [h, hm]
  · exact .inl ⟨hl, m, by rw [lastEffect_matrix ho]⟩
  · exact .inr ⟨hl, m, rfl⟩

/-- KEYEXP writes the round-key memory, and sets `key_valid` at the last step of its latency. -/
theorem microStep_keyexp_cases {s : State} (hc : s.curOp = some .keyexp) :
    ∃ w, microEffect .keyexp s.seq.toNat s = { s with w := w } ∧
    ((s.seq.toNat + 1 = latency .keyexp s ∧ microStep s = finish { s with w := w, keyValid := true }) ∨
      (s.seq.toNat + 1 ≠ latency .keyexp s ∧ microStep s = { s with w := w, seq := s.seq + 1 })) := by
  obtain ⟨w, hw⟩ := microEffect_keyexp s.seq.toNat s
  refine ⟨w, hw, ?_⟩
  rcases microStep_cases hc with ⟨hl, h⟩ | ⟨hl, h⟩ <;> rw [h, hw]
  · exact .inl ⟨hl, rfl⟩
  · exact .inr ⟨hl, rfl⟩

end Sys2Proof.Machine
end

section
/-! PROOF. The invariants: every step of either level keeps the key invariant of 10_state.md R37 with the rest of CycleInv
and TxInv (obligations O50 and O51). -/

namespace Sys2Proof.Machine

/-! ## The invariants of the two levels (10_state.md R31, R37; 43_sequencer.md R187) -/

theorem scheduleWords_le {s : State} (h : ConfigInv s) : scheduleWords s.nr.toNat ≤ 60 := by
  rcases h.cases with ⟨-, -, hn⟩ | ⟨-, -, hn⟩ | ⟨-, -, hn⟩ <;> rw [hn] <;> decide

theorem nkOf_pos {s : State} (h : ConfigInv s) : 0 < nkOf s.strength := by
  rcases h.cases with ⟨hs, -⟩ | ⟨hs, -⟩ | ⟨hs, -⟩ <;> rw [hs] <;> decide

/-- With a legal configuration every latency is positive and fits the step counter (43_sequencer.md R186). -/
theorem latency_bounds {s : State} (h : ConfigInv s) (o : Op) : 0 < latency o s ∧ latency o s < 64 := by
  rcases h.cases with ⟨hs, -, hn⟩ | ⟨hs, -, hn⟩ | ⟨hs, -, hn⟩ <;> cases o <;> simp [latency, hs, hn, nkOf, scheduleWords]

/-- A command in flight has a legal configuration, or it is one of the six that last one cycle and need no key. -/
theorem FlightInv.config_or_latency {s : State} {o : Op} (hk : KeyInv s) (hf : FlightInv s) (hb : s.busy = true)
    (hc : s.curOp = some o) : ConfigInv s ∨ latency o s = 1 := by
  obtain ⟨hx, hv, -⟩ := hf hb
  cases o
  case keyexp => exact .inl (hx hc).1
  case enc => exact .inl (hk (hv (.inl hc))).1
  case dec => exact .inl (hk (hv (.inr (.inl hc)))).1
  all_goals exact .inr rfl

theorem latency_in_flight {s : State} {o : Op} (hk : KeyInv s) (hf : FlightInv s) (hb : s.busy = true)
    (hc : s.curOp = some o) : 0 < latency o s ∧ latency o s < 64 := by
  rcases hf.config_or_latency hk hb hc with h | h
  · exact latency_bounds h o
  · omega

/-- A command that has taken no micro-step has made the progress it should. -/
theorem TxInv.cycleInv {s : State} (h : TxInv s) : CycleInv s := by
  obtain ⟨hs, hk, hf, hq⟩ := h
  refine ⟨hs, hk, hf, fun hb o hc => ⟨?_, fun _ i hi => ?_⟩⟩
  · rw [hq]; exact (latency_in_flight hk hf hb hc).1
  · rw [hq] at hi; exact absurd hi (by decide)

/-- An idle block is in no command's progress. -/
theorem CycleInv.txInv {s : State} (h : CycleInv s) (hb : s.busy = false) : TxInv s := by
  obtain ⟨hs, hk, hf, -⟩ := h
  exact ⟨hs, hk, hf, (hs.1 hb).2⟩

/-- A state that is idle with the key invariant meets the transaction level's invariant. -/
theorem TxInv.of_idle {s : State} (hb : s.busy = false) (hf : s.fsm = .idle) (hq : s.seq = 0) (hk : KeyInv s) :
    TxInv s := by
  refine ⟨⟨fun _ => ⟨hf, hq⟩, fun h => ?_⟩, hk, fun h => ?_, hq⟩ <;> (rw [hb] at h; cases h)

theorem KeyInv.of_invalid {s : State} (h : s.keyValid = false) : KeyInv s := fun hv =>
  absurd (h.symm.trans hv) (by decide)

theorem TxInv.reset : TxInv State.reset := .of_idle rfl rfl rfl (.of_invalid rfl)

theorem SeqInv.of_busy {s : State} {o : Op} (hb : s.busy = true) (hc : s.curOp = some o) (hf : s.fsm = fsmOf o) :
    SeqInv s := ⟨fun h => absurd (hb.symm.trans h) (by decide), fun _ => ⟨o, hc, hf⟩⟩

/-- The end of a command that leaves the key, the configuration and the round keys keeps the key invariant. -/
theorem KeyInv.finish_matrix {s : State} (h : KeyInv s) (m : Matrix4) : KeyInv (finish { s with st := m }) := fun hv => by
  obtain ⟨hc, hw, -⟩ := h hv
  exact ⟨hc, hw, .inl rfl⟩

/-! ## The transaction level -/

/-- An access of an idle block keeps the invariant. -/
theorem exec_idle_txInv {i : Instr} {s t : State} (h : TxInv s) (hb : s.busy = false) (hx : exec i s = .next t) :
    TxInv t := by
  obtain ⟨hs, hk, -, hq⟩ := h
  obtain ⟨hfsm, -⟩ := hs.1 hb
  obtain ⟨j, hw, hj⟩ := exec_eq_wellFormed i s
  rcases exec_idle_cases hw hb (hj.trans hx) with
    ⟨-, m, r, e, v, n, rfl⟩ | ⟨-, k, x, l, e, rfl⟩ | ⟨-, hc, rfl⟩ | ⟨-, o, ho, hv, hr, rfl⟩
  · exact .of_idle hb hfsm hq hk
  · exact .of_idle hb hfsm hq (.of_invalid rfl)
  · exact ⟨.of_busy rfl rfl rfl, .of_invalid rfl,
      fun _ => ⟨fun _ => ⟨configInv_of_configLegal hc, rfl⟩, by simp, by simp⟩, rfl⟩
  · refine ⟨.of_busy rfl rfl rfl, fun h => ?_, fun _ => ⟨?_, ?_, ?_⟩, rfl⟩
    · obtain ⟨hc, hw, -⟩ := hk h
      exact ⟨hc, hw, .inr (by simpa using ho)⟩
    · simp [ho]
    · simpa using hv
    · simpa using hr

theorem exec_txInv {i : Instr} {s t : State} (h : TxInv s) (hx : exec i s = .next t) : TxInv t := by
  cases hb : s.busy
  · exact exec_idle_txInv h hb hx
  · rw [exec_busy hb hx]; exact h

/-- A KEYEXP commit establishes part (c) of the key invariant (41_key_schedule.md R143). -/
theorem commitEffect_keyexp_scheduleInv {s : State} (h : ConfigInv s) :
    ∃ w, commitEffect .keyexp s = { s with w := w, keyValid := true } ∧ ScheduleInv { s with w := w } := by
  obtain ⟨w, hw, hws⟩ := commitEffect_keyexp s
  refine ⟨w, hw, fun i hi => ?_⟩
  have hi : i < scheduleWords s.nr.toNat := hi
  have hle := scheduleWords_le h
  have hlen : i < (keyExpansion (nkOf s.strength) s.key).length := by rwa [keyExpansion_length, ← h.2.2]
  rw [hws i (by omega), if_pos hi, List.getD_eq_getElem _ _ hlen, List.getD_eq_getElem _ _ hlen]

theorem commit_txInv {s : State} (h : TxInv s) (hb : s.busy = true) : TxInv (commit s) := by
  obtain ⟨hs, hk, hf, -⟩ := h
  obtain ⟨o, hc, -⟩ := hs.2 hb
  simp only [commit, hc]
  refine .of_idle rfl rfl rfl ?_
  by_cases ho : o = .keyexp
  · subst ho
    have hcfg := ((hf hb).1 hc).1
    obtain ⟨w, hw, hws⟩ := commitEffect_keyexp_scheduleInv hcfg
    rw [hw]
    exact fun _ => ⟨hcfg, hws, .inl rfl⟩
  · obtain ⟨m, hm⟩ := commitEffect_matrix ho s
    rw [hm]
    exact hk.finish_matrix m

theorem txStep_txInv {e : TxEvent} {s t : State} (h : TxInv s) (hx : txStep e s = some t) : TxInv t := by
  cases e with
  | access i =>
    obtain ⟨u, hu⟩ := exec_next i { s with rdata := 0x00 }
    rw [txStep_access hu] at hx
    cases hx
    exact exec_txInv (s := { s with rdata := 0x00 }) h hu
  | commit =>
    cases hb : s.busy <;> simp only [txStep, hb] at hx <;> cases hx
    exact commit_txInv h hb
  | reset => cases hx; exact TxInv.reset

theorem txRun_txInv {es : List TxEvent} {s t : State} (h : TxInv s) (hx : txRun es s = some t) : TxInv t := by
  induction es generalizing s with
  | nil => cases hx; exact h
  | cons e es ih =>
    simp only [txRun] at hx
    split at hx
    next u hu => exact ih (txStep_txInv h hu) hx
    next => cases hx

/-! ## The cycle level -/

/-- The first `m` words of the round-key memory are those of the key's expansion. -/
def ScheduleUpTo (m : Nat) (s : State) : Prop :=
  ∀ i < m, wordAt s.w i = (keyExpansion (nkOf s.strength) s.key).getD i .zero

/-- Micro-step `n` of KEYEXP completes the words up to `nk + n` (43_sequencer.md R187). -/
theorem microEffect_keyexp_scheduleUpTo {s : State} {n : Nat} (h : ConfigInv s) (hn : n < latency .keyexp s)
    (hw : 0 < n → ScheduleUpTo (nkOf s.strength + n - 1) s) :
    ScheduleUpTo (nkOf s.strength + n) (microEffect .keyexp n s) := by
  intro i hi
  have hle := scheduleWords_le h
  have hpos := nkOf_pos h
  have hn' : nkOf s.strength + n ≤ scheduleWords s.nr.toNat := by simp only [latency] at hn; omega
  simp only [microEffect_strength, microEffect_key]
  simp only [microEffect, keyexpMicro]
  by_cases hn0 : n = 0
  · have hik : i < nkOf s.strength := by omega
    rw [if_pos hn0, keyExpansion_key hik, wordAt_loadKeyWords (by omega), if_pos hik]
  · have hw := hw (by omega)
    simp only [if_neg hn0, wordAt_setIfInBounds (show i < 60 by omega)]
    by_cases hi' : i = nkOf s.strength + n - 1
    · rw [if_pos hi', ← hi', hw (i - nkOf s.strength) (by omega), hw (i - 1) (by omega)]
      exact (keyExpansion_rec hpos (by omega) (by rw [← h.2.2]; omega)).symm
    · rw [if_neg hi']; exact hw i (by omega)

/-- The step counter does not wrap below the latency. -/
theorem seq_succ_toNat {q : BitVec 6} (h : q.toNat + 1 < 64) : (q + 1).toNat = q.toNat + 1 := by
  rw [BitVec.toNat_add]; exact Nat.mod_eq_of_lt h

theorem microStep_matrix_cycleInv {s : State} {o : Op} (h : CycleInv s) (hb : s.busy = true) (hc : s.curOp = some o)
    (ho : o ≠ .keyexp) : CycleInv (microStep s) := by
  obtain ⟨hs, hk, hf, hp⟩ := h
  rcases microStep_matrix_cases hc ho with ⟨-, m, hm⟩ | ⟨hl, m, hm⟩ <;> rw [hm]
  · exact (TxInv.of_idle rfl rfl rfl (hk.finish_matrix m)).cycleInv
  · refine ⟨⟨fun h => absurd (hb.symm.trans h) (by decide), hs.2⟩, hk, hf, fun _ o' hc' => ?_⟩
    obtain rfl : o = o' := Option.some.inj (hc.symm.trans hc')
    have hlt := (hp hb o hc).1
    have hmax := (latency_in_flight hk hf hb hc).2
    refine ⟨?_, fun h => absurd h ho⟩
    have hll : latency o { s with st := m, seq := s.seq + 1 } = latency o s := by cases o <;> rfl
    rw [hll, seq_succ_toNat (by omega)]
    omega

theorem microStep_keyexp_cycleInv {s : State} (h : CycleInv s) (hb : s.busy = true) (hc : s.curOp = some .keyexp) :
    CycleInv (microStep s) := by
  obtain ⟨hs, hk, hf, hp⟩ := h
  obtain ⟨hcfg, hv⟩ := (hf hb).1 hc
  obtain ⟨hlt, hw⟩ := hp hb _ hc
  have hmax := (latency_bounds hcfg .keyexp).2
  have hup := microEffect_keyexp_scheduleUpTo hcfg hlt fun h0 i hi => hw rfl i h0 hi
  obtain ⟨w, hm, ⟨hl, hms⟩ | ⟨hl, hms⟩⟩ := microStep_keyexp_cases hc <;> rw [hms] <;> rw [hm] at hup
  · have hfull : scheduleWords s.nr.toNat = nkOf s.strength + s.seq.toNat := by simp only [latency] at hl; omega
    have hsched : ScheduleInv { s with w := w } := fun i hi => hup i (hfull ▸ hi)
    have hkey : KeyInv (finish { s with w := w, keyValid := true }) := fun _ => ⟨hcfg, hsched, .inl rfl⟩
    exact (TxInv.of_idle rfl rfl rfl hkey).cycleInv
  · refine ⟨⟨fun h => absurd (hb.symm.trans h) (by decide), hs.2⟩, .of_invalid hv, hf, fun _ o hc' => ?_⟩
    obtain rfl : .keyexp = o := Option.some.inj (hc.symm.trans hc')
    rw [show latency .keyexp { s with w := w, seq := s.seq + 1 } = latency .keyexp s from rfl,
      seq_succ_toNat (by omega)]
    exact ⟨by omega, fun _ i _ hi => hup i hi⟩

theorem microStep_cycleInv {s : State} (h : CycleInv s) (hb : s.busy = true) : CycleInv (microStep s) := by
  obtain ⟨o, hc, -⟩ := h.1.2 hb
  by_cases ho : o = .keyexp
  · subst ho; exact microStep_keyexp_cycleInv h hb hc
  · exact microStep_matrix_cycleInv h hb hc ho

theorem step_cycleInv {s t : State} (h : CycleInv s) (hx : step s = .next t) : CycleInv t := by
  cases hr : (nextPins s).rst
  · cases hb : s.busy
    · rcases step_idle hr hb hx with ⟨-, rfl⟩ | ⟨-, hu⟩
      · exact h
      · exact (exec_idle_txInv (s := beginCycle s) (h.txInv hb) hb hu).cycleInv
    · obtain ⟨l, e, v, n, rfl⟩ := step_busy hr hb hx
      exact microStep_cycleInv h hb
  · obtain ⟨l, v, n, rfl⟩ := step_reset hr hx
    exact TxInv.reset.cycleInv

end Sys2Proof.Machine
end

section
open Sys2Proof Sys2Proof.Machine

/-- Settles O50: by the block's three cycles, reset, idle and busy; the busy one by the command's progress. -/
theorem stepKeepsTheCycleInvariant : Obligations.StepKeepsTheCycleInvariant := fun _ _ => step_cycleInv

/-- Settles O51: the invariant step by step, then along the schedule; its four parts are those of the key invariant. -/
theorem transactionsKeepTheKeyInvariant : Obligations.TransactionsKeepTheKeyInvariant := by
  refine ⟨fun _ _ _ => txStep_txInv, fun es t hx hv => ?_⟩
  obtain ⟨-, hk, -, -⟩ := txRun_txInv TxInv.reset hx
  obtain ⟨⟨hs, hl, hn⟩, hw, ho⟩ := hk hv
  refine ⟨legalStrength_cases hs, hl, hn, fun i hi => ?_, ho⟩
  have hlen : i < (keyExpansion (nkOf t.strength) t.key).length := by rw [keyExpansion_length, ← hn]; exact hi
  rw [hw i hi, List.getD_eq_getElem _ _ hlen]
  exact (List.getElem?_eq_getElem hlen).symm

end

section
/-! PROOF. Who writes which element of the state (10_state.md R21 to R38): the commit, the key and configuration in
flight, `key_valid`, the round-key memory, `nr`, and the reset state (obligations O35, O37, O46, O47, O48 and O8). -/

namespace Sys2Proof.Machine

/-! ## What an access and a micro-step leave alone -/

/-- No access writes the round-key memory (10_state.md R26). -/
theorem exec_w {i : Instr} {s t : State} (hx : exec i s = .next t) : t.w = s.w := by
  cases hb : s.busy
  · obtain ⟨j, hw, hj⟩ := exec_eq_wellFormed i s
    rcases exec_idle_cases hw hb (hj.trans hx) with
      ⟨-, m, r, e, v, n, rfl⟩ | ⟨-, k, x, l, e, rfl⟩ | ⟨-, -, rfl⟩ | ⟨-, o, -, -, -, rfl⟩ <;> rfl
  · rw [exec_busy hb hx]

/-- An accepted access clears `key_valid`, or leaves it (10_state.md R28). -/
theorem exec_idle_keyValid {i : Instr} {s t : State} (hw : i.wellFormed = true) (hb : s.busy = false)
    (hx : exec i s = .next t) :
    (ClearsKeyValid i ∧ t.keyValid = false) ∨ (¬ ClearsKeyValid i ∧ t.keyValid = s.keyValid) := by
  rcases exec_idle_cases hw hb hx with
    ⟨hc, m, r, e, v, n, rfl⟩ | ⟨hc, k, x, l, e, rfl⟩ | ⟨hi, -, rfl⟩ | ⟨hc, o, -, -, -, rfl⟩
  · exact .inr ⟨hc, rfl⟩
  · exact .inl ⟨hc, rfl⟩
  · exact .inl ⟨.inl hi, rfl⟩
  · exact .inr ⟨hc, rfl⟩

/-- An accepted access leaves `nr`, or is the launch of KEYEXP (10_state.md R27). -/
theorem exec_idle_nr {i : Instr} {s t : State} (hw : i.wellFormed = true) (hb : s.busy = false)
    (hx : exec i s = .next t) :
    t.nr = s.nr ∨ (i = .keyexp ∧ configLegal s = true ∧ t.nr = BitVec.ofNat 8 (nkOf s.strength + 6)) := by
  rcases exec_idle_cases hw hb hx with
    ⟨-, m, r, e, v, n, rfl⟩ | ⟨-, k, x, l, e, rfl⟩ | ⟨hi, hc, rfl⟩ | ⟨-, o, -, -, -, rfl⟩
  · exact .inl rfl
  · exact .inl rfl
  · exact .inr ⟨hi, hc, rfl⟩
  · exact .inl rfl

/-- The core's turn leaves the round-key memory and `key_valid` unless KEYEXP is in flight. -/
theorem microStep_w_keyValid {s : State} (h : s.curOp ≠ some .keyexp) :
    (microStep s).w = s.w ∧ (microStep s).keyValid = s.keyValid := by
  rcases Option.eq_none_or_eq_some s.curOp with hc | ⟨o, hc⟩
  · simp only [microStep, hc, and_self]
  · have ho : o ≠ .keyexp := fun ho => h (ho ▸ hc)
    rcases microStep_matrix_cases hc ho with ⟨-, m, hm⟩ | ⟨-, m, hm⟩ <;> rw [hm] <;> exact ⟨rfl, rfl⟩

/-- The core's turn changes `key_valid` only where it ends a KEYEXP, and then to 1 (10_state.md R28). -/
theorem microStep_keyValid (s : State) : (microStep s).keyValid = s.keyValid ∨
    (s.curOp = some .keyexp ∧ (microStep s).busy = false ∧ (microStep s).keyValid = true) := by
  by_cases hc : s.curOp = some .keyexp
  · obtain ⟨w, -, ⟨-, hm⟩ | ⟨-, hm⟩⟩ := microStep_keyexp_cases hc <;> rw [hm]
    · exact .inr ⟨hc, rfl, rfl⟩
    · exact .inl rfl
  · exact .inl (microStep_w_keyValid hc).2

theorem configInv_nrInv {s : State} (h : ConfigInv s) : NrInv s := by
  rcases h.cases with ⟨-, -, hn⟩ | ⟨-, -, hn⟩ | ⟨-, -, hn⟩ <;> simp [NrInv, hn]

/-- A commit ends the command and writes the matrix, or for KEYEXP the round-key memory and `key_valid` (10_state.md
R36). -/
theorem commit_eq (s : State) : ∃ m w v,
    commit s = { s with st := m, w := w, keyValid := v, busy := false, fsm := .idle, seq := 0 } ∧
    (s.curOp = some .keyexp → m = s.st ∧ v = true) ∧ (s.curOp ≠ some .keyexp → w = s.w ∧ v = s.keyValid) := by
  rcases Option.eq_none_or_eq_some s.curOp with hc | ⟨o, hc⟩
  · exact ⟨s.st, s.w, s.keyValid, by simp only [commit, hc, finish], by simp [hc], fun _ => ⟨rfl, rfl⟩⟩
  by_cases ho : o = .keyexp
  · subst ho
    obtain ⟨w, hw, -⟩ := commitEffect_keyexp s
    exact ⟨s.st, w, true, by simp only [commit, hc, hw, finish], fun _ => ⟨rfl, rfl⟩, fun h => absurd hc h⟩
  · obtain ⟨m, hm⟩ := commitEffect_matrix ho s
    exact ⟨m, s.w, s.keyValid, by simp only [commit, hc, hm, finish], by simp [hc, ho], fun _ => ⟨rfl, rfl⟩⟩

end Sys2Proof.Machine
end

section
open Sys2Proof Sys2Proof.Machine

/-- Settles O35, from what a commit writes. -/
theorem commitFrame : Obligations.CommitFrame := by
  refine fun s => ⟨fun hb => by simp [txStep, hb], fun hb => ?_⟩
  obtain ⟨m, w, v, h, hk, ho⟩ := commit_eq s
  exact ⟨m, w, v, by simp [txStep, hb, h], hk, ho⟩

/-- Settles O37: a busy cycle is a micro-step, which writes none of these. -/
theorem keyConfigNrAndLatchAreStableInFlight : Obligations.KeyConfigNrAndLatchAreStableInFlight := by
  intro s t hb hr hx
  obtain ⟨l, e, x, n, rfl⟩ := step_busy hr hb hx
  obtain ⟨m, w, v, b, f, q, h⟩ := microStep_eq s
  rw [h]
  exact ⟨rfl, rfl, rfl, rfl, rfl, rfl, rfl⟩

/-- Settles O46: an accepted access only clears `key_valid`, a busy cycle only sets it. -/
theorem keyValidIsSetAndClearedByRule : Obligations.KeyValidIsSetAndClearedByRule := by
  intro s t clears hx hclears
  replace hclears : clears ↔ (nextPins s).rst = true ∨
    ((nextPins s).en = true ∧ s.busy = false ∧ ClearsKeyValid (decodeWord (nextPins s).word)) := hclears
  rw [hclears]
  cases hr : (nextPins s).rst
  · cases hb : s.busy
    · rcases step_idle hr hb hx with ⟨he, rfl⟩ | ⟨he, hu⟩
      · simp [he]
      · rcases exec_idle_keyValid (s := beginCycle s) (decodeWord_wellFormed _) hb hu with ⟨hc, hv⟩ | ⟨hc, hv⟩
        · simp [he, hc, hv]
        · simp [hc, hv]
    · obtain ⟨l, e, x, n, rfl⟩ := step_busy hr hb hx
      rcases microStep_keyValid s with hv | ⟨hc, hb', hv⟩
      · simp +contextual [hv]
      · simp [hc, hb', hv]
  · obtain ⟨l, v, n, rfl⟩ := step_reset hr hx
    simp [State.reset]

/-- Settles O47: no access writes the round keys, and the core does only for KEYEXP. -/
theorem roundKeyMemoryWriters : Obligations.RoundKeyMemoryWriters := by
  refine ⟨fun s t hx hne => ?_, fun e s t hx hne => ?_⟩
  · cases hr : (nextPins s).rst
    · cases hb : s.busy
      · rcases step_idle hr hb hx with ⟨-, rfl⟩ | ⟨-, hu⟩
        · exact absurd rfl hne
        · exact absurd (exec_w hu) hne
      · obtain ⟨l, e, v, n, rfl⟩ := step_busy hr hb hx
        exact .inr ⟨rfl, Classical.not_not.1 fun hc => hne (microStep_w_keyValid hc).1⟩
    · exact .inl rfl
  · cases e with
    | access i =>
      obtain ⟨u, hu⟩ := exec_next i { s with rdata := 0x00 }
      rw [txStep_access hu] at hx
      cases hx
      exact absurd (exec_w hu) hne
    | commit =>
      cases hb : s.busy <;> simp only [txStep, hb] at hx <;> cases hx
      obtain ⟨m, w, v, h, -, ho⟩ := commit_eq s
      rw [h] at hne
      exact .inr ⟨rfl, rfl, Classical.not_not.1 fun hc => hne (ho hc).1⟩
    | reset => exact .inl rfl

/-- Settles O48: of all that a cycle can do only reset and the launch of KEYEXP write `nr`. -/
theorem nrIsWrittenAtLaunchOnly : Obligations.NrIsWrittenAtLaunchOnly := by
  intro s t hx
  have keeps (h : t.nr = s.nr) : NrInv s → NrInv t := by simp only [NrInv, h, imp_self]
  cases hr : (nextPins s).rst
  · cases hb : s.busy
    · rcases step_idle hr hb hx with ⟨he, rfl⟩ | ⟨he, hu⟩
      · exact ⟨keeps rfl, fun h => absurd rfl h⟩
      · rcases exec_idle_nr (s := beginCycle s) (decodeWord_wellFormed _) hb hu with hn | ⟨hi, hc, hn⟩
        · exact ⟨keeps hn, fun h => absurd hn h⟩
        · refine ⟨fun _ => ?_, fun _ => .inr ⟨he, rfl, hi, hc⟩⟩
          have := configInv_nrInv (configInv_of_configLegal hc)
          simpa [NrInv, hn] using this
    · obtain ⟨l, e, x, n, rfl⟩ := step_busy hr hb hx
      obtain ⟨m, w, v, b, f, q, h⟩ := microStep_eq s
      have hn : (microStep s).nr = s.nr := by rw [h]
      exact ⟨keeps hn, fun h => absurd hn h⟩
  · obtain ⟨l, v, n, rfl⟩ := step_reset hr hx
    exact ⟨fun _ => .inl rfl, fun _ => .inl rfl⟩

/-- Settles O8: the reset values read off, and the invariants of an idle block without a valid key. -/
theorem resetStateIsGood : Obligations.ResetStateIsGood := by
  refine ⟨⟨?key, ?st, rfl, rfl, rfl, ?w, rfl, rfl, rfl, rfl, rfl, rfl, rfl, rfl⟩, TxInv.reset.cycleInv, TxInv.reset,
    .inl rfl⟩
  case key | st | w => decide

end

section
/-! PROOF. The error bits and their causes (10_state.md R29, obligation O45). -/

namespace Sys2Proof.Machine

/-! ## The errors an access raises (10_state.md R29; 60_exceptions.md R201 to R208) -/

/-- The cause of each error (the table of 10_state.md R29). -/
def ErrCause (i : Instr) (s : State) : ErrCode → Prop
  | .cfg => s.busy = false ∧ i = .keyexp ∧ configLegal s = false
  | .nokey => s.busy = false ∧ s.keyValid = false ∧ (i = .enc ∨ i = .dec ∨ i = .ark)
  | .illcmd => s.busy = false ∧ ∃ d : Byte, i = .wr cmdAddr d ∧ ∀ c : Command, d ≠ c.code
  | .busyacc => s.busy = true ∧ ((∃ a d : Byte, i = .wr a d ∧ a.toNat ≤ 0x34) ∨ ∃ c : Command, i = c.instr)
  | .rkrange => s.busy = false ∧ s.keyValid = true ∧ i = .ark ∧ s.nr.toNat < s.rksel.toNat

theorem command_instr_ne_rd (c : Command) (a : Byte) : c.instr ≠ .rd a := by
  rcases c with _ | ⟨_ | _ | _ | _ | _ | _ | _ | _ | _ | _⟩ <;> simp [Command.instr]

theorem command_instr_ne_wr (c : Command) (a d : Byte) : c.instr ≠ .wr a d := by
  rcases c with _ | ⟨_ | _ | _ | _ | _ | _ | _ | _ | _ | _⟩ <;> simp [Command.instr]

/-- The code in a command's bus word names the command (30_encoding.md R94, R95). -/
theorem decodeCmd_busD_encode (c : Command) : decodeCmd (busD (encode c.instr)) = some c := by
  rcases c with _ | ⟨_ | _ | _ | _ | _ | _ | _ | _ | _ | _⟩ <;> rfl

theorem command_instr_inj {c c' : Command} (h : c.instr = c'.instr) : c = c' :=
  Option.some.inj (by rw [← decodeCmd_busD_encode c, h, decodeCmd_busD_encode])

/-- No access has two causes (60_exceptions.md R208). -/
theorem ErrCause.unique {i : Instr} {s : State} {e e' : ErrCode} (h : ErrCause i s e) (h' : ErrCause i s e') :
    e = e' := by
  cases e
  case cfg =>
    obtain ⟨hb, rfl, -⟩ := h
    cases e' <;> simp [ErrCause, hb] at h' ⊢
  case nokey =>
    obtain ⟨hb, hk, rfl | rfl | rfl⟩ := h <;> cases e' <;> simp [ErrCause, hb, hk] at h' ⊢
  case illcmd =>
    obtain ⟨hb, d, rfl, -⟩ := h
    cases e' <;> simp [ErrCause, hb] at h' ⊢
  case busyacc =>
    obtain ⟨hb, -⟩ := h
    cases e' <;> simp [ErrCause, hb] at h' ⊢
  case rkrange =>
    obtain ⟨hb, hk, rfl, -⟩ := h
    cases e' <;> simp [ErrCause, hb, hk] at h' ⊢

/-- A write that is not to CMD, and no BUSYACC, has no cause. -/
theorem not_errCause_wr {a d : Byte} {s : State} (ha : a.toNat ≠ 0x34) (hb : s.busy = false ∨ 0x34 < a.toNat)
    (e : ErrCode) : ¬ ErrCause (.wr a d) s e := by
  cases e
  case illcmd =>
    rintro ⟨-, d', h, -⟩
    cases h
    exact ha rfl
  case busyacc =>
    rintro ⟨hb', ⟨a', d', h, ha'⟩ | ⟨c, h⟩⟩
    · cases h
      rcases hb with hb | hb
      · exact absurd (hb.symm.trans hb') (by decide)
      · omega
    · exact command_instr_ne_wr c a d h.symm
  all_goals simp [ErrCause]

theorem not_errCause_rd {a : Byte} {s : State} (e : ErrCode) : ¬ ErrCause (.rd a) s e := by
  cases e
  case busyacc =>
    rintro ⟨-, ⟨_, _, h, -⟩ | ⟨c, h⟩⟩
    · cases h
    · exact command_instr_ne_rd c a h.symm
  all_goals simp [ErrCause]

/-- An accepted command whose checks hold has no cause. -/
theorem not_errCause_command {c : Command} {s : State} (hb : s.busy = false)
    (hx : c = .launch .keyexp → configLegal s = true)
    (hv : c = .launch .enc ∨ c = .launch .dec ∨ c = .launch .ark → s.keyValid = true)
    (hr : c = .launch .ark → s.rksel.toNat ≤ s.nr.toNat) (e : ErrCode) : ¬ ErrCause c.instr s e := by
  cases e
  case illcmd =>
    rintro ⟨-, d, h, -⟩
    exact command_instr_ne_wr c _ d h
  case busyacc => simp [ErrCause, hb]
  case cfg =>
    rintro ⟨-, h, hf⟩
    have ht := hx (command_instr_inj h)
    exact absurd (ht.symm.trans hf) (by decide)
  case nokey =>
    rintro ⟨-, hf, h⟩
    have ht := hv (h.imp (command_instr_inj ·) (.imp (command_instr_inj ·) (command_instr_inj ·)))
    exact absurd (ht.symm.trans hf) (by decide)
  case rkrange =>
    rintro ⟨-, -, h, hlt⟩
    have hle := hr (command_instr_inj h)
    omega

/-- What an access may leave in `err`: a write to ERR clears bits; an access with a cause sets that cause's bit; any other
leaves `err` (10_state.md R29). -/
def ErrOutcome (i : Instr) (s : State) (x : BitVec 5) : Prop :=
  (∃ d, i = .wr 0x36 d ∧ x = errCleared s.err d) ∨
  ((∀ d, i ≠ .wr 0x36 d) ∧ ∃ e, ErrCause i s e ∧ x = errSet s.err e) ∨
  ((∀ d, i ≠ .wr 0x36 d) ∧ (∀ e, ¬ ErrCause i s e) ∧ x = s.err)

/-- A write that no BUSYACC drops touches `err` only at ERR and, with an illegal byte, at CMD. -/
theorem regStore_errOutcome {a d : Byte} {s : State} (hw : (Instr.wr a d).wellFormed = true)
    (hb : s.busy = false ∨ 0x34 < a.toNat) : ErrOutcome (.wr a d) s (regStore d s (regAt a)).err := by
  have ha := regHas_regAt a
  cases hr : regAt a <;> rw [hr] at ha <;> simp only [regHas, beq_iff_eq, decide_eq_true_eq] at ha
  case err =>
    obtain rfl : a = 0x36 := BitVec.eq_of_toNat_eq ha
    exact .inl ⟨d, rfl, rfl⟩
  case cmd =>
    obtain rfl : a = cmdAddr := BitVec.eq_of_toNat_eq ha
    have hd := wellFormed_wr_cmd.1 hw
    have hcode (c : Command) : d ≠ c.code := fun hc => by rw [(decodeCmd_eq_some d c).2 hc] at hd; cases hd
    refine .inr (.inl ⟨by simp [cmdAddr], .illcmd, ⟨by simpa [cmdAddr] using hb, d, rfl, hcode⟩, ?_⟩)
    simp only [regStore, launchByte, hd]
    rfl
  all_goals
    have hne : a.toNat ≠ 0x36 := by omega
    refine .inr (.inr ⟨?_, not_errCause_wr (by omega) hb, rfl⟩)
    rintro d' h
    cases h
    exact hne rfl

theorem launchCommand_errOutcome {c : Command} {s : State} (hb : s.busy = false) :
    ErrOutcome c.instr s (launchCommand c s).err := by
  have hi (d : Byte) : c.instr ≠ .wr 0x36 d := command_instr_ne_wr c _ d
  rcases launchCommand_cases c s with ⟨rfl, h⟩ | ⟨rfl, hc, h⟩ | ⟨rfl, hc, h⟩ | ⟨hc, hv, h⟩ | ⟨rfl, hv, hr, h⟩ |
    ⟨o, rfl, ho, hv, hr, h⟩ <;> rw [h]
  · exact .inr (.inr ⟨hi, not_errCause_command hb (by simp) (by simp) (by simp), rfl⟩)
  · exact .inr (.inl ⟨hi, .cfg, ⟨hb, rfl, hc⟩, rfl⟩)
  · exact .inr (.inr ⟨hi, not_errCause_command hb (fun _ => hc) (by simp) (by simp), rfl⟩)
  · exact .inr (.inl ⟨hi, .nokey, ⟨hb, hv, by rcases hc with rfl | rfl | rfl <;> simp [Command.instr]⟩, rfl⟩)
  · exact .inr (.inl ⟨hi, .rkrange, ⟨hb, hv, rfl, hr⟩, rfl⟩)
  · exact .inr (.inr ⟨hi, not_errCause_command hb (by simp [ho]) (by simpa using hv) (by simpa using hr), rfl⟩)

theorem exec_errOutcome {i : Instr} {s t : State} (hw : i.wellFormed = true) (hx : exec i s = .next t) :
    ErrOutcome i s t.err := by
  rcases instr_cases i with ⟨a, rfl⟩ | ⟨a, d, rfl⟩ | ⟨c, rfl⟩
  · refine .inr (.inr ⟨by simp, not_errCause_rd, ?_⟩)
    simp only [exec, execRd] at hx
    split at hx <;> (cases hx; rfl)
  · cases hx
    rcases hostWrite_cases a (regWrite a d) s with ⟨hb, ha, h⟩ | ⟨hb, h⟩ <;> rw [h]
    · refine .inr (.inl ⟨?_, .busyacc, ⟨hb, .inl ⟨a, d, rfl, ha⟩⟩, rfl⟩)
      rintro d' h
      cases h
      exact absurd ha (by decide)
    · exact regStore_errOutcome hw hb
  · cases hb : s.busy
    · rw [exec_command_idle hb] at hx
      injection hx with hx
      exact hx ▸ launchCommand_errOutcome hb
    · rw [exec_command_busy hb] at hx
      cases hx
      exact .inr (.inl ⟨command_instr_ne_wr c _, .busyacc, ⟨hb, .inr ⟨c, rfl⟩⟩, rfl⟩)

/-- The core never writes `err` (43_sequencer.md R185). -/
theorem coreTurn_err (b : Bool) (s : State) : (coreTurn b s).err = s.err := by
  obtain ⟨_, _, _, _, _, _, h⟩ := microStep_eq s
  cases b
  · rfl
  · rw [coreTurn, if_pos rfl, h]

/-- A cycle without reset leaves `err` as its access does. -/
theorem step_err {s t : State} (hr : (nextPins s).rst = false) (hx : step s = .next t) :
    ((nextPins s).en = false ∧ t.err = s.err) ∨
    ((nextPins s).en = true ∧ ∃ u, exec (decodeWord (nextPins s).word) (beginCycle s) = .next u ∧ t.err = u.err) := by
  rcases step_cases hx with ⟨hr', -⟩ | ⟨-, he, u, hu, rfl⟩ | ⟨-, he, rfl⟩
  · rw [hr] at hr'; cases hr'
  · exact .inr ⟨he, u, hu, coreTurn_err _ u⟩
  · exact .inl ⟨he, coreTurn_err _ _⟩

/-! ## The bits of `err` (60_exceptions.md R202) -/

theorem errSet_getLsbD (x : BitVec 5) (e : ErrCode) {k : Nat} (hk : k < 5) :
    (errSet x e).getLsbD k = (x.getLsbD k || decide (k = e.code)) := by
  have : e.mask.getLsbD k = decide (k = e.code) := by cases e <;> interval_cases k <;> rfl
  rw [errSet, BitVec.getLsbD_or, this]

theorem errCleared_getLsbD (x : BitVec 5) (d : Byte) {k : Nat} (hk : k < 5) :
    (errCleared x d).getLsbD k = (x.getLsbD k && !d.getLsbD k) := by
  simp [errCleared, hk]

theorem configLegal_eq_false {s : State} : configLegal s = false ↔
    (s.strength ≠ 128 ∧ s.strength ≠ 192 ∧ s.strength ≠ 256) ∨ s.keylen.toNat * 8 ≠ s.strength.toNat := by
  simp [configLegal, legalStrength, and_assoc, imp_iff_not_or]

/-- A bit's cause, written out as the table of 10_state.md R29. -/
theorem exists_errCause_iff {i : Instr} {s : State} {k : Nat} : (∃ e : ErrCode, k = e.code ∧ ErrCause i s e) ↔
    ((k = 0 ∧ s.busy = false ∧ i = .keyexp ∧
        ((s.strength ≠ 128 ∧ s.strength ≠ 192 ∧ s.strength ≠ 256) ∨ s.keylen.toNat * 8 ≠ s.strength.toNat)) ∨
      (k = 1 ∧ s.busy = false ∧ s.keyValid = false ∧ (i = .enc ∨ i = .dec ∨ i = .ark)) ∨
      (k = 2 ∧ s.busy = false ∧ ∃ d : Byte, i = .wr 0x34 d ∧ ∀ c : Command, d ≠ c.code) ∨
      (k = 3 ∧ s.busy = true ∧ ((∃ a d : Byte, i = .wr a d ∧ a.toNat ≤ 0x34) ∨ ∃ c : Command, i = c.instr)) ∨
      (k = 4 ∧ s.busy = false ∧ s.keyValid = true ∧ i = .ark ∧ s.nr.toNat < s.rksel.toNat)) := by
  rw [← configLegal_eq_false]
  constructor
  · rintro ⟨_ | _ | _ | _ | _, hk, h⟩
    · exact .inl ⟨hk, h⟩
    · exact .inr (.inl ⟨hk, h⟩)
    · exact .inr (.inr (.inl ⟨hk, h⟩))
    · exact .inr (.inr (.inr (.inl ⟨hk, h⟩)))
    · exact .inr (.inr (.inr (.inr ⟨hk, h⟩)))
  · rintro (⟨hk, h⟩ | ⟨hk, h⟩ | ⟨hk, h⟩ | ⟨hk, h⟩ | ⟨hk, h⟩)
    · exact ⟨.cfg, hk, h⟩
    · exact ⟨.nokey, hk, h⟩
    · exact ⟨.illcmd, hk, h⟩
    · exact ⟨.busyacc, hk, h⟩
    · exact ⟨.rkrange, hk, h⟩

/-- Over an access, a set bit is cleared exactly by a write of 1 to it at ERR, and a clear one set exactly by its cause
(10_state.md R29). -/
theorem exec_err_bit {i : Instr} {s t : State} (hw : i.wellFormed = true) (hx : exec i s = .next t) {k : Nat}
    (hk : k < 5) :
    (s.err.getLsbD k = true → (t.err.getLsbD k = false ↔ ∃ d : Byte, i = .wr 0x36 d ∧ d.getLsbD k = true)) ∧
    (s.err.getLsbD k = false → (t.err.getLsbD k = true ↔ ∃ e : ErrCode, k = e.code ∧ ErrCause i s e)) := by
  rcases exec_errOutcome hw hx with ⟨d, rfl, h⟩ | ⟨hi, e, hc, h⟩ | ⟨hi, hc, h⟩ <;> rw [h]
  · rw [errCleared_getLsbD _ _ hk]
    exact ⟨fun hs => by simp [hs], fun hs => by simp [hs, not_errCause_wr]⟩
  · rw [errSet_getLsbD _ _ hk]
    refine ⟨fun hs => ⟨fun h => by simp [hs] at h, fun ⟨d, h, _⟩ => absurd h (hi d)⟩, fun hs => ?_⟩
    simp only [hs, Bool.false_or, decide_eq_true_eq]
    exact ⟨fun h => ⟨e, h, hc⟩, fun ⟨e', h, hc'⟩ => by rw [hc.unique hc']; exact h⟩
  · exact ⟨fun hs => ⟨fun h => by simp [hs] at h, fun ⟨d, h, _⟩ => absurd h (hi d)⟩, fun hs => by simp [hs, hc]⟩

end Sys2Proof.Machine
end

section
open Sys2Proof Sys2Proof.Machine

/-- Settles O45: the core leaves `err`, and the access moves each bit by its cause. -/
theorem errorBitsHaveTheirCauses : Obligations.ErrorBitsHaveTheirCauses := by
  rintro s t i hx hr rfl
  simp only [← exists_errCause_iff]
  rcases step_err hr hx with ⟨he, h⟩ | ⟨he, u, hu, h⟩ <;> rw [h, he]
  · exact ⟨fun k _ hs => by simp [hs], fun k _ hs => by simp [hs]⟩
  · simp only [true_and]
    exact ⟨fun k hk => (exec_err_bit (decodeWord_wellFormed _) hu hk).1,
      fun k hk => (exec_err_bit (decodeWord_wellFormed _) hu hk).2⟩

end

section
/-! PROOF. The register space (20_memory.md R60 to R73): which reads race a command, what a read, a write, a command and
a micro-step leave of every register, and the words that a KEYEXP commit leaves (obligations O10 to O21). -/

namespace Sys2Proof

/-! ## Bytes of words and matrices (00_scope.md R10, R11) -/

theorem keyWord_byte (key : Vector Byte 32) (j : Nat) (r : Fin 4) :
    (keyWord key j).byte r = keyByte key (4 * j + r.val) := by
  revert r; simp [Fin.forall_fin_succ, keyWord, Word.byte]

theorem Matrix4.flatAt_set (m : Matrix4) (i j : Fin 16) (v : Byte) :
    (m.set (rowOf i) (colOf i) v).flatAt j = if j = i then v else m.flatAt j := by
  have hij : rowOf j = rowOf i ∧ colOf j = colOf i ↔ j = i :=
    ⟨fun ⟨hr, hc⟩ => rowOf_colOf_inj hr hc, by rintro rfl; exact ⟨rfl, rfl⟩⟩
  simp only [Matrix4.flatAt, Matrix4.get_set, hij]

theorem Matrix4.get_eq_flatAt (m : Matrix4) (r c : Fin 4) :
    m.get r c = m.flatAt ⟨4 * c.val + r.val, by omega⟩ := by
  have hr : (4 * c.val + r.val) % 4 = r.val := by omega
  have hc : (4 * c.val + r.val) / 4 = c.val := by omega
  simp [Matrix4.flatAt, rowOf, colOf, hr, hc]

end Sys2Proof

namespace Sys2Proof.Machine

/-! ## The bytes of the strength (20_memory.md R66) -/

@[simp] theorem withLowByte_low (x : BitVec 16) (d : Byte) : (withLowByte x d).extractLsb' 0 8 = d := by
  rw [withLowByte, BitVec.extractLsb'_append_eq_right]

@[simp] theorem withLowByte_high (x : BitVec 16) (d : Byte) :
    (withLowByte x d).extractLsb' 8 8 = x.extractLsb' 8 8 := by
  rw [withLowByte, BitVec.extractLsb'_append_eq_left]

@[simp] theorem withHighByte_low (x : BitVec 16) (d : Byte) :
    (withHighByte x d).extractLsb' 0 8 = x.extractLsb' 0 8 := by
  rw [withHighByte, BitVec.extractLsb'_append_eq_right]

@[simp] theorem withHighByte_high (x : BitVec 16) (d : Byte) : (withHighByte x d).extractLsb' 8 8 = d := by
  rw [withHighByte, BitVec.extractLsb'_append_eq_left]

/-- Two writes, in either order, leave the 16-bit word whose bytes they write (20_memory.md R66). -/
theorem withHighByte_withLowByte (x n : BitVec 16) :
    withHighByte (withLowByte x (n.extractLsb' 0 8)) (n.extractLsb' 8 8) = n := by
  rw [withHighByte, withLowByte_low]
  exact (BitVec.extractLsb'_append_extractLsb'_eq_extractLsb' rfl).trans BitVec.extractLsb'_eq_self

theorem withLowByte_withHighByte (x n : BitVec 16) :
    withLowByte (withHighByte x (n.extractLsb' 8 8)) (n.extractLsb' 0 8) = n := by
  rw [withLowByte, withHighByte_high]
  exact (BitVec.extractLsb'_append_extractLsb'_eq_extractLsb' rfl).trans BitVec.extractLsb'_eq_self

/-! ## Reads (20_memory.md R60, R62) -/

theorem regHas_of_regAt {a : Byte} {r : Reg} (h : regAt a = r) : regHas r a.toNat = true := h ▸ regHas_regAt a

theorem regAt_ne {a : Byte} {r : Reg} (h : regHas r a.toNat = false) : regAt a ≠ r := fun hr =>
  absurd ((regHas_of_regAt hr).symm.trans h) (by decide)

/-- Only the reserved addresses share their register (20_memory.md R63, R73). -/
theorem regAt_inj {a b : Byte} (h : regAt b = regAt a) : b = a ∨ regAt a = .reserved := by
  have ha := regHas_regAt a
  have hb := regHas_of_regAt h
  cases hr : regAt a <;> rw [hr] at ha hb <;> simp only [regHas, beq_iff_eq] at ha hb
  case reserved => exact .inr rfl
  all_goals exact .inl (BitVec.eq_of_toNat_eq (hb.trans ha.symm))

/-- A read races in the BLK window of a block or stage command, and in the RKDATA window of KEYEXP (20_memory.md R62 (d),
(e)). -/
theorem racingRead_iff {a : Byte} {s : State} : racingRead a s = true ↔
    s.busy = true ∧ ∃ o, s.curOp = some o ∧
      ((o ≠ .keyexp ∧ 0x20 ≤ a.toNat ∧ a.toNat ≤ 0x2F) ∨ (o = .keyexp ∧ 0x40 ≤ a.toNat ∧ a.toNat ≤ 0x4F)) := by
  have ha := regHas_regAt a
  rw [racingRead, Bool.and_eq_true]
  refine and_congr_right fun _ => ?_
  cases hr : regAt a <;> rw [hr] at ha <;> simp only [regHas, beq_iff_eq, decide_eq_true_eq] at ha
  case blk i =>
    have hblk : 0x20 ≤ a.toNat ∧ a.toNat ≤ 0x2F ∧ ¬ 0x40 ≤ a.toNat := by omega
    cases s.curOp <;> simp [hblk]
  case rkdata i =>
    have hrk : 0x40 ≤ a.toNat ∧ a.toNat ≤ 0x4F ∧ ¬ a.toNat ≤ 0x2F := by omega
    cases s.curOp <;> simp [hrk]
  all_goals
    simp only [Bool.false_eq_true, false_iff, not_exists, not_and]
    omega

/-- A read is exact unless it is one of the two races. -/
theorem exec_rd_norace {a : Byte} {s : State}
    (hblk : 0x20 ≤ a.toNat ∧ a.toNat ≤ 0x2F → s.busy = false ∨ s.curOp = some .keyexp)
    (hrk : 0x40 ≤ a.toNat ∧ a.toNat ≤ 0x4F → s.busy = false ∨ s.curOp ≠ some .keyexp) :
    exec (.rd a) s = .next { s with rdata := regRead a s } := by
  refine exec_rd_exact (Bool.eq_false_iff.2 fun h => ?_)
  obtain ⟨hb, o, hc, ⟨ho, ha⟩ | ⟨rfl, ha⟩⟩ := racingRead_iff.1 h
  · simpa [hb, hc, ho] using hblk ha
  · simpa [hb, hc] using hrk ha

/-- Outside the BLK and the RKDATA window a read is exact in every state. -/
theorem exec_rd_quiet {a : Byte} {s : State} (hblk : ¬(0x20 ≤ a.toNat ∧ a.toNat ≤ 0x2F))
    (hrk : ¬(0x40 ≤ a.toNat ∧ a.toNat ≤ 0x4F)) : exec (.rd a) s = .next { s with rdata := regRead a s } :=
  exec_rd_norace (absurd · hblk) (absurd · hrk)

/-- A read changes at most the output and the draw count (20_memory.md R60). -/
theorem exec_rd_output (a : Byte) (s : State) : ∃ v n, exec (.rd a) s = .next { s with rdata := v, draws := n } := by
  cases h : racingRead a s
  · exact ⟨_, s.draws, exec_rd_exact h⟩
  · exact ⟨_, _, exec_rd_race h⟩

/-! ## What the registers are made of (20_memory.md R63) -/

/-- No register shows the output or the draw count. -/
theorem regRead_withOutput (a : Byte) (s : State) (v : Byte) (n : Nat) :
    regRead a { s with rdata := v, draws := n } = regRead a s := by
  rw [regRead, regRead]
  cases regAt a <;> rfl

/-- Only the BLK window shows the state matrix. -/
theorem regRead_withMatrix {a : Byte} (ha : ¬(0x20 ≤ a.toNat ∧ a.toNat ≤ 0x2F)) (s : State) (m : Matrix4) (q : BitVec 6) :
    regRead a { s with st := m, seq := q } = regRead a s := by
  rw [regRead, regRead]
  cases hr : regAt a
  case blk i =>
    have hi := regHas_of_regAt hr
    simp only [regHas, beq_iff_eq] at hi
    omega
  all_goals rfl

/-- Only the RKDATA window shows the round-key memory. -/
theorem regRead_withWords {a : Byte} (ha : ¬(0x40 ≤ a.toNat ∧ a.toNat ≤ 0x4F)) (s : State) (w : Vector Word 60)
    (q : BitVec 6) : regRead a { s with w := w, seq := q } = regRead a s := by
  rw [regRead, regRead]
  cases hr : regAt a
  case rkdata i =>
    have hi := regHas_of_regAt hr
    simp only [regHas, beq_iff_eq] at hi
    omega
  all_goals rfl

/-- Only STATUS, ERR and NR show what the launch of a command or an error writes. -/
theorem regValue_withControl {r : Reg} (hs : r ≠ .status) (he : r ≠ .err) (hn : r ≠ .nr) (s : State) (n : Byte)
    (v : Bool) (e : BitVec 5) (b : Bool) (f : Fsm) (q : BitVec 6) (o : Option Op) (x : Byte) :
    regValue { s with nr := n, keyValid := v, err := e, busy := b, fsm := f, seq := q, curOp := o, curArg := x } r =
      regValue s r := by
  cases r
  case status => exact absurd rfl hs
  case err => exact absurd rfl he
  case nr => exact absurd rfl hn
  all_goals rfl

theorem regValue_raise {r : Reg} (hs : r ≠ .status) (he : r ≠ .err) (e : ErrCode) (s : State) :
    regValue (raise e s) r = regValue s r := by
  cases r
  case status => exact absurd rfl hs
  case err => exact absurd rfl he
  all_goals rfl

/-- A micro-step that is not the last leaves every register that the command's reads do not race (20_memory.md R62). -/
theorem regRead_microStep {a : Byte} {s : State} {o : Op} (hc : s.curOp = some o)
    (hb : ¬(o ≠ .keyexp ∧ 0x20 ≤ a.toNat ∧ a.toNat ≤ 0x2F)) (hk : ¬(o = .keyexp ∧ 0x40 ≤ a.toNat ∧ a.toNat ≤ 0x4F))
    (hm : (microStep s).busy = true) : regRead a (microStep s) = regRead a s := by
  by_cases ho : o = .keyexp
  · subst ho
    obtain ⟨w, -, ⟨-, h⟩ | ⟨-, h⟩⟩ := microStep_keyexp_cases hc <;> rw [h] at hm ⊢
    · cases hm
    · exact regRead_withWords (fun ha => hk ⟨rfl, ha⟩) s w _
  · rcases microStep_matrix_cases hc ho with ⟨-, m, h⟩ | ⟨-, m, h⟩ <;> rw [h] at hm ⊢
    · cases hm
    · exact regRead_withMatrix (fun ha => hb ⟨ho, ha⟩) s m _

/-! ## Writes (20_memory.md R61, R64 to R73) -/

/-- The registers whose reads give back what the host wrote (20_memory.md R63): KEY, BLK, STRL, STRH, KEYLEN, RKSEL. -/
def isReadWrite : Reg → Bool
  | .key _ | .blk _ | .strl | .strh | .keylen | .rksel => true
  | .cmd | .status | .err | .nr | .rkdata _ | .reserved => false

theorem isReadWrite_regAt {a : Byte} (h : a.toNat < 0x34) : isReadWrite (regAt a) = true := by
  have ha := regHas_regAt a
  cases hr : regAt a <;> rw [hr] at ha <;> simp only [regHas, beq_iff_eq, decide_eq_true_eq] at ha
  case key | blk | strl | strh | keylen | rksel => rfl
  all_goals omega

theorem regValue_regStore_self {r : Reg} (h : isReadWrite r = true) (d : Byte) (s : State) :
    regValue (regStore d s r) r = d := by
  cases r
  case key i => exact Vector.getElem_set_self _
  case blk i => simp [regStore, regValue]
  case strl => exact withLowByte_low _ d
  case strh => exact withHighByte_high _ d
  case keylen | rksel => rfl
  all_goals cases h

/-- A write to a register but CMD leaves every other register but STATUS, and RKDATA if it sets RKSEL (20_memory.md
R236). -/
theorem regValue_regStore_other {r r' : Reg} (hne : r' = r → r = .reserved) (hc : r ≠ .cmd) (hs : r' ≠ .status)
    (hk : r = .rksel → ∀ i, r' ≠ .rkdata i) (d : Byte) (s : State) :
    regValue (regStore d s r) r' = regValue s r' := by
  cases r
  case key i =>
    cases r'
    case key j => exact Vector.getElem_set_ne i.isLt j.isLt fun hij => by cases hne (by rw [Fin.ext hij])
    case status => exact absurd rfl hs
    all_goals rfl
  case blk i =>
    cases r'
    case blk j =>
      have hij : ¬(rowOf j = rowOf i ∧ colOf j = colOf i) := fun ⟨hr, hcol⟩ => by
        cases hne (by rw [rowOf_colOf_inj hr hcol])
      simp [regStore, regValue, hij]
    all_goals rfl
  case strl =>
    cases r'
    case strl => cases hne rfl
    case strh => exact withLowByte_high s.strength d
    case status => exact absurd rfl hs
    all_goals rfl
  case strh =>
    cases r'
    case strl => exact withHighByte_low s.strength d
    case strh => cases hne rfl
    case status => exact absurd rfl hs
    all_goals rfl
  case keylen =>
    cases r'
    case keylen => cases hne rfl
    case status => exact absurd rfl hs
    all_goals rfl
  case rksel =>
    cases r'
    case rksel => cases hne rfl
    case rkdata i => exact absurd rfl (hk rfl i)
    all_goals rfl
  case cmd => exact absurd rfl hc
  case err =>
    cases r'
    case err => cases hne rfl
    case status => exact absurd rfl hs
    all_goals rfl
  case status | nr | rkdata | reserved => rfl

/-- The registers above CMD but ERR ignore writes (20_memory.md R69, R70, R73). -/
theorem regStore_readOnly {a : Byte} (ha : 0x34 < a.toNat) (he : a.toNat ≠ 0x36) (d : Byte) (s : State) :
    regStore d s (regAt a) = s := by
  have hr := regHas_regAt a
  cases h : regAt a <;> rw [h] at hr <;> simp only [regHas, beq_iff_eq, decide_eq_true_eq] at hr
  case status | nr | rkdata | reserved => rfl
  all_goals omega

/-! ## The bits of ERR and STATUS (20_memory.md R68, R69) -/

/-- A write to ERR looks at the low five bits. -/
theorem errCleared_and_low (x : BitVec 5) (d : Byte) : errCleared x (d &&& 0x1F) = errCleared x d := by
  apply BitVec.eq_of_getLsbD_eq
  intro k hk
  have hbit : (0x1F : Byte).getLsbD k = true := by interval_cases k <;> rfl
  rw [errCleared_getLsbD _ _ hk, errCleared_getLsbD _ _ hk, BitVec.getLsbD_and, hbit, Bool.and_true]

theorem errCleared_zero (x : BitVec 5) : errCleared x 0x00 = x := by
  apply BitVec.eq_of_getLsbD_eq
  intro k hk
  simp [errCleared_getLsbD _ _ hk]

theorem statusByte_getLsbD (s : State) (k : Nat) : (statusByte s).getLsbD k =
    if k = 0 then s.busy else if k = 1 then s.keyValid else (decide (k = 2) && s.err != 0) := by
  rw [statusByte, BitVec.getLsbD_setWidth, BitVec.getLsbD_append, BitVec.getLsbD_append]
  rcases k with _ | _ | _ | k <;> simp

/-! ## Commands (20_memory.md R72) -/

theorem launchByte_code (c : Command) : launchByte c.code = launchCommand c := by
  funext s
  simp only [launchByte, decodeCmd_code]

theorem regValue_launchCommand {r : Reg} (hs : r ≠ .status) (he : r ≠ .err) (hn : r ≠ .nr) (c : Command) (s : State) :
    regValue (launchCommand c s) r = regValue s r := by
  rcases launchCommand_cases c s with ⟨-, h⟩ | ⟨-, -, h⟩ | ⟨-, -, h⟩ | ⟨-, -, h⟩ | ⟨-, -, -, h⟩ | ⟨o, -, -, -, -, h⟩ <;>
    rw [h] <;> exact regValue_withControl hs he hn s _ _ _ _ _ _ _ _

theorem regValue_launchByte {r : Reg} (hs : r ≠ .status) (he : r ≠ .err) (hn : r ≠ .nr) (d : Byte) (s : State) :
    regValue (launchByte d s) r = regValue s r := by
  simp only [launchByte]
  split
  · exact regValue_raise hs he _ s
  · exact regValue_launchCommand hs he hn _ s

theorem regValue_hostWrite {r : Reg} (hs : r ≠ .status) (he : r ≠ .err) (a : Byte) {f : State → State} {s : State}
    (hf : regValue (f s) r = regValue s r) : regValue (hostWrite a f s) r = regValue s r := by
  rcases hostWrite_cases a f s with ⟨-, -, h⟩ | ⟨-, h⟩ <;> rw [h]
  · exact regValue_raise hs he _ s
  · exact hf

/-! ## The key in the round-key memory (20_memory.md R64) -/

/-- A byte of the key is in one of its words (00_scope.md R6). -/
theorem div_four_lt_nkOf {s : State} (h : ConfigInv s) {i : Nat} (hi : i < s.strength.toNat / 8) :
    i / 4 < nkOf s.strength := by
  have hlegal : s.strength.toNat = 128 ∨ s.strength.toNat = 192 ∨ s.strength.toNat = 256 :=
    (legalStrength_cases h.1).imp (congrArg _) (.imp (congrArg _) (congrArg _))
  rw [nkOf]
  omega

/-- The KEYEXP commit leaves the key's own words first in the round-key memory. -/
theorem commit_keyexp_keyWord {s : State} (hc : s.curOp = some .keyexp) (h : ConfigInv s) {j : Nat}
    (hj : j < nkOf s.strength) : wordAt (commit s).w j = keyWord s.key j := by
  obtain ⟨w, hw, hs⟩ := commitEffect_keyexp_scheduleInv h
  obtain ⟨-, -, hn⟩ := h
  have hlt : j < scheduleWords s.nr.toNat := by rw [hn, scheduleWords]; omega
  simp only [commit, hc, hw, finish_w]
  exact (hs j hlt).trans (keyExpansion_key hj)

/-! ## Blocks in the state matrix (20_memory.md R65) -/

/-- Writes of bytes of a block to BLK write those bytes of the state matrix. -/
theorem txRun_blkWrites (b : Vector Byte 16) (order : List (Fin 16)) {s : State} (hb : s.busy = false) :
    ∃ m, txRun (order.map fun i => .access (.wr (BitVec.ofNat 8 (0x20 + i.val)) b[i])) { s with rdata := 0x00 } =
        some { s with st := m, rdata := 0x00 } ∧
      ∀ j, m.flatAt j = if j ∈ order then b[j] else s.st.flatAt j := by
  induction order generalizing s with
  | nil => exact ⟨s.st, rfl, by simp⟩
  | cons i order ih =>
    have hw : txStep (.access (.wr (BitVec.ofNat 8 (0x20 + i.val)) b[i])) { s with rdata := 0x00 } =
        some { s with st := s.st.set (rowOf i) (colOf i) b[i], rdata := 0x00 } :=
      txStep_access (by rw [exec_wr_idle (by exact hb), regAt_blk]; rfl)
    obtain ⟨m, hm, hf⟩ := ih (s := { s with st := s.st.set (rowOf i) (colOf i) b[i] }) hb
    refine ⟨m, by simpa only [List.map_cons, txRun, hw] using hm, fun j => ?_⟩
    rw [hf j, Matrix4.flatAt_set]
    by_cases hj : j = i
    · subst hj; simp
    · simp [hj]

end Sys2Proof.Machine
end

section
open Sys2Proof Sys2Proof.Machine

/-- Settles O10: of the two answers of a read, the idle one is exact. -/
theorem readChangesNoState : Obligations.ReadChangesNoState := by
  intro s a
  cases h : racingRead a s
  · exact ⟨_, s.draws, exec_rd_exact h, fun _ => ⟨rfl, rfl⟩⟩
  · refine ⟨_, _, exec_rd_race h, fun hb => ?_⟩
    rw [racingRead_idle hb] at h
    cases h

/-- Settles O11: the first words of the schedule are the key's own. -/
theorem keyWindow : Obligations.KeyWindow := by
  refine fun s i d => ⟨fun hb => ?write, ?read, fun hb hc hcfg hi => ⟨commit s, by simp [txStep, hb], ?land⟩⟩
  case write =>
    rw [exec_wr_idle hb, regAt_key]
    rfl
  case read =>
    have hi : (BitVec.ofNat 8 i.val).toNat = i.val := by rw [BitVec.toNat_ofNat]; omega
    rw [exec_rd_quiet (by omega) (by omega), regRead, regAt_key]
    rfl
  case land =>
    rw [commit_keyexp_keyWord hc hcfg (div_four_lt_nkOf hcfg hi), keyWord_byte]
    have hi4 : 4 * (i.val / 4) + i.val % 4 = i.val := by omega
    simp [hi4, keyByte]

/-- Settles O12: the writes byte by byte, whatever their order, and the matrix read back through its flat form. -/
theorem blkWindow : Obligations.BlkWindow := by
  refine ⟨fun s i d hb => ⟨s.st.set (rowOf i) (colOf i) d, ?write, ?entry⟩, fun s r c h => ?read,
    fun s b order hb hall => ?block⟩
  case write =>
    rw [exec_wr_idle hb, regAt_blk]
    rfl
  case entry =>
    intro r c
    simp [rowOf, colOf, Fin.ext_iff]
  case read =>
    have ha : (BitVec.ofNat 8 (0x20 + (4 * c.val + r.val))).toNat = 0x20 + (4 * c.val + r.val) := by
      rw [BitVec.toNat_ofNat]; omega
    rw [exec_rd_norace (fun _ => h) (by omega), regRead, regAt_blk ⟨4 * c.val + r.val, by omega⟩]
    exact congrArg (fun v => Host.Outcome.next { s with rdata := v }) (s.st.get_eq_flatAt r c).symm
  case block =>
    obtain ⟨m, hm, hf⟩ := txRun_blkWrites b order hb
    have hbyte (i : Fin 16) : m.flatAt i = b[i] := by rw [hf, if_pos (hall i)]
    refine ⟨{ s with st := m, rdata := 0x00 }, ?_, rfl, fun r c => ?_, hbyte⟩
    · cases order with
      | nil => cases hall 0
      | cons => exact hm
    · exact (m.get_eq_flatAt r c).trans (hbyte _)

/-- Settles O13: each write replaces its byte, so the two in either order write the whole word. -/
theorem strengthRegisters : Obligations.StrengthRegisters := by
  refine ⟨fun s d hb => ⟨exec_wr_idle hb, exec_wr_idle hb⟩,
    fun s => ⟨exec_rd_quiet (by decide) (by decide), exec_rd_quiet (by decide) (by decide)⟩, fun s n hb => ?_⟩
  have low {u : State} (d : Byte) (hu : u.busy = false) : txStep (.access (.wr 0x30 d)) u =
      some { u with strength := withLowByte u.strength d, keyValid := false, rdata := 0x00 } :=
    txStep_access (exec_wr_idle hu)
  have high {u : State} (d : Byte) (hu : u.busy = false) : txStep (.access (.wr 0x31 d)) u =
      some { u with strength := withHighByte u.strength d, keyValid := false, rdata := 0x00 } :=
    txStep_access (exec_wr_idle hu)
  constructor
  · simp only [txRun, low, high, hb, withHighByte_withLowByte]
  · simp only [txRun, low, high, hb, withLowByte_withHighByte]

/-- Settles O14: both are plain registers outside the racing windows. -/
theorem keylenAndRksel : Obligations.KeylenAndRksel := fun _ _ =>
  ⟨fun hb => ⟨exec_wr_idle hb, exec_wr_idle hb⟩, exec_rd_quiet (by decide) (by decide),
    exec_rd_quiet (by decide) (by decide)⟩

/-- Settles O15: ERR is above CMD, so its store is never dropped; the rest is about its bits. -/
theorem errRegister : Obligations.ErrRegister := by
  intro s d
  have hwr (d : Byte) : exec (.wr 0x36 d) s = .next { s with err := errCleared s.err d } := exec_wr_high (by decide)
  refine ⟨⟨errByte s, exec_rd_quiet (by decide) (by decide), fun k hk => ?_⟩,
    ⟨_, hwr d, fun k hk => errCleared_getLsbD _ _ hk⟩, ?_, ?_⟩
  · by_cases h : k < 5
    · simp [errByte, hk, h]
    · simp [errByte, h, BitVec.getLsbD_of_ge s.err k (by omega)]
  · rw [hwr, hwr, errCleared_and_low]
  · rw [hwr, errCleared_zero]

/-- Settles O16: the reads race nothing, and the two writes are above CMD and store nothing. -/
theorem statusNrAndCmdReads : Obligations.StatusNrAndCmdReads := by
  refine fun s => ⟨⟨statusByte s, exec_rd_quiet (by decide) (by decide), ?_, ?_, ?_, fun k hk => ?_⟩,
    exec_rd_quiet (by decide) (by decide), exec_rd_quiet (by decide) (by decide),
    fun d => ⟨exec_wr_high (by decide), exec_wr_high (by decide)⟩⟩
  · exact statusByte_getLsbD s 0
  · exact statusByte_getLsbD s 1
  · exact statusByte_getLsbD s 2
  · rw [statusByte_getLsbD, if_neg (by omega), if_neg (by omega), decide_eq_false (by omega), Bool.false_and]

/-- Settles O17: RKDATA is above CMD, its writes store nothing, and a read of it races only KEYEXP. -/
theorem rkdataWindow : Obligations.RkdataWindow := by
  intro s i
  have ha : (BitVec.ofNat 8 (0x40 + i.val)).toNat = 0x40 + i.val := by rw [BitVec.toNat_ofNat]; omega
  refine ⟨fun h => ⟨rkdataByte s i, ?read, fun hk => ⟨_, Vector.getElem?_eq_getElem (by omega), ?slot⟩,
    fun hk => ?above⟩, fun d => ?write⟩
  case read =>
    rw [exec_rd_norace (by omega) (fun _ => h), regRead, regAt_rkdata]
    rfl
  case slot =>
    rw [rkdataByte, if_pos hk, wordAt, Vector.getElem?_eq_getElem (by simp only [colOf]; omega)]
    rfl
  case write =>
    rw [exec_wr_high (by omega), regAt_rkdata]
    rfl
  case above => rw [rkdataByte, if_neg (by omega)]

/-- Settles O18: all these addresses are above CMD, where the store of a read-only register is nothing. -/
theorem reservedAndReadOnlyAddresses : Obligations.ReservedAndReadOnlyAddresses := by
  refine fun s a d => ⟨fun ha => ?_, fun ha => ?_⟩
  · have hr : regAt a = .reserved := regAt_eq (decide_eq_true ha)
    refine ⟨?_, by rw [exec_wr_high (by omega), regStore_readOnly (by omega) (by omega)]⟩
    rw [exec_rd_quiet (by omega) (by omega), regRead, hr]
    rfl
  · rw [exec_wr_high (by omega), regStore_readOnly (by omega) (by omega)]

/-- Settles O19: the guard for writes and commands, the races for reads, and the frame of a micro-step. -/
theorem accessesWhileBusy : Obligations.AccessesWhileBusy := by
  intro s o hb hc
  refine ⟨fun a d ha => exec_wr_busy hb ha, fun c => exec_command_busy hb, fun d => exec_wr_high (by decide),
    fun a d ha hne => ?_, fun a ho hlo hhi => ?_, fun a ho hlo hhi => ?_, fun a hblk hrk => ⟨?_, ?_⟩, ?_⟩
  · rw [exec_wr_high ha, regStore_readOnly ha hne]
  · exact exec_rd_race (racingRead_iff.2 ⟨hb, o, hc, .inl ⟨ho, hlo, hhi⟩⟩)
  · exact exec_rd_race (racingRead_iff.2 ⟨hb, o, hc, .inr ⟨ho, hlo, hhi⟩⟩)
  · refine exec_rd_norace (fun ha => .inr ?_) (fun ha => .inr ?_)
    · by_contra ho
      exact hblk ⟨fun h => ho (h ▸ hc), ha⟩
    · exact fun ho => hrk ⟨Option.some.inj (hc.symm.trans ho), ha⟩
  · exact regRead_microStep hc hblk hrk
  · exact (statusByte_getLsbD s 0).trans hb

/-- Settles O20: which registers each access can change, one clause each. -/
theorem registerSpaceFrame : Obligations.RegisterSpaceFrame := by
  refine ⟨fun s t a b hx => ?read, fun s t c d b hx hst her hnr => ?command,
    fun s t a d b hx hcmd hne hst hrk her => ?write, fun s t a d hx hb ha => ?readback⟩
  case read =>
    obtain ⟨v, n, h⟩ := exec_rd_output a s
    cases h.symm.trans hx
    exact regRead_withOutput b s v n
  case command =>
    have hst : regAt b ≠ .status := regAt_ne (by simpa [regHas] using hst)
    have her : regAt b ≠ .err := regAt_ne (by simpa [regHas] using her)
    have hnr : regAt b ≠ .nr := regAt_ne (by simpa [regHas] using hnr)
    rcases hx with hx | hx
    · cases (exec_command c s).symm.trans hx
      exact regValue_hostWrite hst her _ (regValue_launchCommand hst her hnr c s)
    · cases hx
      exact regValue_hostWrite hst her _ (regValue_launchByte hst her hnr d s)
  case write =>
    have hst : regAt b ≠ .status := regAt_ne (by simpa [regHas] using hst)
    cases hx
    rcases hostWrite_cases a (regWrite a d) s with ⟨hb, -, h⟩ | ⟨-, h⟩ <;> rw [h]
    · have her : regAt b ≠ .err := regAt_ne (by simpa [regHas, hb] using her)
      exact regValue_raise hst her _ s
    · have hcmd : regAt a ≠ .cmd := regAt_ne (by simpa [regHas] using hcmd)
      refine regValue_regStore_other (fun h => (regAt_inj h).resolve_left hne) hcmd hst (fun ha i hi => hrk ?_) d s
      have ha := regHas_of_regAt ha
      have hi := regHas_of_regAt hi
      simp only [regHas, beq_iff_eq] at ha hi
      omega
  case readback =>
    rw [exec_wr_idle hb] at hx
    cases hx
    exact regValue_regStore_self (isReadWrite_regAt ha) d s

/-- Settles O21: a command's code decodes to the command. -/
theorem commandWriteIsItsRow : Obligations.CommandWriteIsItsRow := fun c s => by
  have h : regWrite cmdAddr c.code = launchCommand c := launchByte_code c
  rw [exec_command, ← h]
  rfl

end

section
/-! PROOF. Encoding and decoding undo each other (30_encoding.md R91, R94 to R96; obligations O1 to O3). -/

namespace Sys2Proof

/-! ## Laid-out bus words -/

@[simp] theorem decodeWord_busWord (b : Bool) (a d : Byte) :
    decodeWord (busWord b a d) = if b then decodeWrite a d else .rd a := by
  simp [decodeWord]

/-- A mask acts on each field of a bus word (30_encoding.md R91). -/
theorem busWord_and (b b' : Bool) (a a' d d' : Byte) :
    busWord b a d &&& busWord b' a' d' = busWord (b && b') (a &&& a') (d &&& d') := by
  apply BitVec.eq_of_getLsbD_eq
  intro i _
  simp only [BitVec.getLsbD_and, busWord_getLsbD]
  by_cases h8 : i < 8
  · simp only [h8, if_true]
  · by_cases h16 : i < 16
    · simp only [h8, h16, if_false, if_true]
    · simp only [h8, h16, if_false, BitVec.getLsbD_ofBool]
      cases decide (i - 16 = 0) <;> simp

/-- The mask of `W` and `A` writes `D` as 0x00. -/
theorem busWord_clear_busD (b : Bool) (a d : Byte) : busWord b a d &&& 0x1FF00 = busWord b a 0#8 := by
  have mask : (0x1FF00 : BitVec 17) = busWord true (BitVec.allOnes 8) 0#8 := rfl
  rw [mask, busWord_and, Bool.and_true, BitVec.and_allOnes, BitVec.and_zero]

/-! ## The encoder -/

/-- A command is encoded as the write of its code to CMD (30_encoding.md R99). -/
@[simp] theorem encode_command (c : Command) : encode c.instr = busWord true cmdAddr c.code := by
  rcases c with _ | ⟨_ | _ | _ | _ | _ | _ | _ | _ | _ | _⟩ <;> rfl

/-- Whichever row a write decodes to, the encoder lays out the same write. -/
@[simp] theorem encode_decodeWrite (a d : Byte) : encode (decodeWrite a d) = busWord true a d := by
  by_cases ha : a = cmdAddr
  · subst ha
    cases hd : decodeCmd d with
    | none => simp [decodeWrite, hd, encode]
    | some c =>
      obtain rfl := (decodeCmd_eq_some d c).1 hd
      rw [decodeWrite_code, encode_command]
  · simp [decodeWrite, ha, encode]

/-! ## There and back -/

/-- Decoding undoes encoding, by the three shapes of an instruction: a read, a write no command row matches, a
command. -/
theorem decodeWord_encode {i : Instr} (hw : i.wellFormed = true) : decodeWord (encode i) = i := by
  rcases Machine.instr_cases i with ⟨a, rfl⟩ | ⟨a, d, rfl⟩ | ⟨c, rfl⟩
  · simp [encode]
  · have hrow : isCommandRow a d = false := by simpa [Instr.wellFormed] using hw
    simp [encode, decodeWrite_wr a d hrow]
  · simp

/-- The listing's decoder reads an encoded word's bytes as the word and leaves the rest (log entry 5). -/
theorem decodeBytes_encodeBytes (i : Instr) (rest : List Byte) :
    decodeBytes (encodeBytes i ++ rest) = .ok (decodeWord (encode i), rest) := by
  rw [encodeBytes, decodeBytes_wordBytes _ (encode i).isLt, BitVec.ofNat_toNat, BitVec.setWidth_eq]

/-- Encoding undoes decoding, but for the `D` of a read (30_encoding.md R91). -/
theorem encode_decodeWord (w : BitVec 17) : encode (decodeWord w) = if busW w then w else w &&& 0x1FF00 := by
  rw [← busWord_fields w]
  cases hw : busW w
  case true => simp
  case false =>
    rw [decodeWord_busWord, busW_busWord, busWord_clear_busD]
    rfl

end Sys2Proof
end

section
open Sys2Proof Sys2Proof.Machine

/-- Settles O1: seventeen fixed words, run through the decoder. -/
theorem specWordsDecode : Obligations.SpecWordsDecode := by
  unfold Obligations.SpecWordsDecode
  decide

/-- Settles O2: the bytes of a listing are read as the encoded word, and that word decodes to the instruction. -/
theorem decodeOfEncode : Obligations.DecodeOfEncode := by
  intro i rest hw
  have hword : decodeWord (encode i) = i := decodeWord_encode hw
  exact ⟨hword, by rw [decodeBytes_encodeBytes, hword]⟩

/-- Settles O3: a decoded word is well formed, and the encoder lays its fields out again. -/
theorem everyBusWordIsATransaction : Obligations.EveryBusWordIsATransaction :=
  fun w => ⟨decodeWord_wellFormed w, encode_decodeWord w⟩

end

section
/-! PROOF. The primitives (40_primitives.md R100 to R116; obligations O56 to O60): the field laws from the doublings of
0x01, the S-box as an affine map of the field inverse, and MixColumns as a product of coefficient matrices. -/

namespace Sys2Proof

/-! ## Multiplication in GF(2^8) (40_primitives.md R101 to R104) -/

theorem gmulTerm_xor_bit (b c : Bool) (t : Byte) : gmulTerm (b ^^ c) t = gmulTerm b t ^^^ gmulTerm c t := by
  cases b <;> cases c <;> simp [gmulTerm]

@[simp] theorem xtime_zero : xtime 0#8 = 0#8 := by decide

theorem xtime_gmulTerm (bit : Bool) (t : Byte) : xtime (gmulTerm bit t) = gmulTerm bit (xtime t) := by
  cases bit <;> simp [gmulTerm]

theorem doubled_xtime (a : Byte) (k : Nat) : doubled (xtime a) k = xtime (doubled a k) := by
  induction k with
  | zero => rfl
  | succ k ih => rw [doubled, ih]; rfl

/-- The product distributes over a sum in its second factor. -/
theorem gmul_xor_right (a b c : Byte) : gmul a (b ^^^ c) = gmul a b ^^^ gmul a c := by
  simp only [gmul_eq_terms, BitVec.getLsbD_xor, gmulTerm_xor_bit]
  ac_rfl

@[simp] theorem gmul_zero_right (a : Byte) : gmul a 0#8 = 0#8 := by
  have h := gmul_xor_right a 0#8 0#8
  rwa [BitVec.xor_self, BitVec.xor_self] at h

@[simp] theorem gmul_one_right (a : Byte) : gmul a 1#8 = a := by
  simp [gmul_eq_terms, gmulTerm, doubled]

/-- Bit `k` of `b` selects the byte whose only bit is `k`. -/
@[simp] theorem gmul_one_left (b : Byte) : gmul 1#8 b = b := by
  have power : ∀ k < 8, doubled 1#8 k = BitVec.twoPow 8 k := by decide
  apply BitVec.eq_of_getLsbD_eq
  intro i hi
  have bit (k : Nat) (hk : k < 8) : (gmulTerm (b.getLsbD k) (doubled 1#8 k)).getLsbD i =
      (b.getLsbD k && decide (k = i)) := by
    rw [power k hk]
    cases b.getLsbD k <;> simp [gmulTerm, hk]
  simp only [gmul_eq_terms, BitVec.getLsbD_xor, bit, Nat.reduceLT]
  interval_cases i <;> simp

@[simp] theorem gmul_xtime_left (a b : Byte) : gmul (xtime a) b = xtime (gmul a b) := by
  simp only [gmul_eq_terms, doubled_xtime, xtime_xor, xtime_gmulTerm]

/-- Every byte is a sum of doublings of 0x01. -/
theorem byte_induction {P : Byte → Prop} (one : P 1#8) (double : ∀ a, P a → P (xtime a))
    (add : ∀ a b, P a → P b → P (a ^^^ b)) (a : Byte) : P a := by
  have zero : P 0#8 := add _ _ one one
  have doublings (k : Nat) : P (doubled 1#8 k) := by
    induction k with
    | zero => exact one
    | succ k ih => exact double _ ih
  have term (bit : Bool) (k : Nat) : P (gmulTerm bit (doubled 1#8 k)) := by
    cases bit
    · exact zero
    · exact doublings k
  rw [← gmul_one_left a, gmul_eq_terms]
  iterate 7 refine add _ _ ?_ (term _ _)
  exact term _ _

@[simp] theorem gmul_xtime_right (a b : Byte) : gmul a (xtime b) = xtime (gmul a b) := by
  induction a using byte_induction with
  | one => simp
  | double a ih => rw [gmul_xtime_left, ih, gmul_xtime_left]
  | add a a' ih ih' => rw [gmul_xor_left, ih, ih', gmul_xor_left, xtime_xor]

theorem gmul_comm (a b : Byte) : gmul a b = gmul b a := by
  induction a using byte_induction with
  | one => simp
  | double a ih => rw [gmul_xtime_left, ih, gmul_xtime_right]
  | add a a' ih ih' => rw [gmul_xor_left, ih, ih', gmul_xor_right]

theorem gmul_assoc (a b c : Byte) : gmul (gmul a b) c = gmul a (gmul b c) := by
  induction a using byte_induction with
  | one => simp
  | double a ih => simp only [gmul_xtime_left, ih]
  | add a a' ih ih' => simp only [gmul_xor_left, ih, ih']

/-- A byte has at most one inverse. -/
theorem eq_of_gmul_eq_one {x y b : Byte} (hx : gmul x b = 1#8) (hy : gmul y b = 1#8) : x = y :=
  calc x = gmul x (gmul y b) := by rw [hy, gmul_one_right]
    _ = gmul (gmul x b) y := by rw [gmul_comm y b, gmul_assoc]
    _ = y := by rw [hx, gmul_one_left]

/-! ## The substitution boxes (40_primitives.md R105 to R107) -/

@[simp] theorem invSbox_sbox (x : Byte) : invSbox (sbox x) = x := by
  revert x
  decide

@[simp] theorem sbox_invSbox (x : Byte) : sbox (invSbox x) = x := by
  revert x
  decide

/-- The affine map of 40_primitives.md R106. -/
def sboxAffine (b : Byte) : Byte :=
  b ^^^ b.rotateLeft 1 ^^^ b.rotateLeft 2 ^^^ b.rotateLeft 3 ^^^ b.rotateLeft 4 ^^^ 0x63

/-- The inverse ROM, read at the affine map of a byte, holds the byte's inverse. -/
theorem invSbox_sboxAffine_gmul (b : Byte) (h : b ≠ 0#8) : gmul (invSbox (sboxAffine b)) b = 1#8 := by
  revert b
  decide

theorem exists_gmul_eq_one {x : Byte} (h : x ≠ 0#8) : ∃ b, gmul x b = 1#8 :=
  ⟨_, (gmul_comm _ _).trans (invSbox_sboxAffine_gmul x h)⟩

/-- The S-box is the affine map of the inverse: `x` is the one byte that the inverse ROM can hold there. -/
theorem sbox_eq_sboxAffine {x b : Byte} (h : gmul x b = 1#8) : sbox x = sboxAffine b := by
  have hb : b ≠ 0#8 := by
    rintro rfl
    rw [gmul_zero_right] at h
    exact absurd h (by decide)
  rw [eq_of_gmul_eq_one h (invSbox_sboxAffine_gmul b hb), sbox_invSbox]

/-! ## The MixColumns matrices (40_primitives.md R110, R111) -/

@[simp] theorem mixM_self (i : Fin 4) : mixM i i = 0x02 := by
  rw [mixM, sub_self]; rfl

@[simp] theorem invMixM_self (i : Fin 4) : invMixM i i = 0x0E := by
  rw [invMixM, sub_self]; rfl

/-- Row `i` of MIX_M is its first row, turned by `i`. -/
theorem mixM_add (i n : Fin 4) : mixM i (i + n) = (Word.mk 0x02 0x03 0x01 0x01).byte n := by
  rw [mixM, add_sub_cancel_left]

/-- Row `i` of INV_MIX_M is its first row, turned by `i`. -/
theorem invMixM_add (i n : Fin 4) : invMixM i (i + n) = (Word.mk 0x0E 0x0B 0x0D 0x09).byte n := by
  rw [invMixM, add_sub_cancel_left]

/-- The product of two matrices of multipliers over GF(2^8) (40_primitives.md R111). -/
def coeffMul (p q : Fin 4 → Fin 4 → Byte) (i j : Fin 4) : Byte :=
  gmul (p i 0) (q 0 j) ^^^ gmul (p i 1) (q 1 j) ^^^ gmul (p i 2) (q 2 j) ^^^ gmul (p i 3) (q 3 j)

/-- The identity matrix of multipliers. -/
def coeffOne (i j : Fin 4) : Byte := if i = j then 1 else 0

theorem coeffMul_mixM_invMixM : coeffMul mixM invMixM = coeffOne := by
  funext i j
  revert i j
  decide

theorem coeffMul_invMixM_mixM : coeffMul invMixM mixM = coeffOne := by
  funext i j
  revert i j
  decide

/-- Mixing with the identity changes nothing. -/
theorem mixWith_coeffOne (m : Matrix4) : mixWith coeffOne m = m := by
  apply Matrix4.eq_of_get
  intro i j
  revert i
  simp [Fin.forall_fin_succ, coeffOne]

/-- Mixing twice is mixing once with the product of the two matrices. -/
theorem mixWith_mixWith (p q : Fin 4 → Fin 4 → Byte) (m : Matrix4) :
    mixWith p (mixWith q m) = mixWith (coeffMul p q) m := by
  apply Matrix4.eq_of_get
  intro i j
  have swap (l k : Fin 4) : gmul (gmul (m.get l j) (q k l)) (p i k) = gmul (m.get l j) (gmul (p i k) (q k l)) := by
    rw [gmul_assoc, gmul_comm (q k l)]
  simp only [get_mixWith, coeffMul, gmul_xor_left, gmul_xor_right, swap]
  ac_rfl

/-! ## The round primitives (40_primitives.md R112 to R116) -/

@[simp] theorem invSubBytes_subBytes (m : Matrix4) : invSubBytes (subBytes m) = m :=
  Matrix4.eq_of_get fun r c => by simp

@[simp] theorem subBytes_invSubBytes (m : Matrix4) : subBytes (invSubBytes m) = m :=
  Matrix4.eq_of_get fun r c => by simp

@[simp] theorem invShiftRows_shiftRows (m : Matrix4) : invShiftRows (shiftRows m) = m :=
  Matrix4.eq_of_get fun r c => by simp

@[simp] theorem shiftRows_invShiftRows (m : Matrix4) : shiftRows (invShiftRows m) = m :=
  Matrix4.eq_of_get fun r c => by simp

@[simp] theorem invMixColumns_mixColumns (m : Matrix4) : invMixColumns (mixColumns m) = m := by
  rw [invMixColumns, mixColumns, mixWith_mixWith, coeffMul_invMixM_mixM, mixWith_coeffOne]

@[simp] theorem mixColumns_invMixColumns (m : Matrix4) : mixColumns (invMixColumns m) = m := by
  rw [mixColumns, invMixColumns, mixWith_mixWith, coeffMul_mixM_invMixM, mixWith_coeffOne]

@[simp] theorem addRoundKey_addRoundKey (m k : Matrix4) : addRoundKey (addRoundKey m k) k = m :=
  Matrix4.eq_of_get fun r c => by simp

/-- SubBytes acts on the bytes and ShiftRows on their positions. -/
theorem subBytes_shiftRows (m : Matrix4) : subBytes (shiftRows m) = shiftRows (subBytes m) :=
  Matrix4.eq_of_get fun r c => by simp

/-- InvSubBytes acts on the bytes and InvShiftRows on their positions. -/
theorem invSubBytes_invShiftRows (m : Matrix4) : invSubBytes (invShiftRows m) = invShiftRows (invSubBytes m) :=
  Matrix4.eq_of_get fun r c => by simp

end Sys2Proof
end

section
open Sys2Proof

/-- Settles O56: each multiplier is built from 0x01 by doublings and additions, and the product follows them. -/
theorem multiplierDecompositions : Obligations.MultiplierDecompositions := by
  intro a
  have h2 : (2 : Byte) = xtime 1#8 := by decide
  have h3 : (3 : Byte) = xtime 1#8 ^^^ 1#8 := by decide
  have h9 : (9 : Byte) = xtime (xtime (xtime 1#8)) ^^^ 1#8 := by decide
  have h11 : (11 : Byte) = xtime (xtime (xtime 1#8) ^^^ 1#8) ^^^ 1#8 := by decide
  have h13 : (13 : Byte) = xtime (xtime (xtime 1#8 ^^^ 1#8)) ^^^ 1#8 := by decide
  have h14 : (14 : Byte) = xtime (xtime (xtime 1#8 ^^^ 1#8) ^^^ 1#8) := by decide
  refine ⟨gmul_one_right a, ?_⟩
  rw [h2, h3, h9, h11, h13, h14]
  simp only [gmul_xor_right, gmul_xtime_right, gmul_one_right, and_self]

/-- Settles O57: distributivity is bit by bit; the laws of both factors follow by building bytes from 0x01. -/
theorem fieldLaws : Obligations.FieldLaws := by
  refine ⟨fun a b c => ?_, ?_, ?_⟩
  · exact ⟨gmul_zero_right a, gmul_one_right a, gmul_comm a b, gmul_assoc a b c, gmul_xor_right a b c⟩
  · decide
  · decide

/-- Settles O58: the inverse ROM at the affine map of `b` holds the inverse of `b`, and inverses are unique. -/
theorem sboxIsTheAffineInverse : Obligations.SboxIsTheAffineInverse := by
  refine ⟨fun x b h => ?_, fun x h => exists_gmul_eq_one h, fun x => ⟨invSbox_sbox x, sbox_invSbox x⟩⟩
  rcases h with ⟨rfl, rfl⟩ | h
  · decide
  · exact sbox_eq_sboxAffine h

/-- Settles O59: entry by entry, but for MixColumns, whose two matrices multiply to the identity. -/
theorem roundPrimitivesInvert : Obligations.RoundPrimitivesInvert := fun m k =>
  ⟨invSubBytes_subBytes m, subBytes_invSubBytes m, invShiftRows_shiftRows m, shiftRows_invShiftRows m,
    invMixColumns_mixColumns m, mixColumns_invMixColumns m, addRoundKey_addRoundKey m k, subBytes_shiftRows m,
    invSubBytes_invShiftRows m⟩

/-- Settles O60: the ten constants, the turned rows and the product of the two matrices. -/
theorem romConstants : Obligations.RomConstants := by
  have doubling : ∀ j < 10, 1 ≤ j → rcon (j + 1) = xtime (rcon j) := by decide
  refine ⟨rfl, fun j h1 h10 => doubling j h10 h1, fun i => ?_, fun i j => ?_⟩
  · exact ⟨mixM_self i, mixM_add i 1, mixM_add i 2, mixM_add i 3,
      invMixM_self i, invMixM_add i 1, invMixM_add i 2, invMixM_add i 3⟩
  · exact congrFun (congrFun coeffMul_mixM_invMixM i) j

end

section
/-! PROOF. KEYEXP and the key schedule (41_key_schedule.md R131, R132, R140 to R146; obligations O31 to O34): the check
at the launch, the words a commit leaves, and the schedule of a 128-bit key column by column. -/

namespace Sys2Proof

/-! ## The words of the key and of the schedule (41_key_schedule.md R131, R132) -/

theorem Word.xor_comm (x y : Word) : x.xor y = y.xor x :=
  Word.eq_of_byte fun r => by rw [Word.byte_xor, Word.byte_xor, BitVec.xor_comm]

theorem Word.xor_assoc (x y z : Word) : (x.xor y).xor z = x.xor (y.xor z) :=
  Word.eq_of_byte fun r => by simp only [Word.byte_xor, BitVec.xor_assoc]

theorem keyByte_eq_getElem (key : Vector Byte 32) {i : Nat} (h : i < 32) : keyByte key i = key[i] := by
  simp [keyByte, h]

theorem wordAt_eq_getElem (w : Vector Word 60) (i : Fin 60) : wordAt w i.val = w[i] := by
  simp [wordAt]

/-- Column 0 of round key `k` of a 128-bit key takes the rotated, substituted last column and the round constant. -/
theorem keyExpansion_128_firstColumn (key : Vector Byte 32) {k : Nat} (h1 : 1 ≤ k) (h10 : k ≤ 10) :
    (keyExpansion 4 key).getD (4 * k) .zero =
      ((subWord (rotWord ((keyExpansion 4 key).getD (4 * (k - 1) + 3) .zero))).xor
        ((keyExpansion 4 key).getD (4 * (k - 1)) .zero)).xor (rconWord k) := by
  have hback : 4 * k - 4 = 4 * (k - 1) := by omega
  have hprev : 4 * k - 1 = 4 * (k - 1) + 3 := by omega
  have hround : 4 * k / 4 = k := by omega
  rw [keyExpansion_rec (by omega) (by omega) (by rw [scheduleWords]; omega), hback, hprev, scheduleWord, scheduleTemp,
    if_pos (Nat.mul_mod_right 4 k), hround, ← Word.xor_assoc, Word.xor_comm (List.getD _ _ _)]

/-- Any other column of round key `k` of a 128-bit key is the one before it plus that of the round key before. -/
theorem keyExpansion_128_nextColumn (key : Vector Byte 32) {k : Nat} (h1 : 1 ≤ k) (h10 : k ≤ 10) {c d : Fin 4}
    (hd : d.val = c.val + 1) :
    (keyExpansion 4 key).getD (4 * k + d.val) .zero =
      ((keyExpansion 4 key).getD (4 * k + c.val) .zero).xor
        ((keyExpansion 4 key).getD (4 * (k - 1) + d.val) .zero) := by
  have hback : 4 * k + d.val - 4 = 4 * (k - 1) + d.val := by omega
  have hprev : 4 * k + d.val - 1 = 4 * k + c.val := by omega
  rw [keyExpansion_rec (by omega) (by omega) (by rw [scheduleWords]; omega), hback, hprev, scheduleWord, scheduleTemp,
    if_neg (by omega), if_neg (by omega), Word.xor_comm]

end Sys2Proof

namespace Sys2Proof.Machine

/-! ## The check and the launch (41_key_schedule.md R141, R142) -/

theorem configLegal_iff {s : State} : configLegal s = true ↔
    (s.strength = 128 ∨ s.strength = 192 ∨ s.strength = 256) ∧ s.keylen.toNat * 8 = s.strength.toNat := by
  simp [configLegal, legalStrength, or_assoc]

theorem ConfigInv.configLegal {s : State} (h : ConfigInv s) : configLegal s = true :=
  configLegal_iff.2 ⟨legalStrength_cases h.1, h.2.1⟩

/-- A legal configuration has its round count already (10_state.md R37 (b)). -/
theorem ConfigInv.nr_eq {s : State} (h : ConfigInv s) : BitVec.ofNat 8 (nkOf s.strength + 6) = s.nr := by
  obtain ⟨-, -, hn⟩ := h
  rw [← hn, BitVec.ofNat_toNat, BitVec.setWidth_eq]

theorem nkOf_le {s : State} (h : ConfigInv s) : nkOf s.strength ≤ 8 := by
  rcases h.cases with ⟨hs, -⟩ | ⟨hs, -⟩ | ⟨hs, -⟩ <;> rw [hs] <;> decide

theorem exec_keyexp_rejected {s : State} (hb : s.busy = false) (hc : configLegal s = false) :
    exec .keyexp s = .next { s with keyValid := false, err := s.err ||| 1 } := by
  have hx : exec .keyexp s = .next (launchKeyexp s) := exec_command_idle (c := .launch .keyexp) hb
  rw [hx, launchKeyexp, hc]
  rfl

theorem exec_keyexp_launched {s : State} (hb : s.busy = false) (hc : configLegal s = true) :
    exec .keyexp s =
      .next (launch .keyexp { s with nr := BitVec.ofNat 8 (nkOf s.strength + 6), keyValid := false }) := by
  have hx : exec .keyexp s = .next (launchKeyexp s) := exec_command_idle (c := .launch .keyexp) hb
  rw [hx, launchKeyexp, if_pos hc]

/-- With the round count in place already the launch only clears `key_valid` (41_key_schedule.md R146). -/
theorem exec_keyexp_again {s : State} (hb : s.busy = false) (h : ConfigInv s) :
    exec .keyexp s = .next (launch .keyexp { s with keyValid := false }) := by
  rw [exec_keyexp_launched hb h.configLegal, h.nr_eq]

/-! ## The commit (41_key_schedule.md R143, R144) -/

/-- A KEYEXP commit leaves the words of the key's expansion, keeps the words above them, and makes the key valid. -/
theorem commit_keyexp {s : State} (hc : s.curOp = some .keyexp) (h : ConfigInv s) :
    ∃ w, commit s = finish { s with w := w, keyValid := true } ∧ ScheduleInv { s with w := w } ∧
      ∀ i < 60, scheduleWords s.nr.toNat ≤ i → wordAt w i = wordAt s.w i := by
  obtain ⟨w, hw, hwords⟩ := commitEffect_keyexp_scheduleInv h
  obtain ⟨w', hw', hstored⟩ := commitEffect_keyexp s
  obtain rfl : w = w' := congrArg State.w (hw.symm.trans hw')
  exact ⟨w, by simp only [commit, hc, hw], hwords, fun i hi hge => by rw [hstored i hi, if_neg (by omega)]⟩

/-- A KEYEXP commit over the key's own expansion writes no word anew (41_key_schedule.md R146). -/
theorem commit_keyexp_again {s : State} (hc : s.curOp = some .keyexp) (h : ConfigInv s) (hs : ScheduleInv s) :
    commit s = finish { s with keyValid := true } := by
  obtain ⟨w, hw, hwords, hkept⟩ := commit_keyexp hc h
  obtain rfl : w = s.w := eq_of_wordAt fun i hi => by
    rcases Nat.lt_or_ge i (scheduleWords s.nr.toNat) with hlt | hge
    · exact (hwords i hlt).trans (hs i hlt).symm
    · exact hkept i hi hge
  exact hw

end Sys2Proof.Machine
end

section
open Sys2Proof Sys2Proof.Machine

/-- Settles O31: the check accepts exactly the legal configurations, which are those of the key invariant. -/
theorem keyexpLaunch : Obligations.KeyexpLaunch := by
  intro s legal hlegal
  rw [← configLegal_iff] at hlegal
  refine ⟨fun hb hn => ?rejected, fun hk hn => ?invalid, fun hb hl => ?launched⟩
  case rejected => exact exec_keyexp_rejected hb (Bool.eq_false_iff.2 (mt hlegal.2 hn))
  case invalid => exact Bool.eq_false_iff.2 fun hv => hn (hlegal.2 (hk hv).1.configLegal)
  case launched =>
    have hc := hlegal.1 hl
    refine ⟨_, rfl, exec_keyexp_launched hb hc, ?nr, fun a hlo hhi => ?draw, ?busy, ?valid⟩
    case nr => exact (configInv_of_configLegal hc).cases.imp (·.2.2) (.imp (·.2.2) (·.2.2))
    case draw => exact exec_rd_race (racingRead_iff.2 ⟨rfl, .keyexp, rfl, .inr ⟨rfl, hlo, hhi⟩⟩)
    case busy => exact statusByte_getLsbD _ 0
    case valid => exact statusByte_getLsbD _ 1

/-- Settles O32: the committed words are the key's expansion, whose own words and recurrence are known. -/
theorem keyexpCommitWritesTheSchedule : Obligations.KeyexpCommitWritesTheSchedule := by
  rintro s nk nr hb hc h (rfl : nk = nkOf s.strength) rfl
  have hnk := nkOf_le h
  have ⟨_, _, hn⟩ := h
  obtain ⟨w, hw, hwords, hkept⟩ := commit_keyexp hc h
  have hword {i : Nat} (hi : i < 4 * (s.nr.toNat + 1)) :
      wordAt w i = (keyExpansion (nkOf s.strength) s.key).getD i .zero := hwords i hi
  refine ⟨w, by rw [txStep, if_pos hb, hw]; rfl, fun i hi r => ?own, fun i hlo hhi => ?recurrence,
    fun i hi => ?kept⟩
  case own =>
    rw [hword (by omega), keyExpansion_key hi, keyWord_byte, keyByte_eq_getElem _ (by omega),
      Vector.getElem?_eq_getElem]
  case recurrence =>
    rw [hword hhi, hword (i := i - _) (by omega), hword (i := i - 1) (by omega)]
    exact keyExpansion_rec (nkOf_pos h) hlo (by rw [← hn]; exact hhi)
  case kept =>
    rw [← wordAt_eq_getElem, ← wordAt_eq_getElem]
    exact hkept i i.isLt hi

/-- Settles O33: the recurrence at `Nk = 4`, taken column by column. -/
theorem keySchedule128InTheSourcesForm : Obligations.KeySchedule128InTheSourcesForm := by
  rintro key rk rfl
  refine ⟨fun r c => ?key, fun k h1 h10 => ⟨?first, ?second, ?third, ?fourth⟩⟩
  case key =>
    rw [Matrix4.get, Matrix4.col_ofCols, keyExpansion_key (by omega), keyWord_byte, keyByte_eq_getElem _ (by omega)]
    simp only [Nat.mul_zero, Nat.zero_add]
  all_goals simp only [Matrix4.col_ofCols]
  case first => exact keyExpansion_128_firstColumn key h1 h10
  case second => exact keyExpansion_128_nextColumn key h1 h10 (c := 0) (d := 1) rfl
  case third => exact keyExpansion_128_nextColumn key h1 h10 (c := 1) (d := 2) rfl
  case fourth => exact keyExpansion_128_nextColumn key h1 h10 (c := 2) (d := 3) rfl

/-- Settles O34: the launch finds the round count it writes, and the commit the words it writes. -/
theorem repeatedKeyexpChangesNothing : Obligations.RepeatedKeyexpChangesNothing := by
  intro s h hb hv
  obtain ⟨hseq, hkey, -, hq⟩ := h
  obtain ⟨hfsm, -⟩ := hseq.1 hb
  obtain ⟨hcfg, hwords, -⟩ := hkey hv
  have hlaunch : txStep (.access .keyexp) s = some (launch .keyexp { s with keyValid := false, rdata := 0x00 }) :=
    txStep_access (exec_keyexp_again (s := { s with rdata := 0x00 }) hb hcfg)
  have hcommit : txStep .commit (launch .keyexp { s with keyValid := false, rdata := 0x00 }) =
      some (finish (launch .keyexp { s with keyValid := true, rdata := 0x00 })) :=
    congrArg some (commit_keyexp_again rfl hcfg hwords)
  simp only [txCommand, txRun, hlaunch, hcommit]
  simp only [launch, finish, hb, hfsm, hq, hv]

end

section
/-! PROOF. The block commands (42_block_transform.md R150 to R170; obligations O22 to O30, O53, O54): their checks, what
one command run to its commit leaves, the ciphers round by round, and schedules of stage commands. -/

namespace Sys2Proof

/-! ## Shifting rows (42_block_transform.md R156, R158) -/

/-- Row `r` turned left three times by `r` is turned right by `r`. -/
theorem shiftRows_three (m : Matrix4) : shiftRows (shiftRows (shiftRows m)) = invShiftRows m :=
  Matrix4.eq_of_get fun r c => by
    have turn : c + r + r + r = c - r := by revert r c; decide
    simp only [get_shiftRows, get_invShiftRows, turn]

/-- Where ShiftRows takes each byte of the flat form (42_block_transform.md R156). -/
theorem flatAt_shiftRows (m : Matrix4) (i : Fin 16) :
    (shiftRows m).flatAt ⟨4 * ((i.val / 4 + 4 - i.val % 4) % 4) + i.val % 4, by omega⟩ = m.flatAt i := by
  have row : rowOf ⟨4 * ((i.val / 4 + 4 - i.val % 4) % 4) + i.val % 4, by omega⟩ = rowOf i := by
    revert i; decide
  have col : colOf ⟨4 * ((i.val / 4 + 4 - i.val % 4) % 4) + i.val % 4, by omega⟩ + rowOf i = colOf i := by
    revert i; decide
  rw [Matrix4.flatAt, get_shiftRows, row, col, Matrix4.flatAt]

theorem shiftRows_constantRows {m : Matrix4} (h : ∀ r c c' : Fin 4, m.get r c = m.get r c') : shiftRows m = m :=
  Matrix4.eq_of_get fun r c => by rw [get_shiftRows, h r _ c]

/-! ## Mixing a column of equal bytes (42_block_transform.md R160, R162) -/

/-- Multipliers that add up to 1 along each row leave a column of four equal bytes. -/
theorem get_mixWith_constantColumn {coeff : Fin 4 → Fin 4 → Byte}
    (hsum : ∀ i, coeff i 0 ^^^ coeff i 1 ^^^ coeff i 2 ^^^ coeff i 3 = 1#8) {m : Matrix4} {j : Fin 4} {a : Byte}
    (h : ∀ k, m.get k j = a) (i : Fin 4) : (mixWith coeff m).get i j = a := by
  rw [get_mixWith, h, h, h, h, ← gmul_xor_right, ← gmul_xor_right, ← gmul_xor_right, hsum, gmul_one_right]

theorem mixM_rowSum (i : Fin 4) : mixM i 0 ^^^ mixM i 1 ^^^ mixM i 2 ^^^ mixM i 3 = 1#8 := by
  revert i; decide

theorem invMixM_rowSum (i : Fin 4) : invMixM i 0 ^^^ invMixM i 1 ^^^ invMixM i 2 ^^^ invMixM i 3 = 1#8 := by
  revert i; decide

/-- The column whose only byte is 0x80 exercises the reduction of the field. -/
theorem col_mixColumns_reduction {m : Matrix4} {j : Fin 4} (h0 : m.get 0 j = 0x80) (h1 : m.get 1 j = 0)
    (h2 : m.get 2 j = 0) (h3 : m.get 3 j = 0) : (mixColumns m).col j = ⟨0x1B, 0x80, 0x80, 0x9B⟩ :=
  Word.eq_of_byte fun i => by
    have entry : ((mixColumns m).col j).byte i = _ := get_mixWith mixM m i j
    rw [entry, h0, h1, h2, h3]
    clear entry
    revert i
    decide

/-! ## The rules' examples (42_block_transform.md R152 to R168) -/

/-- The block of the example of R152, which SUB, SHR and MIX take through the next three (R152, R156, R160). -/
def exampleBlock : Matrix4 :=
  .mat #v[0x19, 0x3d, 0xe3, 0xbe, 0xa0, 0xf4, 0xe2, 0x2b, 0x9a, 0xc6, 0x8d, 0x2a, 0xe9, 0xf8, 0x48, 0x08]

def exampleSubstituted : Matrix4 :=
  .mat #v[0xd4, 0x27, 0x11, 0xae, 0xe0, 0xbf, 0x98, 0xf1, 0xb8, 0xb4, 0x5d, 0xe5, 0x1e, 0x41, 0x52, 0x30]

def exampleShifted : Matrix4 :=
  .mat #v[0xd4, 0xbf, 0x5d, 0x30, 0xe0, 0xb4, 0x52, 0xae, 0xb8, 0x41, 0x11, 0xf1, 0x1e, 0x27, 0x98, 0xe5]

def exampleMixed : Matrix4 :=
  .mat #v[0x04, 0x66, 0x81, 0xe5, 0xe0, 0xcb, 0x19, 0x9a, 0x48, 0xf8, 0xd3, 0x7a, 0x28, 0x06, 0x26, 0x4c]

theorem subBytes_example : subBytes exampleBlock = exampleSubstituted := by decide

theorem shiftRows_example : shiftRows exampleSubstituted = exampleShifted := by decide

theorem mixColumns_example : mixColumns exampleShifted = exampleMixed := by decide

theorem invSubBytes_example : invSubBytes exampleSubstituted = exampleBlock := by
  rw [← subBytes_example, invSubBytes_subBytes]

theorem invShiftRows_example : invShiftRows exampleShifted = exampleSubstituted := by
  rw [← shiftRows_example, invShiftRows_shiftRows]

theorem invMixColumns_example : invMixColumns exampleMixed = exampleShifted := by
  rw [← mixColumns_example, invMixColumns_mixColumns]

/-! ## The ciphers round by round (42_block_transform.md R165, R167, R169) -/

theorem decRound_encRound (k m : Matrix4) : decRound k (encRound k m) = m := by
  simp [decRound, encRound]

theorem encRound_decRound (k m : Matrix4) : encRound k (decRound k m) = m := by
  simp [decRound, encRound]

theorem decRounds_encRounds (rk : Nat → Matrix4) (n : Nat) (m : Matrix4) : decRounds rk n (encRounds rk n m) = m := by
  induction n with
  | zero => rfl
  | succ n ih => rw [encRounds, decRounds, decRound_encRound, ih]

theorem encRounds_decRounds (rk : Nat → Matrix4) (n : Nat) (m : Matrix4) : encRounds rk n (decRounds rk n m) = m := by
  induction n generalizing m with
  | zero => rfl
  | succ n ih => rw [decRounds, encRounds, ih, encRound_decRound]

/-- InvCipher undoes Cipher, from its last step back (42_block_transform.md R169). -/
theorem invCipher_cipher (rk : Nat → Matrix4) (nr : Nat) (m : Matrix4) : invCipher rk nr (cipher rk nr m) = m := by
  simp only [invCipher, cipher, addRoundKey_addRoundKey, invShiftRows_shiftRows, invSubBytes_subBytes,
    decRounds_encRounds]

theorem cipher_invCipher (rk : Nat → Matrix4) (nr : Nat) (m : Matrix4) : cipher rk nr (invCipher rk nr m) = m := by
  simp only [invCipher, cipher, addRoundKey_addRoundKey, encRounds_decRounds, subBytes_invSubBytes,
    shiftRows_invShiftRows]

/-- The rounds of the forward cipher as a fold over their indices (42_block_transform.md R165). -/
theorem encRounds_eq_foldl (rk : Nat → Matrix4) (n : Nat) (m : Matrix4) :
    encRounds rk n m = (List.range' 1 n).foldl (fun x i => encRound (rk i) x) m := by
  induction n with
  | zero => rfl
  | succ n ih => rw [encRounds, ih, List.range'_1_concat, List.foldl_concat, Nat.add_comm n]

/-- The rounds of the inverse cipher as a fold over their indices, downwards (42_block_transform.md R167). -/
theorem decRounds_eq_foldl (rk : Nat → Matrix4) (n : Nat) (m : Matrix4) :
    decRounds rk n m = (List.range' 1 n).reverse.foldl (fun x i => decRound (rk i) x) m := by
  induction n generalizing m with
  | zero => rfl
  | succ n ih => rw [decRounds, ih, List.range'_1_concat, List.reverse_concat, List.foldl_cons, Nat.add_comm n]

theorem encRounds_congr {rk rk' : Nat → Matrix4} {n : Nat} (h : ∀ k ≤ n, rk k = rk' k) (m : Matrix4) :
    encRounds rk n m = encRounds rk' n m := by
  induction n with
  | zero => rfl
  | succ n ih => rw [encRounds, encRounds, ih fun k hk => h k (by omega), h (n + 1) (by omega)]

/-- The forward cipher reads the round keys 0 to `nr` only. -/
theorem cipher_congr {rk rk' : Nat → Matrix4} {nr : Nat} (h : ∀ k ≤ nr, rk k = rk' k) (m : Matrix4) :
    cipher rk nr m = cipher rk' nr m := by
  rw [cipher, cipher, encRounds_congr fun k hk => h k (by omega), h 0 (by omega), h nr (by omega)]

end Sys2Proof

namespace Sys2Proof.Machine

/-! ## Commands at the CMD write (42_block_transform.md R150 to R168) -/

/-- The launch checks let a command other than KEYEXP through (42_block_transform.md R151, R163, R166, R168). -/
def LaunchAccepted (o : Op) (s : State) : Prop :=
  o ≠ .keyexp ∧ (o = .enc ∨ o = .dec ∨ o = .ark → s.keyValid = true) ∧ (o = .ark → s.rksel.toNat ≤ s.nr.toNat)

theorem LaunchAccepted.enc {s : State} (hv : s.keyValid = true) : LaunchAccepted .enc s := by
  simp [LaunchAccepted, hv]

theorem LaunchAccepted.dec {s : State} (hv : s.keyValid = true) : LaunchAccepted .dec s := by
  simp [LaunchAccepted, hv]

theorem LaunchAccepted.ark {s : State} (hv : s.keyValid = true) (hr : s.rksel.toNat ≤ s.nr.toNat) :
    LaunchAccepted .ark s := by
  simp [LaunchAccepted, hv, hr]

theorem exec_command_accepted {o : Op} {s : State} (hb : s.busy = false) (h : LaunchAccepted o s) :
    exec (Command.launch o).instr s = .next (launch o s) := by
  obtain ⟨hk, hv, hr⟩ := h
  rw [exec_command_idle hb]
  cases o
  case keyexp => exact absurd rfl hk
  case enc | dec => simp [launchCommand, launchEnc, launchDec, hv]
  case ark => simp [launchCommand, launchArk, hv, hr]
  all_goals rfl

theorem exec_command_nokey {o : Op} {s : State} (hb : s.busy = false) (ho : o = .enc ∨ o = .dec ∨ o = .ark)
    (hv : s.keyValid = false) : exec (Command.launch o).instr s = .next { s with err := s.err ||| 2 } := by
  have rejected : launchCommand (.launch o) s = raise .nokey s := by
    rcases ho with rfl | rfl | rfl <;> simp [launchCommand, launchEnc, launchDec, launchArk, hv]
  rw [exec_command_idle hb, rejected]
  rfl

theorem exec_ark_rkrange {s : State} (hb : s.busy = false) (hv : s.keyValid = true)
    (hr : s.nr.toNat < s.rksel.toNat) : exec .ark s = .next { s with err := s.err ||| 16 } := by
  have rejected : launchCommand (.launch .ark) s = raise .rkrange s := by simp [launchCommand, launchArk, hv, hr]
  have hx : exec .ark s = .next (launchCommand (.launch .ark) s) := exec_command_idle (c := .launch .ark) hb
  rw [hx, rejected]
  rfl

theorem exec_command_busyacc {c : Command} {s : State} (hb : s.busy = true) :
    exec c.instr s = .next { s with err := s.err ||| 8 } := exec_command_busy hb

/-! ## Commands run to their commit (43_sequencer.md R180 to R182) -/

/-- A finished command leaves an idle state as it was, but for the matrix, the latch and the output. -/
theorem ranTo_eq {s : State} (hb : s.busy = false) (o : Op) (m : Matrix4) : ranTo o m s =
    { s with st := m, rdata := 0x00, fsm := .idle, seq := 0, curOp := some o, curArg := s.rksel } := by
  cases s
  cases hb
  rfl

/-- An accepted command, run to its commit, leaves the matrix of its commit. -/
theorem txRun_accepted {o : Op} {s : State} (hb : s.busy = false) (h : LaunchAccepted o s) :
    txRun (txCommand (Command.launch o).instr) s =
      some (ranTo o (commitEffect o { s with curArg := s.rksel }).st s) :=
  txRun_command hb h.1 h.2.1 h.2.2

theorem txRun_enc {s : State} (hb : s.busy = false) (hv : s.keyValid = true) :
    txRun (txCommand .enc) s = some (ranTo .enc (cipher (roundKey s.w) s.nr.toNat s.st) s) :=
  txRun_accepted hb (.enc hv)

theorem txRun_dec {s : State} (hb : s.busy = false) (hv : s.keyValid = true) :
    txRun (txCommand .dec) s = some (ranTo .dec (invCipher (roundKey s.w) s.nr.toNat s.st) s) :=
  txRun_accepted hb (.dec hv)

theorem txRun_ark {s : State} {k : Nat} (hb : s.busy = false) (hv : s.keyValid = true) (hk : s.rksel.toNat = k)
    (hr : k ≤ s.nr.toNat) :
    txRun (txCommand .ark) s = some (ranTo .ark (addRoundKey s.st (roundKey s.w k)) s) := by
  subst hk
  exact txRun_accepted hb (.ark hv hr)

/-! ## The six stage commands (42_block_transform.md R151 to R162) -/

/-- The stage commands and their functions on the state matrix. -/
inductive IsStage : Op → (Matrix4 → Matrix4) → Prop
  | sub : IsStage .sub subBytes
  | isub : IsStage .isub invSubBytes
  | shr : IsStage .shr shiftRows
  | ishr : IsStage .ishr invShiftRows
  | mix : IsStage .mix mixColumns
  | imix : IsStage .imix invMixColumns

section
variable {o : Op} {f : Matrix4 → Matrix4} {s : State}

theorem IsStage.fsmOf_eq (h : IsStage o f) : fsmOf o = .stg := by cases h <;> rfl

theorem IsStage.ne_keyexp (h : IsStage o f) : o ≠ .keyexp := by cases h <;> decide

/-- A stage command needs no key (42_block_transform.md R151). -/
theorem IsStage.accepted (h : IsStage o f) (s : State) : LaunchAccepted o s := by cases h <;> simp [LaunchAccepted]

theorem IsStage.commitEffect_eq (h : IsStage o f) (s : State) : commitEffect o s = { s with st := f s.st } := by
  cases h <;> rfl

theorem IsStage.txRun_command (h : IsStage o f) (hb : s.busy = false) :
    txRun (txCommand (Command.launch o).instr) s = some (ranTo o (f s.st) s) := by
  rw [txRun_accepted hb (h.accepted s), h.commitEffect_eq]

theorem IsStage.txRun_append (h : IsStage o f) {es : List TxEvent} {p : Op} {m : Matrix4}
    (hrun : txRun es s = some (ranTo p m s)) :
    txRun (es ++ txCommand (Command.launch o).instr) s = some (ranTo o (f m) s) :=
  txRun_trans hrun (h.txRun_command (s := ranTo p m s) rfl)

/-- Two stage commands that undo each other restore the state matrix. -/
theorem IsStage.txRun_undo {p : Op} {g : Matrix4 → Matrix4} (h : IsStage o f) (h' : IsStage p g)
    (hgf : ∀ m, g (f m) = m) (hb : s.busy = false) :
    ∃ t, txRun (txCommand (Command.launch o).instr ++ txCommand (Command.launch p).instr) s = some t ∧
      t.st = s.st :=
  ⟨_, h'.txRun_append (h.txRun_command hb), hgf s.st⟩

end

/-! ## Schedules of stage commands (42_block_transform.md R170) -/

/-- Idle with a valid key, the round keys `w` and the round count `nr`. -/
def Ready (w : Vector Word 60) (nr : Nat) (s : State) : Prop :=
  s.busy = false ∧ s.keyValid = true ∧ s.w = w ∧ s.nr.toNat = nr

/-- From every idle state with those round keys the schedule runs through, takes the state matrix through `f`, and
changes nothing else but RKSEL, the sequencer with its latch and the output; so no access of it is rejected. -/
def Performs (w : Vector Word 60) (nr : Nat) (es : List TxEvent) (f : Matrix4 → Matrix4) : Prop :=
  ∀ s, Ready w nr s → ∃ r c q o x v, txRun es s =
    some { s with st := f s.st, rksel := r, fsm := c, seq := q, curOp := o, curArg := x, rdata := v }

section
variable {w : Vector Word 60} {nr : Nat} {es fs : List TxEvent} {f g : Matrix4 → Matrix4}

theorem Performs.append (h : Performs w nr es f) (h' : Performs w nr fs g) :
    Performs w nr (es ++ fs) fun m => g (f m) := fun s hs => by
  obtain ⟨r, c, q, o, x, v, hrun⟩ := h s hs
  obtain ⟨r', c', q', o', x', v', hrun'⟩ :=
    h' { s with st := f s.st, rksel := r, fsm := c, seq := q, curOp := o, curArg := x, rdata := v } hs
  exact ⟨r', c', q', o', x', v', txRun_trans hrun hrun'⟩

theorem Performs.nil : Performs w nr [] id := fun s _ => ⟨s.rksel, s.fsm, s.seq, s.curOp, s.curArg, s.rdata, rfl⟩

/-- One schedule for each index of a list performs the fold of their functions. -/
theorem Performs.flatMap {body : Nat → List TxEvent} {act : Nat → Matrix4 → Matrix4} {l : List Nat}
    (h : ∀ i ∈ l, Performs w nr (body i) (act i)) :
    Performs w nr (l.flatMap body) fun m => l.foldl (fun x i => act i x) m := by
  induction l with
  | nil => exact .nil
  | cons i l ih => exact (h i (by simp)).append (ih fun j hj => h j (by simp [hj]))

theorem IsStage.performs {o : Op} (h : IsStage o f) :
    Performs w nr (txCommand (Command.launch o).instr) f := fun s ⟨hb, _⟩ =>
  ⟨_, _, _, _, _, _, by rw [h.txRun_command hb, ranTo_eq hb]⟩

/-- Setting RKSEL to a round-key index and then ARK adds that round key. -/
theorem performs_txArk {k : Nat} (hk : k ≤ nr) : Performs w nr (txArk k) fun m => addRoundKey m (roundKey w k) := by
  rintro s ⟨hb, hv, rfl, rfl⟩
  have hk8 : (BitVec.ofNat 8 k).toNat = k := by
    rw [BitVec.toNat_ofNat]; exact Nat.mod_eq_of_lt (by omega)
  have hsel : txRun [.access (.wr 0x33 (BitVec.ofNat 8 k))] s =
      some { s with rksel := BitVec.ofNat 8 k, rdata := 0x00 } := by
    simp only [txRun, txStep, exec_wr_idle (s := { s with rdata := 0x00 }) hb]
    rfl
  have hark := txRun_ark (s := { s with rksel := BitVec.ofNat 8 k, rdata := 0x00 }) hb hv hk8 hk
  exact ⟨_, _, _, _, _, _, (txRun_trans hsel hark).trans (congrArg some (ranTo_eq (by exact hb) _ _))⟩

/-- The stage commands of ENC perform the forward cipher (42_block_transform.md R165, R170). -/
theorem performs_encStages (w : Vector Word 60) (nr : Nat) :
    Performs w nr (encStages nr) (cipher (roundKey w) nr) := by
  have round (i : Nat) (hi : i ∈ List.range' 1 (nr - 1)) :
      Performs w nr (txCommand .sub ++ txCommand .shr ++ txCommand .mix ++ txArk i) (encRound (roundKey w i)) :=
    ((IsStage.sub.performs.append IsStage.shr.performs).append IsStage.mix.performs).append
      (performs_txArk (by rw [List.mem_range'_1] at hi; omega))
  have whole := ((((performs_txArk (w := w) (Nat.zero_le nr)).append (.flatMap round)).append
    IsStage.sub.performs).append IsStage.shr.performs).append (performs_txArk (Nat.le_refl nr))
  simp only [← encRounds_eq_foldl] at whole
  exact whole

/-- The stage commands of DEC perform the inverse cipher (42_block_transform.md R167, R170). -/
theorem performs_decStages (w : Vector Word 60) (nr : Nat) :
    Performs w nr (decStages nr) (invCipher (roundKey w) nr) := by
  have round (i : Nat) (hi : i ∈ (List.range' 1 (nr - 1)).reverse) :
      Performs w nr (txArk i ++ txCommand .imix ++ txCommand .ishr ++ txCommand .isub) (decRound (roundKey w i)) :=
    (((performs_txArk (by rw [List.mem_reverse, List.mem_range'_1] at hi; omega)).append
      IsStage.imix.performs).append IsStage.ishr.performs).append IsStage.isub.performs
  have whole := ((((performs_txArk (w := w) (Nat.le_refl nr)).append IsStage.ishr.performs).append
    IsStage.isub.performs).append (.flatMap round)).append (performs_txArk (Nat.zero_le nr))
  simp only [← decRounds_eq_foldl] at whole
  exact whole

end

/-! ## The round keys of a valid key (10_state.md R37) -/

/-- Round key `k` of the expansion of a key of `4 nk` bytes. -/
def expandedRoundKey (nk : Nat) (key : Vector Byte 32) (k : Nat) : Matrix4 :=
  .ofCols fun c => (keyExpansion nk key).getD (4 * k + c.val) .zero

theorem ScheduleInv.roundKey_eq {s : State} (h : ScheduleInv s) {k : Nat} (hk : k ≤ s.nr.toNat) :
    roundKey s.w k = expandedRoundKey (nkOf s.strength) s.key k :=
  congrArg Matrix4.ofCols (funext fun c => h _ (by rw [scheduleWords]; omega))

/-- The key `00 01 .. 0f` of the examples of 42_block_transform.md R166 and R168. -/
def countingKey : Vector Byte 32 := Vector.ofFn fun i => BitVec.ofNat 8 i.val

def examplePlain : Matrix4 :=
  .mat #v[0x00, 0x11, 0x22, 0x33, 0x44, 0x55, 0x66, 0x77, 0x88, 0x99, 0xaa, 0xbb, 0xcc, 0xdd, 0xee, 0xff]

def exampleCoded : Matrix4 :=
  .mat #v[0x69, 0xc4, 0xe0, 0xd8, 0x6a, 0x7b, 0x04, 0x30, 0xd8, 0xcd, 0xb7, 0x80, 0x70, 0xb4, 0xc5, 0x5a]

theorem cipher_example : cipher (expandedRoundKey 4 countingKey) 10 examplePlain = exampleCoded := by
  decide +kernel

/-- With the examples' key expanded, ENC's function takes the one block to the other. -/
theorem cipher_roundKey_example {s : State} (h : KeyInv s) (hv : s.keyValid = true) (hs : s.strength = 128)
    (hkey : ∀ i : Fin 16, s.key[i.val] = BitVec.ofNat 8 i.val) :
    cipher (roundKey s.w) s.nr.toNat examplePlain = exampleCoded := by
  obtain ⟨⟨-, -, hnr⟩, hsched, -⟩ := h hv
  have hnk : nkOf s.strength = 4 := by rw [hs]; rfl
  have hten : s.nr.toNat = 10 := by rw [hnr, hnk]
  have hbyte (i : Nat) (hi : i < 16) : keyByte s.key i = keyByte countingKey i := by
    rw [keyByte_eq_getElem _ (by omega), keyByte_eq_getElem _ (by omega), hkey ⟨i, hi⟩]
    simp [countingKey]
  have hexp : keyExpansion 4 s.key = keyExpansion 4 countingKey := keyExpansion_congr fun i hi => by
    simp only [keyWord, hbyte (4 * i) (by omega), hbyte (4 * i + 1) (by omega), hbyte (4 * i + 2) (by omega),
      hbyte (4 * i + 3) (by omega)]
  have hrk (k : Nat) (hk : k ≤ s.nr.toNat) : roundKey s.w k = expandedRoundKey 4 countingKey k := by
    rw [hsched.roundKey_eq hk, hnk, expandedRoundKey, hexp]; rfl
  rw [cipher_congr hrk, hten, cipher_example]

end Sys2Proof.Machine
end

section
open Sys2Proof Sys2Proof.Machine

/-- Settles O22: NOP's launch is nothing, and the guard of CMD rejects it when busy. -/
theorem nopDoesNothing : Obligations.NopDoesNothing :=
  ⟨rfl, fun _ => ⟨exec_command_idle (c := .nop), exec_command_busyacc (c := .nop)⟩⟩

/-- Settles O23: the launch that no check stops, the race of its BLK reads, and its commit. -/
theorem stageCommandsLaunchAndCommit : Obligations.StageCommandsLaunchAndCommit := by
  intro i o f s hmem hb
  obtain ⟨rfl, h⟩ : i = (Command.launch o).instr ∧ IsStage o f := by
    simp only [List.mem_cons, Prod.mk.injEq, List.not_mem_nil, or_false] at hmem
    rcases hmem with ⟨rfl, rfl, rfl⟩ | ⟨rfl, rfl, rfl⟩ | ⟨rfl, rfl, rfl⟩ | ⟨rfl, rfl, rfl⟩ | ⟨rfl, rfl, rfl⟩ |
      ⟨rfl, rfl, rfl⟩
    exacts [⟨rfl, .sub⟩, ⟨rfl, .isub⟩, ⟨rfl, .shr⟩, ⟨rfl, .ishr⟩, ⟨rfl, .mix⟩, ⟨rfl, .imix⟩]
  refine ⟨launch o s, ?launched, exec_command_accepted hb (h.accepted s), fun a hlo hhi => ?draw, ?commit⟩
  case launched => rw [launch, h.fsmOf_eq]
  case draw => exact exec_rd_race (racingRead_iff.2 ⟨rfl, o, rfl, .inl ⟨h.ne_keyexp, hlo, hhi⟩⟩)
  case commit => simp only [txStep, launch_busy, if_true, commit, launch_curOp, h.commitEffect_eq, finish]

/-- Settles O24: the two substitutions entry by entry; they undo each other. -/
theorem subAndIsub : Obligations.SubAndIsub := by
  refine ⟨rfl, rfl, by decide, fun s hb => ⟨exec_command_busyacc (c := .launch .sub) hb,
    exec_command_busyacc (c := .launch .isub) hb⟩, fun s hb => ⟨subBytes s.st, invSubBytes s.st,
    IsStage.sub.txRun_command hb, IsStage.isub.txRun_command hb, get_subBytes s.st, get_invSubBytes s.st,
    fun h r c => ?zero, fun h => ?sub, fun h => ?isub, IsStage.sub.txRun_undo .isub invSubBytes_subBytes hb,
    IsStage.isub.txRun_undo .sub subBytes_invSubBytes hb⟩⟩
  case zero =>
    rw [get_subBytes, get_invSubBytes, h]
    decide
  case sub => rw [h]; exact subBytes_example
  case isub => rw [h]; exact invSubBytes_example

/-- Settles O25: the two shifts entry by entry; three turns left are one turn right, and undo a fourth. -/
theorem shrAndIshr : Obligations.ShrAndIshr := by
  refine ⟨rfl, rfl, fun s hb => ⟨exec_command_busyacc (c := .launch .shr) hb,
    exec_command_busyacc (c := .launch .ishr) hb⟩, fun s hb => ?_⟩
  have once := IsStage.shr.txRun_command hb
  have thrice := IsStage.shr.txRun_append (IsStage.shr.txRun_append once)
  refine ⟨shiftRows s.st, invShiftRows s.st, once, IsStage.ishr.txRun_command hb, get_shiftRows s.st,
    fun r c => ?right, fun c => ?row0, shiftRows_constantRows, flatAt_shiftRows s.st, fun h => ?shr, fun h => ?ishr,
    ⟨_, IsStage.shr.txRun_append thrice, ?four⟩, ⟨_, thrice, shiftRows_three s.st⟩,
    IsStage.shr.txRun_undo .ishr invShiftRows_shiftRows hb, IsStage.ishr.txRun_undo .shr shiftRows_invShiftRows hb⟩
  case right =>
    have turn : c - r = ⟨(c.val + 4 - r.val) % 4, Nat.mod_lt _ (by decide)⟩ := by revert r c; decide
    rw [get_invShiftRows, turn]
  case row0 => rw [get_shiftRows, add_zero]
  case shr => rw [h]; exact shiftRows_example
  case ishr => rw [h]; exact invShiftRows_example
  case four => exact (congrArg shiftRows (shiftRows_three s.st)).trans (shiftRows_invShiftRows s.st)

/-- Settles O26: each row's multipliers read off the matrices; a column of equal bytes is kept as they add up to 1. -/
theorem mixAndImix : Obligations.MixAndImix := by
  refine ⟨rfl, rfl, fun s hb => ⟨exec_command_busyacc (c := .launch .mix) hb,
    exec_command_busyacc (c := .launch .imix) hb⟩, fun s hb => ⟨mixColumns s.st, invMixColumns s.st,
    IsStage.mix.txRun_command hb, IsStage.imix.txRun_command hb, ?column, fun h r c => ?zero,
    fun h => ?mix, fun h => ?imix, IsStage.mix.txRun_undo .imix invMixColumns_mixColumns hb,
    IsStage.imix.txRun_undo .mix mixColumns_invMixColumns hb⟩⟩
  case column =>
    rintro j a b c d rfl rfl rfl rfl
    refine ⟨get_mixWith mixM s.st 0 j, get_mixWith mixM s.st 1 j, get_mixWith mixM s.st 2 j,
      get_mixWith mixM s.st 3 j, get_mixWith invMixM s.st 0 j, get_mixWith invMixM s.st 1 j,
      get_mixWith invMixM s.st 2 j, get_mixWith invMixM s.st 3 j, fun ⟨hb, hc, hd⟩ => ?equal,
      fun ⟨h0, h1, h2, h3⟩ => col_mixColumns_reduction h0 h1 h2 h3⟩
    have hcol (k : Fin 4) : s.st.get k j = s.st.get 0 j := by
      revert k
      simp [Fin.forall_fin_succ, hb, hc, hd]
    exact ⟨get_mixWith_constantColumn mixM_rowSum hcol, get_mixWith_constantColumn invMixM_rowSum hcol⟩
  case zero => exact get_mixWith_constantColumn mixM_rowSum (fun k => h k c) r
  case mix => rw [h]; exact mixColumns_example
  case imix => rw [h]; exact invMixColumns_example

/-- Settles O27: the checks of ARK in their order. -/
theorem arkLaunchChecks : Obligations.ArkLaunchChecks := fun _ hb =>
  ⟨exec_command_nokey (o := .ark) hb (by simp), exec_ark_rkrange hb,
    fun hv hr => exec_command_accepted (o := .ark) hb (.ark hv hr)⟩

/-- Settles O28: the round key is read entry by entry, and added twice it cancels. -/
theorem arkAddsTheLatchedRoundKey : Obligations.ArkAddsTheLatchedRoundKey := by
  refine ⟨fun s hb hc => ⟨addRoundKey s.st (roundKey s.w s.curArg.toNat), ?commit, fun r c => ?entry⟩,
    fun s hb hv hr => ?twice⟩
  case commit =>
    have hcommit : commit s = finish (commitArk s) := by simp only [commit, hc, commitEffect]
    rw [txStep, if_pos hb, hcommit]
    rfl
  case entry => rw [get_addRoundKey, get_roundKey]
  case twice =>
    have first := txRun_ark hb hv rfl hr
    have second := txRun_ark (s := ranTo .ark (addRoundKey s.st (roundKey s.w s.rksel.toNat)) s) rfl hv rfl hr
    rw [txRun_trans first second]
    simp only [ranTo, addRoundKey_addRoundKey, hb]

/-- Settles O29: the launch checks, the rounds as a fold, and the example's round keys from its key. -/
theorem encCommand : Obligations.EncCommand := by
  refine ⟨rfl, fun s hb => exec_command_busyacc (c := .launch .enc) hb,
    fun s hb hv => exec_command_nokey (o := .enc) hb (by simp) hv, fun s hb hv => ⟨?launch, ?run⟩,
    fun s hk hv => ?count, fun s hk hb hv hs hkey hst => ?block⟩
  case launch => exact exec_command_accepted (o := .enc) hb (.enc hv)
  case run =>
    refine ⟨_, txRun_enc hb hv, ?_⟩
    rw [cipher, encRounds_eq_foldl]
    rfl
  case count => exact (hk hv).1.cases.imp (·.2.2) (.imp (·.2.2) (·.2.2))
  case block =>
    refine ⟨_, txRun_enc hb hv, ?_⟩
    rw [hst]
    exact cipher_roundKey_example hk hv hs hkey

/-- Settles O30: as ENC; the example is ENC's, undone. -/
theorem decCommand : Obligations.DecCommand := by
  refine ⟨rfl, fun s hb => exec_command_busyacc (c := .launch .dec) hb,
    fun s hb hv => exec_command_nokey (o := .dec) hb (by simp) hv, fun s hb hv => ⟨?launch, ?run⟩,
    fun s hk hb hv hs hkey hst => ?block⟩
  case launch => exact exec_command_accepted (o := .dec) hb (.dec hv)
  case run =>
    refine ⟨_, txRun_dec hb hv, ?_⟩
    rw [invCipher, decRounds_eq_foldl]
    rfl
  case block =>
    have hcoded : s.st = exampleCoded := hst
    refine ⟨_, txRun_dec hb hv, ?_⟩
    rw [hcoded, ← cipher_roundKey_example hk hv hs hkey]
    exact invCipher_cipher _ _ _

/-- Settles O53: the ciphers undo each other, so the second command leaves the matrix the first one found. -/
theorem encryptDecryptRoundTrip : Obligations.EncryptDecryptRoundTrip := by
  refine ⟨fun s _ _ m => ⟨invCipher_cipher _ _ m, cipher_invCipher _ _ m⟩, fun s h hb hv => ?_⟩
  obtain ⟨hseq, -, -, hq⟩ := h
  obtain ⟨hfsm, -⟩ := hseq.1 hb
  constructor
  · have dec := txRun_dec (s := ranTo .enc (cipher (roundKey s.w) s.nr.toNat s.st) s) rfl hv
    rw [txRun_trans (txRun_enc hb hv) dec]
    simp only [ranTo, invCipher_cipher, hb, hfsm, hq]
  · have enc := txRun_enc (s := ranTo .dec (invCipher (roundKey s.w) s.nr.toNat s.st) s) rfl hv
    rw [txRun_trans (txRun_dec hb hv) enc]
    simp only [ranTo, cipher_invCipher, hb, hfsm, hq]

/-- Settles O54: the stages one after the other perform the cipher that the command's commit applies at once. -/
theorem blockCommandsEqualTheirStages : Obligations.BlockCommandsEqualTheirStages := by
  intro s _ hb hv
  have ready : Ready s.w s.nr.toNat s := ⟨hb, hv, rfl, rfl⟩
  obtain ⟨_, _, _, _, _, _, enc⟩ := performs_encStages s.w s.nr.toNat s ready
  obtain ⟨_, _, _, _, _, _, dec⟩ := performs_decStages s.w s.nr.toNat s ready
  exact ⟨⟨_, _, enc, txRun_enc hb hv, rfl, rfl, hv⟩, ⟨_, _, dec, txRun_dec hb hv, rfl, rfl, hv⟩⟩

end

section
/-! PROOF. The micro-sequence of a command (43_sequencer.md R185 to R187, obligation O38): its micro-steps one after the
other are its commit; those of ENC and DEC round by round, those of KEYEXP by the words they leave. -/

namespace Sys2Proof.Machine

/-! ## Numbered steps in a row (43_sequencer.md R187) -/

/-- The steps numbered 0 to `n - 1`, in order. -/
def runSteps {α : Type} (f : Nat → α → α) : Nat → α → α
  | 0, x => x
  | n + 1, x => f n (runSteps f n x)

theorem runSteps_succ {α : Type} (f : Nat → α → α) (n : Nat) (x : α) :
    runSteps f (n + 1) x = f n (runSteps f n x) := rfl

/-- Steps 0 to `4i` of ENC are the opening and `i` full rounds. -/
theorem runSteps_encMicro {rk : Nat → Matrix4} {nr i : Nat} (h : i < nr) (m : Matrix4) :
    runSteps (encMicro rk nr) (4 * i + 1) m = encRounds rk i (addRoundKey m (rk 0)) := by
  induction i with
  | zero => rfl
  | succ i ih =>
    rw [show 4 * (i + 1) + 1 = 4 * i + 1 + 4 by omega, runSteps_succ, runSteps_succ, runSteps_succ, runSteps_succ,
      ih (by omega), encMicro_sub, encMicro_shift, encMicro_mix h, encMicro_ark h]
    rfl

/-- All `4 nr` steps of ENC are the forward cipher (42_block_transform.md R165). -/
theorem runSteps_encMicro_all {rk : Nat → Matrix4} {nr : Nat} (h : 0 < nr) (m : Matrix4) :
    runSteps (encMicro rk nr) (4 * nr) m = cipher rk nr m := by
  obtain ⟨i, rfl⟩ := Nat.exists_eq_add_one.2 h
  rw [show 4 * (i + 1) = 4 * i + 1 + 3 by omega, runSteps_succ, runSteps_succ, runSteps_succ,
    runSteps_encMicro (by omega), encMicro_sub, encMicro_shift, encMicro_last rfl]
  rfl

/-- Steps 0 to `4j + 2` of DEC are the opening and the first `j` full rounds: the rounds that are left make up all of
them. -/
theorem decRounds_runSteps_decMicro {rk : Nat → Matrix4} {nr j : Nat} (h : j < nr) (m : Matrix4) :
    decRounds rk (nr - 1 - j) (runSteps (decMicro rk nr) (4 * j + 3) m) =
      decRounds rk (nr - 1) (invSubBytes (invShiftRows (addRoundKey m (rk nr)))) := by
  induction j with
  | zero => rfl
  | succ j ih =>
    have hround : runSteps (decMicro rk nr) (4 * (j + 1) + 3) m =
        decRound (rk (nr - 1 - j)) (runSteps (decMicro rk nr) (4 * j + 3) m) := by
      rw [runSteps_succ, decMicro_sub, runSteps_succ, decMicro_shift, show 4 * (j + 1) + 1 = 4 * j + 3 + 2 by omega,
        runSteps_succ, decMicro_mix, runSteps_succ, decMicro_ark]
      rfl
    rw [hround, ← ih (by omega), show nr - 1 - j = nr - 1 - (j + 1) + 1 by omega, decRounds]

/-- All `4 nr` steps of DEC are the inverse cipher (42_block_transform.md R167). -/
theorem runSteps_decMicro_all {rk : Nat → Matrix4} {nr : Nat} (h : 0 < nr) (m : Matrix4) :
    runSteps (decMicro rk nr) (4 * nr) m = invCipher rk nr m := by
  obtain ⟨j, rfl⟩ := Nat.exists_eq_add_one.2 h
  have hrounds := decRounds_runSteps_decMicro (rk := rk) (nr := j + 1) (j := j) (by omega) m
  rw [Nat.add_sub_cancel, Nat.sub_self, decRounds] at hrounds
  rw [show 4 * (j + 1) = 4 * j + 3 + 1 by omega, runSteps_succ, decMicro_ark, hrounds, Nat.add_sub_cancel, Nat.sub_self]
  rfl

/-! ## The micro-steps of a command in a row (43_sequencer.md R186, R187) -/

theorem runSteps_microEffect_eq (o : Op) (n : Nat) (s : State) :
    ∃ m w, runSteps (microEffect o) n s = { s with st := m, w := w } := by
  induction n with
  | zero => exact ⟨_, _, rfl⟩
  | succ n ih =>
    obtain ⟨m, w, h⟩ := ih
    obtain ⟨m', w', h'⟩ := microEffect_eq o n { s with st := m, w := w }
    exact ⟨m', w', by rw [runSteps_succ, h, h']⟩

/-- Micro-steps that act on the state matrix alone. -/
theorem runSteps_microEffect_matrix {o : Op} {f : Nat → Matrix4 → Matrix4} {s : State}
    (h : ∀ n m, microEffect o n { s with st := m } = { s with st := f n m }) (n : Nat) :
    runSteps (microEffect o) n s = { s with st := runSteps f n s.st } := by
  induction n with
  | zero => rfl
  | succ n ih => rw [runSteps_succ, ih, h, runSteps_succ]

/-- KEYEXP's micro-steps write only the round-key memory, and keep the words above the schedule (41_key_schedule.md
R144). -/
theorem runSteps_microEffect_keyexp {n : Nat} {s : State} (hn : n ≤ latency .keyexp s) :
    ∃ w, runSteps (microEffect .keyexp) n s = { s with w := w } ∧
      ∀ i < 60, scheduleWords s.nr.toNat ≤ i → wordAt w i = wordAt s.w i := by
  induction n with
  | zero => exact ⟨s.w, rfl, fun _ _ _ => rfl⟩
  | succ n ih =>
    obtain ⟨w, hw, hkept⟩ := ih (by omega)
    simp only [latency] at hn
    rw [runSteps_succ, hw]
    simp only [microEffect, keyexpMicro]
    split
    · refine ⟨_, rfl, fun i hi hge => ?_⟩
      rw [wordAt_loadKeyWords hi, if_neg (by omega), hkept i hi hge]
    · refine ⟨_, rfl, fun i hi hge => ?_⟩
      rw [wordAt_setIfInBounds hi, if_neg (by omega), hkept i hi hge]

theorem commit_eq_commitEffect {s : State} {o : Op} (hc : s.curOp = some o) : commit s = finish (commitEffect o s) := by
  simp only [commit, hc]

/-- The counter is below the latency, and the latency fits the counter (43_sequencer.md R186). -/
theorem CycleInv.seq_bounds {s : State} {o : Op} (h : CycleInv s) (hb : s.busy = true) (hc : s.curOp = some o) :
    s.seq.toNat < latency o s ∧ latency o s < 64 := by
  obtain ⟨-, hkey, hflight, hprogress⟩ := h
  exact ⟨(hprogress hb o hc).1, (latency_in_flight hkey hflight hb hc).2⟩

/-- The step counter holds every number below the latency. -/
theorem toNat_seq {n : Nat} (h : n < 64) : (BitVec.ofNat 6 n).toNat = n := by
  rw [BitVec.toNat_ofNat]; exact Nat.mod_eq_of_lt h

@[simp] theorem latency_runSteps_microEffect (o p : Op) (n : Nat) (s : State) :
    latency p (runSteps (microEffect o) n s) = latency p s := by
  obtain ⟨m, w, h⟩ := runSteps_microEffect_eq o n s
  rw [h]
  cases p <;> rfl

@[simp] theorem runSteps_microEffect_curOp (o : Op) (n : Nat) (s : State) :
    (runSteps (microEffect o) n s).curOp = s.curOp := by
  obtain ⟨m, w, h⟩ := runSteps_microEffect_eq o n s
  rw [h]

/-- Micro-step `n` with the counter written as a number: the last one ends the command. -/
theorem microStep_withSeq {s : State} {o : Op} (hc : s.curOp = some o) {n : Nat} (hn : n < 64) :
    microStep { s with seq := BitVec.ofNat 6 n } =
      if n + 1 = latency o s then finish (lastEffect o (microEffect o n s))
      else { microEffect o n s with seq := BitVec.ofNat 6 (n + 1) } := by
  have hlat : latency o { s with seq := BitVec.ofNat 6 n } = latency o s := by cases o <;> rfl
  rcases microStep_cases (s := { s with seq := BitVec.ofNat 6 n }) hc with ⟨hl, h⟩ | ⟨hl, h⟩ <;>
    rw [hlat, toNat_seq hn] at hl <;> rw [h, toNat_seq hn, microEffect_withSeq]
  · rw [if_pos hl]
    cases o <;> rfl
  · rw [if_neg hl, BitVec.ofNat_add]
    rfl

/-- Before its last cycle a command has taken as many micro-steps as `seq` counts. -/
theorem microRun_in_flight {s : State} {o : Op} (h : TxInv s) (hb : s.busy = true) (hc : s.curOp = some o) {n : Nat}
    (hn : n < latency o s) : microRun n s = { runSteps (microEffect o) n s with seq := BitVec.ofNat 6 n } := by
  have hmax := (h.cycleInv.seq_bounds hb hc).2
  obtain ⟨-, -, -, hq⟩ := h
  induction n with
  | zero => rw [show BitVec.ofNat 6 0 = s.seq from hq.symm]; rfl
  | succ n ih =>
    rw [microRun_succ, ih (by omega), microStep_withSeq (by simpa using hc) (by omega), latency_runSteps_microEffect,
      if_neg (by omega)]
    rfl

theorem microRun_busy {s : State} {o : Op} (h : TxInv s) (hb : s.busy = true) (hc : s.curOp = some o) {n : Nat}
    (hn : n < latency o s) : (microRun n s).busy = true := by
  obtain ⟨m, w, hr⟩ := runSteps_microEffect_eq o n s
  rw [microRun_in_flight h hb hc hn, hr]
  exact hb

theorem microRun_seq {s : State} {o : Op} (h : TxInv s) (hb : s.busy = true) (hc : s.curOp = some o) {n : Nat}
    (hn : n < latency o s) : (microRun n s).seq = BitVec.ofNat 6 n := by rw [microRun_in_flight h hb hc hn]

/-- The last micro-step ends the command. -/
theorem microRun_latency {s : State} {o : Op} (h : TxInv s) (hb : s.busy = true) (hc : s.curOp = some o) :
    microRun (latency o s) s = finish (lastEffect o (runSteps (microEffect o) (latency o s) s)) := by
  obtain ⟨hpos, hmax⟩ := h.cycleInv.seq_bounds hb hc
  obtain ⟨n, hn⟩ : ∃ n, latency o s = n + 1 := Nat.exists_eq_add_one.2 (by omega)
  rw [hn, microRun_succ, microRun_in_flight h hb hc (by omega), microStep_withSeq (by simpa using hc) (by omega),
    latency_runSteps_microEffect, if_pos hn.symm]
  rfl

/-- A command's micro-steps keep the invariant of the cycle level, the last one too. -/
theorem microRun_cycleInv {s : State} {o : Op} (h : TxInv s) (hb : s.busy = true) (hc : s.curOp = some o) {n : Nat}
    (hn : n ≤ latency o s) : CycleInv (microRun n s) := by
  induction n with
  | zero => exact h.cycleInv
  | succ n ih =>
    rw [microRun_succ]
    exact microStep_cycleInv (ih (by omega)) (microRun_busy h hb hc hn)

/-- KEYEXP's micro-steps leave the words its commit leaves: the expansion, which the key invariant at the end gives, and
the words above it, which no micro-step writes. -/
theorem microRun_keyexp {s : State} (h : TxInv s) (hb : s.busy = true) (hc : s.curOp = some .keyexp) :
    microRun (latency .keyexp s) s = commit s := by
  have ⟨_, _, hflight, _⟩ := h
  obtain ⟨hconfig, -, -⟩ := hflight hb
  obtain ⟨w, hw, hkept⟩ := runSteps_microEffect_keyexp (Nat.le_refl (latency .keyexp s))
  obtain ⟨w', hcommit, hsched', hkept'⟩ := commit_keyexp hc (hconfig hc).1
  have hrun : microRun (latency .keyexp s) s = finish { s with w := w, keyValid := true } := by
    rw [microRun_latency h hb hc, hw]
    rfl
  have hinv : CycleInv (finish { s with w := w, keyValid := true }) := hrun ▸ microRun_cycleInv h hb hc (Nat.le_refl _)
  obtain ⟨-, hkey, -, -⟩ := hinv
  obtain ⟨-, hsched, -⟩ := hkey rfl
  obtain rfl : w = w' := eq_of_wordAt fun i hi => by
    rcases Nat.lt_or_ge i (scheduleWords s.nr.toNat) with hlt | hge
    · exact (hsched i hlt).trans (hsched' i hlt).symm
    · exact (hkept i hi hge).trans (hkept' i hi hge).symm
  rw [hrun, hcommit]

/-- A command's micro-steps are its atomic commit (43_sequencer.md R187 against R182). -/
theorem microRun_eq_commit {s : State} {o : Op} (h : TxInv s) (hb : s.busy = true) (hc : s.curOp = some o) :
    microRun (latency o s) s = commit s := by
  by_cases hk : o = .keyexp
  · subst hk; exact microRun_keyexp h hb hc
  have hnr (ho : o = .enc ∨ o = .dec) : 0 < s.nr.toNat := by
    obtain ⟨-, hkey, hflight, -⟩ := h
    obtain ⟨-, hvalid, -⟩ := hflight hb
    obtain ⟨⟨-, -, hn⟩, -⟩ := hkey (hvalid (by rcases ho with rfl | rfl <;> simp [hc]))
    omega
  rw [microRun_latency h hb hc, lastEffect_matrix hk, commit_eq_commitEffect hc]
  cases o
  case keyexp => exact absurd rfl hk
  case enc =>
    rw [runSteps_microEffect_matrix (f := encMicro (roundKey s.w) s.nr.toNat) (fun _ _ => rfl), latency,
      runSteps_encMicro_all (hnr (by simp))]
    rfl
  case dec =>
    rw [runSteps_microEffect_matrix (f := decMicro (roundKey s.w) s.nr.toNat) (fun _ _ => rfl), latency,
      runSteps_decMicro_all (hnr (by simp))]
    rfl
  all_goals rfl

end Sys2Proof.Machine
end

section
/-! PROOF. The two levels (43_sequencer.md R185, R189; obligations O36, O40 and O9): an access commutes with the
micro-steps of the command in flight, so every cycle is a schedule of the transaction level; and a weakly fair core ends
every command. -/

namespace Sys2Proof.Machine

/-! ## An access and the core's micro-steps (43_sequencer.md R185, R189) -/

theorem txStep_commit {s : State} (hb : s.busy = true) : txStep .commit s = some (commit s) := by
  rw [txStep, if_pos hb]

theorem commitEffect_withOutput (o : Op) (s : State) (e : BitVec 5) (v : Byte) (n : Nat) :
    commitEffect o { s with err := e, rdata := v, draws := n } =
      { commitEffect o s with err := e, rdata := v, draws := n } := by
  cases o <;> rfl

theorem commit_eq_finish {s : State} (hc : s.curOp = none) : commit s = finish s := by simp only [commit, hc]

/-- A commit neither reads nor writes the errors, the output and the draw count (43_sequencer.md R182). -/
theorem commit_withOutput (s : State) (e : BitVec 5) (v : Byte) (n : Nat) :
    commit { s with err := e, rdata := v, draws := n } = { commit s with err := e, rdata := v, draws := n } := by
  rcases Option.eq_none_or_eq_some s.curOp with hc | ⟨o, hc⟩
  · rw [commit_eq_finish hc, commit_eq_finish (s := { s with err := e, rdata := v, draws := n }) hc]
    rfl
  · rw [commit_eq_commitEffect hc, commit_eq_commitEffect (s := { s with err := e, rdata := v, draws := n }) hc,
      commitEffect_withOutput]
    rfl

theorem microRun_withHostSide (k : Nat) (s : State) (l : List Pins) (e : BitVec 5) (v : Byte) (n : Nat) :
    microRun k { s with inputs := l, err := e, rdata := v, draws := n } =
      { microRun k s with inputs := l, err := e, rdata := v, draws := n } := by
  induction k with
  | zero => rfl
  | succ k ih => rw [microRun_succ, ih, microStep_withHostSide, microRun_succ]

/-- Micro-steps leave the errors, the key, the configuration, the round count, the latch and the host's side
(43_sequencer.md R185). -/
theorem microRun_eq (k : Nat) (s : State) :
    ∃ m w v b f q, microRun k s = { s with st := m, w := w, keyValid := v, busy := b, fsm := f, seq := q } := by
  induction k with
  | zero => exact ⟨_, _, _, _, _, _, rfl⟩
  | succ k ih =>
    obtain ⟨m, w, v, b, f, q, h⟩ := ih
    rw [microRun_succ, h]
    exact microStep_eq { s with st := m, w := w, keyValid := v, busy := b, fsm := f, seq := q }

theorem beginCycle_microRun (k : Nat) (s : State) : beginCycle (microRun k s) = microRun k (beginCycle s) := by
  obtain ⟨m, w, v, b, f, q, h⟩ := microRun_eq k s
  have hb : microRun k (beginCycle s) =
      { microRun k s with inputs := s.inputs.tail, err := s.err, rdata := 0x00, draws := s.draws } :=
    microRun_withHostSide k s s.inputs.tail s.err 0x00 s.draws
  rw [hb, h]
  rfl

/-- While a command is in flight an access that is no read looks only at `err` (20_memory.md R61, R62). -/
theorem exec_busy_cases (i : Instr) : (∃ a, i = .rd a) ∨
    ∃ f : BitVec 5 → BitVec 5, ∀ s : State, s.busy = true → exec i s = .next { s with err := f s.err } := by
  rcases instr_cases i with ⟨a, rfl⟩ | ⟨a, d, rfl⟩ | ⟨c, rfl⟩
  · exact .inl ⟨a, rfl⟩
  · refine .inr ?_
    by_cases ha : a.toNat ≤ 0x34
    · exact ⟨(errSet · .busyacc), fun s hb => exec_wr_busy hb ha⟩
    have hx (s : State) : exec (.wr a d) s = .next (regStore d s (regAt a)) := exec_wr_high (by omega)
    have hr := regHas_regAt a
    cases hreg : regAt a <;> rw [hreg] at hr hx <;> simp only [regHas, beq_iff_eq, decide_eq_true_eq] at hr
    case err => exact ⟨(errCleared · d), fun s _ => hx s⟩
    case status | nr | rkdata | reserved => exact ⟨id, fun s _ => hx s⟩
    all_goals omega
  · exact .inr ⟨(errSet · .busyacc), fun s hb => exec_command_busy hb⟩

/-- While busy an access and a micro-step act on different elements, so they commute (43_sequencer.md R185). -/
theorem microStep_of_exec {i : Instr} {s t : State} (hb : s.busy = true) (hx : exec i s = .next t) :
    microStep t = { microStep s with err := t.err, rdata := t.rdata, draws := t.draws } := by
  obtain ⟨_, _, _, _, _, _, hm⟩ := microStep_eq s
  have ht := exec_busy hb hx
  have hcore := microStep_withHostSide s s.inputs t.err t.rdata t.draws
  rw [← ht] at hcore
  rw [hcore, hm]

/-- An access does the same before a micro-step as after it, unless the micro-step ends the command: a read of what the
micro-step writes is a race, and returns the next draw in both orders (20_memory.md R62). -/
theorem exec_microStep {i : Instr} {s t : State} {o : Op} (hb : s.busy = true) (hc : s.curOp = some o)
    (hm : (microStep s).busy = true) (hx : exec i s = .next t) : exec i (microStep s) = .next (microStep t) := by
  obtain ⟨m, w, v, b, f, q, hs⟩ := microStep_eq s
  rw [microStep_of_exec hb hx]
  rcases exec_busy_cases i with ⟨a, rfl⟩ | ⟨g, hg⟩
  · have hrace : racingRead a (microStep s) = racingRead a s := by simp only [racingRead, hm, hb]; rw [hs]
    cases hr : racingRead a s <;> rw [hr] at hrace
    · have hquiet := mt racingRead_iff.2 (Bool.eq_false_iff.1 hr)
      rw [exec_rd_exact hr] at hx
      cases hx
      rw [exec_rd_exact hrace,
        regRead_microStep hc (fun h => hquiet ⟨hb, o, hc, .inl h⟩) (fun h => hquiet ⟨hb, o, hc, .inr h⟩) hm, hs]
    · rw [exec_rd_race hr] at hx
      cases hx
      rw [exec_rd_race hrace, hs]
  · rw [hg s hb] at hx
    cases hx
    rw [hg _ hm, hs]

/-- So it does before any number of micro-steps short of the last. -/
theorem exec_microRun {i : Instr} {s t : State} {o : Op} (h : TxInv s) (hb : s.busy = true) (hc : s.curOp = some o)
    {n : Nat} (hn : n < latency o s) (hx : exec i s = .next t) : exec i (microRun n s) = .next (microRun n t) := by
  induction n with
  | zero => exact hx
  | succ n ih =>
    have hcn : (microRun n s).curOp = some o := by
      rw [microRun_in_flight h hb hc (by omega)]
      simpa using hc
    have hbn := microRun_busy h hb hc hn
    rw [microRun_succ] at hbn
    rw [microRun_succ, microRun_succ]
    exact exec_microStep (microRun_busy h hb hc (by omega)) hcn hbn (ih (by omega))

/-! ## The two levels in step (43_sequencer.md R189) -/

theorem exec_cycleInv {i : Instr} {s t : State} (h : CycleInv s) (hx : exec i s = .next t) : CycleInv t := by
  cases hb : s.busy
  · exact (exec_idle_txInv (h.txInv hb) hb hx).cycleInv
  · rw [exec_busy hb hx]
    exact h

theorem Matches.eq_of_idle {t c : State} (h : Matches t c) (hc : CycleInv c) (hb : c.busy = false) : c = t := by
  obtain ⟨-, -, hrun⟩ := h
  rw [(hc.1.1 hb).2] at hrun
  exact hrun

/-- In a matching pair in flight the cycle level is short of the transaction level's latency. -/
theorem Matches.seq_lt_latency {t c : State} {o : Op} (h : Matches t c) (hc : CycleInv c) (hb : t.busy = true)
    (ho : t.curOp = some o) : c.seq.toNat < latency o t := by
  obtain ⟨-, hbusy, hrun⟩ := h
  obtain ⟨m, w, v, b, f, q, hm⟩ := microRun_eq c.seq.toNat t
  rw [← hrun] at hm
  have hco : c.curOp = some o := by rw [hm]; exact ho
  have hlat : latency o c = latency o t := by rw [hm]; cases o <;> rfl
  rw [← hlat]
  exact (hc.seq_bounds (hbusy.trans hb) hco).1

theorem Matches.of_beginCycle {t c : State} (h : Matches t c) : Matches (beginCycle t) (beginCycle c) := by
  obtain ⟨hq, hb, hrun⟩ := h
  exact ⟨hq, hb, (congrArg beginCycle hrun).trans (beginCycle_microRun _ t)⟩

/-- The same access at both levels keeps them in step. -/
theorem Matches.of_exec {i : Instr} {t c t' : State} (h : Matches t c) (ht : TxInv t) (hc : CycleInv c)
    (hx : exec i t = .next t') : ∃ c', exec i c = .next c' ∧ Matches t' c' := by
  have ⟨_, _, _, hseq⟩ := exec_txInv ht hx
  have ⟨_, hbusy, hrun⟩ := h
  cases hb : t.busy
  case false =>
    obtain rfl := h.eq_of_idle hc (hbusy.trans hb)
    exact ⟨t', hx, hseq, rfl, by rw [hseq]; rfl⟩
  case true =>
    obtain ⟨o, ho, -⟩ := ht.1.2 hb
    have hxc := exec_microRun ht hb ho (h.seq_lt_latency hc hb ho) hx
    rw [← hrun] at hxc
    have hframe := exec_busy (hbusy.trans hb) hxc
    have hframe' := exec_busy hb hx
    refine ⟨_, hxc, hseq, ?_, ?_⟩
    · rw [hframe, hframe']; exact hbusy
    · have hseq' : (microRun c.seq.toNat t').seq = c.seq := by rw [hframe]
      rw [hseq']

/-- The core's micro-step keeps the levels in step: the last one matches the commit, any other no transaction. -/
theorem Matches.of_microStep {t c : State} (h : Matches t c) (ht : TxInv t) (hc : CycleInv c) (hb : t.busy = true) :
    ((microStep c).busy = false ∧ Matches (commit t) (microStep c)) ∨
    ((microStep c).busy = true ∧ Matches t (microStep c)) := by
  obtain ⟨o, ho, -⟩ := ht.1.2 hb
  have hlt := h.seq_lt_latency hc hb ho
  obtain ⟨hq, -, hrun⟩ := h
  have hnext : microStep c = microRun (c.seq.toNat + 1) t := by rw [microRun_succ, ← hrun]
  by_cases hl : c.seq.toNat + 1 = latency o t
  · rw [hnext, hl, microRun_eq_commit ht hb ho]
    obtain ⟨m, w, v, hcommit, -⟩ := commit_eq t
    rw [hcommit]
    exact .inl ⟨rfl, rfl, rfl, rfl⟩
  · have hseq : (microRun (c.seq.toNat + 1) t).seq.toNat = c.seq.toNat + 1 := by
      have hmax := (ht.cycleInv.seq_bounds hb ho).2
      rw [microRun_seq ht hb ho (by omega), toNat_seq (by omega)]
    have hbn := microRun_busy ht hb ho (n := c.seq.toNat + 1) (by omega)
    rw [hnext]
    exact .inr ⟨hbn, hq, hbn.trans hb.symm, by rw [hseq]⟩

/-- The core's turn at the end of a cycle is the commit where it ends the command, and no transaction elsewhere. -/
theorem Matches.of_coreTurn {t c : State} {b : Bool} (h : Matches t c) (ht : TxInv t) (hc : CycleInv c)
    (hb : b = true → c.busy = true) :
    ∃ t', txRun (if b = true ∧ (coreTurn b c).busy = false then [.commit] else []) t = some t' ∧ TxInv t' ∧
      Matches t' (coreTurn b c) := by
  cases b
  case false => exact ⟨t, rfl, ht, h⟩
  case true =>
    have ⟨_, hbusy, _⟩ := h
    have htb : t.busy = true := hbusy.symm.trans (hb rfl)
    rcases h.of_microStep ht hc htb with ⟨hm, hmatch⟩ | ⟨hm, hmatch⟩
    · refine ⟨commit t, ?_, commit_txInv ht htb, hmatch⟩
      simp [coreTurn, hm, txRun, txStep_commit htb]
    · refine ⟨t, ?_, ht, hmatch⟩
      simp [coreTurn, hm, txRun]

/-! ## The end of a command in a fair execution (43_sequencer.md R189) -/

theorem Executes.txStep_eq {sched : Nat → Option TxEvent} {run : Nat → State} (hx : Executes sched run) {n : Nat}
    {e : TxEvent} (he : sched n = some e) : txStep e (run n) = some (run (n + 1)) := by
  have h := hx n
  rw [he] at h
  exact h

theorem commit_busy (s : State) : (commit s).busy = false := by
  obtain ⟨m, w, v, h, -⟩ := commit_eq s
  rw [h]

/-- The event ends a command in flight. -/
def EndsCommand (e : Option TxEvent) : Prop := e = some .commit ∨ e = some .reset

/-- Up to the first end of a command the host alone acts; without one it would be busy for ever, against fairness. -/
theorem FairExecution.exists_first_end {sched : Nat → Option TxEvent} {run : Nat → State}
    (h : FairExecution sched run) {n : Nat} (hb : (run n).busy = true) :
    ∃ d, EndsCommand (sched (n + d)) ∧ ∀ k < d, ¬ EndsCommand (sched (n + k)) := by
  obtain ⟨hx, hfair⟩ := h
  have hend : ∃ d, EndsCommand (sched (n + d)) := by
    by_contra hnone
    have hnone' (m : Nat) (hm : n ≤ m) : ¬ EndsCommand (sched m) := fun he =>
      hnone ⟨m - n, by rwa [Nat.add_sub_of_le hm]⟩
    have hbusy (m : Nat) (hm : n ≤ m) : (run m).busy = true := by
      have hframe := hx.busy_frame hb (m - n) fun k hk _ => not_or.1 (hnone' k hk)
      rw [Nat.add_sub_of_le hm] at hframe
      rw [hframe]
      exact hb
    obtain ⟨m, hm, hcommit⟩ := hfair n hbusy
    exact hnone' m hm (.inl hcommit)
  classical
  exact ⟨Nat.find hend, Nat.find_spec hend, fun k hk => Nat.find_min hend hk⟩

end Sys2Proof.Machine
end

section
/-! PROOF. One clock cycle (43_sequencer.md R183 to R188; obligations O39, O41, O5 and O6): its access, its pins, what
the state machine does in it, and the cycles of a command in a row. -/

namespace Sys2Proof.Machine

/-! ## One cycle (43_sequencer.md R184, R185) -/

/-- A cycle with an access. -/
theorem step_access {s t : State} (hr : (nextPins s).rst = false) (he : (nextPins s).en = true)
    (hx : exec (decodeWord (nextPins s).word) (beginCycle s) = .next t) : step s = .next (coreTurn s.busy t) := by
  simp [step, hr, he, hx]

theorem step_noAccess {s : State} (hr : (nextPins s).rst = false) (he : (nextPins s).en = false) :
    step s = .next (coreTurn s.busy (beginCycle s)) := by
  simp [step, hr, he]

/-- Every cycle has a next state. -/
theorem step_next (s : State) : ∃ t, step s = .next t := by
  cases hr : (nextPins s).rst
  case true => exact ⟨_, by simp [step, hr]; rfl⟩
  cases he : (nextPins s).en
  · exact ⟨_, step_noAccess hr he⟩
  · obtain ⟨t, ht⟩ := exec_next (decodeWord (nextPins s).word) (beginCycle s)
    exact ⟨_, step_access hr he ht⟩

@[simp] theorem ofWord_word (w : BitVec 17) : (Pins.ofWord w).word = w := busWord_fields w

theorem nextPins_withFetchWord (s : State) (nbits w : Nat) :
    nextPins (s.withFetchWord nbits w) = .ofWord (BitVec.ofNat 17 (w % 2 ^ nbits)) := rfl

theorem exec_inputs {i : Instr} {s t : State} (hx : exec i s = .next t) : t.inputs = s.inputs := by
  cases hb : s.busy
  · obtain ⟨j, hw, hj⟩ := exec_eq_wellFormed i s
    rcases exec_idle_cases hw hb (hj.trans hx) with
      ⟨-, m, r, e, v, n, rfl⟩ | ⟨-, k, x, l, e, rfl⟩ | ⟨-, -, rfl⟩ | ⟨-, o, -, -, -, rfl⟩ <;> rfl
  · rw [exec_busy hb hx]

theorem coreTurn_inputs (b : Bool) (s : State) : (coreTurn b s).inputs = s.inputs := by
  obtain ⟨_, _, _, _, _, _, h⟩ := microStep_eq s
  cases b
  · rfl
  · rw [coreTurn, if_pos rfl, h]

/-- A cycle takes its pins off the queue. -/
theorem step_inputs {s t : State} (hx : step s = .next t) : t.inputs = s.inputs.tail := by
  rcases step_cases hx with ⟨-, rfl⟩ | ⟨-, -, u, hu, rfl⟩ | ⟨-, -, rfl⟩
  · rw [resetCycle]
    split <;> rfl
  · rw [coreTurn_inputs, exec_inputs hu, beginCycle_inputs]
  · rw [coreTurn_inputs, beginCycle_inputs]

/-! ## The state machine (43_sequencer.md R183) -/

theorem SeqInv.busy_iff {s : State} (h : SeqInv s) : s.busy = true ↔ s.fsm ≠ .idle := by
  cases hb : s.busy
  · simp [(h.1 hb).1]
  · obtain ⟨o, -, hf⟩ := h.2 hb
    rw [hf]
    cases o <;> simp [fsmOf]

/-- A cycle of a command in flight: its last ends the command, any other counts on. -/
theorem step_in_flight {s t : State} {o : Op} (hr : (nextPins s).rst = false) (hb : s.busy = true)
    (hc : s.curOp = some o) (hx : step s = .next t) :
    (s.seq.toNat + 1 = latency o s ∧ t.busy = false ∧ t.fsm = .idle) ∨
    (s.seq.toNat + 1 ≠ latency o s ∧ t.busy = true ∧ t.fsm = s.fsm ∧ t.seq = s.seq + 1 ∧ t.curOp = some o ∧
      latency o t = latency o s) := by
  obtain ⟨l, e, v, n, rfl⟩ := step_busy hr hb hx
  rcases microStep_cases hc with ⟨hl, hm⟩ | ⟨hl, hm⟩
  · rw [hm]
    exact .inl ⟨hl, rfl, rfl⟩
  · obtain ⟨m, w, he⟩ := microEffect_eq o s.seq.toNat s
    rw [hm, he]
    exact .inr ⟨hl, hb, rfl, rfl, hc, by cases o <;> rfl⟩

/-- The state an idle block goes to on the access of its cycle, as 43_sequencer.md R183 lists the launches. -/
def launchFsm (i : Option Instr) (s : State) : Fsm :=
  if i = some .keyexp ∧ configLegal s = true then .kx
  else if i = some .enc ∧ s.keyValid = true then .enc
  else if i = some .dec ∧ s.keyValid = true then .dec
  else if i = some .ark ∧ s.keyValid = true ∧ s.rksel.toNat ≤ s.nr.toNat then .stg
  else if i = some .sub ∨ i = some .isub ∨ i = some .shr ∨ i = some .ishr ∨ i = some .mix ∨ i = some .imix then .stg
  else .idle

theorem launchCommand_fsm {s : State} (hf : s.fsm = .idle) (c : Command) :
    (launchCommand c s).fsm = launchFsm (some c.instr) s := by
  rcases launchCommand_cases c s with ⟨rfl, h⟩ | ⟨rfl, hc, h⟩ | ⟨rfl, hc, h⟩ | ⟨hc, hv, h⟩ | ⟨rfl, hv, hr, h⟩ |
    ⟨o, rfl, ho, hv, hr, h⟩ <;> rw [h]
  · simp [hf, launchFsm, Command.instr]
  · simp [hf, launchFsm, Command.instr, hc]
  · simp [launchFsm, Command.instr, hc, fsmOf]
  · rcases hc with rfl | rfl | rfl <;> simp [hf, launchFsm, Command.instr, hv]
  · simp [hf, launchFsm, Command.instr, hr]
  · cases o
    case keyexp => exact absurd rfl ho
    case enc | dec => simp [launchFsm, Command.instr, fsmOf, hv]
    case ark => simp [launchFsm, Command.instr, fsmOf, hv, hr]
    all_goals simp [launchFsm, Command.instr, fsmOf]

theorem exec_idle_fsm {i : Instr} {s t : State} (hw : i.wellFormed = true) (hb : s.busy = false) (hf : s.fsm = .idle)
    (hx : exec i s = .next t) : t.fsm = launchFsm (some i) s := by
  rcases instr_cases i with ⟨a, rfl⟩ | ⟨a, d, rfl⟩ | ⟨c, rfl⟩
  · rw [exec_rd_exact (racingRead_idle hb)] at hx
    cases hx
    simpa [launchFsm] using hf
  · rw [exec_wr_idle hb] at hx
    cases hx
    have hkeep : (regStore d s (regAt a)).fsm = s.fsm := by
      rcases regStore_cases hw s with ⟨-, m, r, e, hs⟩ | ⟨-, k, x, l, hs⟩ <;> rw [hs]
    simpa [launchFsm, hkeep] using hf
  · rw [exec_command_idle hb] at hx
    cases hx
    exact launchCommand_fsm hf c

/-! ## The cycles of a command (43_sequencer.md R186, R188) -/

theorem run_succ {s t : State} (hx : step s = .next t) (k : Nat) : core.run (k + 1) s = core.run k t := by
  have hcore : core.step s = .next t := hx
  simp only [Host.Core.run, hcore]

/-- Without reset on the pins of the coming cycles there is none in the first of them. -/
theorem nextPins_rst {s : State} {d : Nat} (h : ∀ p ∈ s.inputs.take (d + 1), p.rst = false) :
    (nextPins s).rst = false ∧ ∀ p ∈ s.inputs.tail.take d, p.rst = false := by
  rw [nextPins]
  cases hi : s.inputs with
  | nil => simp [Pins.idle]
  | cons p rest =>
    rw [hi, List.take_succ_cons] at h
    exact ⟨h p (by simp), fun q hq => h q (List.mem_cons_of_mem p hq)⟩

/-- With `d` micro-steps to go a command is in flight before each of the next `d` cycles without reset, and idle after
them. -/
theorem run_in_flight {d : Nat} {s : State} {o : Op} (h : CycleInv s) (hb : s.busy = true) (hc : s.curOp = some o)
    (hd : s.seq.toNat + d = latency o s) (hr : ∀ p ∈ s.inputs.take d, p.rst = false) :
    (∀ k < d, ∃ t : State, core.run k s = .next t ∧ t.busy = true) ∧
    ∃ t : State, core.run d s = .next t ∧ t.busy = false := by
  induction d generalizing s with
  | zero =>
    have hlt := (h.seq_bounds hb hc).1
    omega
  | succ d ih =>
    have hmax := (h.seq_bounds hb hc).2
    obtain ⟨hrst, hrest⟩ := nextPins_rst hr
    obtain ⟨t, hx⟩ := step_next s
    rcases step_in_flight hrst hb hc hx with ⟨hl, hbt, -⟩ | ⟨hl, hbt, -, hq, hct, hlat⟩
    · obtain rfl : d = 0 := by omega
      refine ⟨fun k hk => ⟨s, ?_, hb⟩, t, run_succ hx 0, hbt⟩
      obtain rfl : k = 0 := by omega
      rfl
    · have hqt : t.seq.toNat = s.seq.toNat + 1 := by rw [hq, seq_succ_toNat (by omega)]
      obtain ⟨hbusy, hidle⟩ := ih (step_cycleInv h hx) hbt hct (by omega) (by rw [step_inputs hx]; exact hrest)
      rw [run_succ hx]
      refine ⟨fun k hk => ?_, hidle⟩
      cases k with
      | zero => exact ⟨s, rfl, hb⟩
      | succ k => rw [run_succ hx]; exact hbusy k (by omega)

end Sys2Proof.Machine
end

section
open Sys2Proof Sys2Proof.Machine

/-- Settles O40: the access keeps the two levels in step, and then the core's turn does. -/
theorem cycleIsATransactionSchedule : Obligations.CycleIsATransactionSchedule := by
  intro t c c' ht hc hmatch hr hx
  have hbegin := hmatch.of_beginCycle
  rcases step_cases hx with ⟨hr', -⟩ | ⟨-, he, u, hu, rfl⟩ | ⟨-, he, rfl⟩
  · rw [hr] at hr'; cases hr'
  · obtain ⟨t', ht'⟩ := exec_next (decodeWord (nextPins c).word) (beginCycle t)
    obtain ⟨c', hc', hm⟩ := hbegin.of_exec ht hc ht'
    obtain rfl : u = c' := by rw [hu] at hc'; cases hc'; rfl
    obtain ⟨t'', hrun, hinv, hm'⟩ := hm.of_coreTurn (b := c.busy) (exec_txInv (s := beginCycle t) ht ht')
      (exec_cycleInv (s := beginCycle c) hc hu) (fun hb => by rw [exec_busy (s := beginCycle c) hb hu]; exact hb)
    refine ⟨t'', ?_, hinv, hm'⟩
    have haccess : txRun [.access (decodeWord (nextPins c).word)] (beginCycle t) = some t' := by
      simp only [txRun, txStep_access (s := beginCycle t) ht']
    rw [if_pos he]
    exact txRun_trans haccess hrun
  · rw [if_neg (by simp [he])]
    exact hbegin.of_coreTurn ht hc id

/-- Settles O9: fairness gives a first commit or reset, and up to it the host changes nothing that the commit reads. -/
theorem everyCycleCompletes : Obligations.EveryCycleCompletes := by
  refine ⟨step_next, exec_next, fun sched run n h hb => ?_⟩
  obtain ⟨d, hend, hfirst⟩ := h.exists_first_end hb
  obtain ⟨hx, -⟩ := h
  have hframe {k : Nat} (hk : k ≤ d) : run (n + k) =
      { run n with err := (run (n + k)).err, rdata := (run (n + k)).rdata, draws := (run (n + k)).draws } :=
    hx.busy_frame hb k fun j hj hjk => by
      have hj' := hfirst (j - n) (by omega)
      rw [Nat.add_sub_of_le hj] at hj'
      exact not_or.1 hj'
  have hbd : (run (n + d)).busy = true := by rw [hframe (Nat.le_refl d)]; exact hb
  have hcommit (hc : sched (n + d) = some .commit) : run (n + d + 1) = commit (run (n + d)) :=
    Option.some.inj ((hx.txStep_eq hc).symm.trans (txStep_commit hbd))
  refine ⟨n + d, by omega, hend, ?ended, fun k hnk hkd => ?flight, fun hc => ?commit⟩
  case flight =>
    obtain ⟨j, rfl⟩ := Nat.exists_eq_add_of_le hnk
    rw [hframe (k := j) (by omega)]
    exact ⟨hb, rfl⟩
  case ended =>
    rcases hend with he | he
    · rw [hcommit he]; exact commit_busy _
    · exact (congrArg State.busy (Option.some.inj (hx.txStep_eq he))).symm
  case commit =>
    refine ⟨_, txStep_commit hb, ?_⟩
    have hlast : run (n + d + 1) = { commit (run n) with
        err := (run (n + d)).err, rdata := (run (n + d)).rdata, draws := (run (n + d)).draws } := by
      rw [hcommit hc, hframe (Nat.le_refl d)]
      exact commit_withOutput _ _ _ _
    rw [hlast]

/-- Settles O36: the frame of an access while busy and that of a micro-step. -/
theorem coreAndHostWritesAreApart : Obligations.CoreAndHostWritesAreApart := by
  intro s t i hb hx
  obtain ⟨_, _, _, _, _, _, hm⟩ := microStep_eq s
  refine ⟨exec_busy hb hx, ?_, ?_, ?_, ?_, ?_, ?_, ?_, ?_, microStep_of_exec hb hx⟩ <;> rw [hm]

/-- Settles O38: the rounds of ENC and DEC, the words of KEYEXP, and the one step of every other command. -/
theorem microStepsEqualTheCommit : Obligations.MicroStepsEqualTheCommit := by
  intro s o h hb hc
  refine ⟨?_, fun n hn => ⟨microRun_busy h hb hc hn, microRun_seq h hb hc hn⟩⟩
  rw [txStep_commit hb, microRun_eq_commit h hb hc]

/-- Settles O39: cycle by cycle, the micro-steps that are left to the latency. -/
theorem busyForExactlyTheLatency : Obligations.BusyForExactlyTheLatency := by
  intro s o n h hb hc hq hn hr
  obtain rfl : n = latency o s := by cases o <;> exact hn
  obtain ⟨hbusy, t, ht, hidle⟩ := run_in_flight h hb hc (by simp [hq]) hr
  refine ⟨fun k hk => ?_, t, ht, (statusByte_getLsbD t 0).trans hidle⟩
  obtain ⟨u, hu, hbu⟩ := hbusy k hk
  exact ⟨u, hu, (statusByte_getLsbD u 0).trans hbu⟩

/-- Settles O41: the launches of an idle block, and the micro-steps of a busy one. -/
theorem fsmTransitions : Obligations.FsmTransitions := by
  rintro s t i h hx rfl
  have ⟨hseq, _⟩ := h
  refine ⟨(step_cycleInv h hx).1.busy_iff, fun hr => ?reset, fun hr hf => ?idle, fun hr hf o hc => ?flight⟩
  case reset =>
    obtain ⟨l, v, n, rfl⟩ := step_reset hr hx
    rfl
  case idle =>
    have hb : s.busy = false := Bool.eq_false_iff.2 fun hb => hseq.busy_iff.1 hb hf
    change t.fsm = launchFsm _ s
    rcases step_idle hr hb hx with ⟨he, rfl⟩ | ⟨he, hu⟩
    · rw [if_neg (by simp [he])]
      simpa [launchFsm] using hf
    · rw [if_pos he]
      exact exec_idle_fsm (s := beginCycle s) (decodeWord_wellFormed _) hb hf hu
  case flight =>
    rcases step_in_flight hr (hseq.busy_iff.2 hf) hc hx with ⟨hl, -, ht⟩ | ⟨hl, -, ht, -⟩
    · rw [if_pos hl, ht]
    · rw [if_neg hl, ht]

/-- Settles O5: the pins, placed or queued, name the access that the cycle runs. -/
theorem stepRunsTheDecodedAccess : Obligations.StepRunsTheDecodedAccess := by
  refine ⟨fun s t p rest i hp hr he hi hx => ?pins, fun s t w i hi hx => ?word⟩
  case pins =>
    have hnext : nextPins s = p := by rw [nextPins, hp]; rfl
    have hbegin : beginCycle s = { s with inputs := rest, rdata := 0x00 } := by rw [beginCycle, hp]; rfl
    refine step_access (by rw [hnext, hr]) (by rw [hnext, he]) ?_
    rw [hnext, hbegin, ← hx, ← hi]
    rfl
  case word =>
    rw [decodeTableWord_24] at hi
    split at hi
    · cases hi
      refine step_access (s := s.withFetchWord 24 w) rfl rfl ?_
      rw [nextPins_withFetchWord, ofWord_word]
      exact hx
    · cases hi

/-- Settles O6: the pins of the cycle carry no access. -/
theorem cycleWithoutAccess : Obligations.CycleWithoutAccess := by
  intro s h
  have hquiet : (nextPins s).rst = false ∧ (nextPins s).en = false := by
    rcases h with h | ⟨p, rest, h, hr, he⟩ <;> rw [nextPins, h]
    · exact ⟨rfl, rfl⟩
    · exact ⟨hr, he⟩
  exact step_noAccess hquiet.1 hquiet.2

end

section
/-! PROOF. Errors (60_exceptions.md; obligations O42, O43, O44 and O4): what a rejected access does, and that an access
looks at `err` only to read it back or to set or clear its bits. And several blocks side by side (R213, obligation O52). -/

namespace Sys2Proof

theorem decodeCmd_eq_none {d : Byte} : decodeCmd d = none ↔ ∀ c : Command, d ≠ c.code := by
  simp only [Option.eq_none_iff_forall_ne_some, ne_eq, decodeCmd_eq_some]

/-- The 245 illegal bytes lie between and above the codes (30_encoding.md R94, R96). -/
theorem ne_code_of_illegal {d : Byte} (h : (0x04 ≤ d.toNat ∧ d.toNat ≤ 0x0F) ∨ 0x17 ≤ d.toNat) (c : Command) :
    d ≠ c.code := by
  rintro rfl
  rcases c with _ | ⟨_ | _ | _ | _ | _ | _ | _ | _ | _ | _⟩ <;> revert h <;> decide

end Sys2Proof

namespace Sys2Proof.Machine

/-! ## Rejection (60_exceptions.md R201 to R208) -/

/-- A CMD write of a byte that is no command's code is ILLCMD (60_exceptions.md R205). -/
theorem exec_illcmd {s : State} {d : Byte} (hb : s.busy = false) (hd : ∀ c : Command, d ≠ c.code) :
    exec (.wr cmdAddr d) s = .next { s with err := s.err ||| 4 } := by
  have hs : regStore d s (regAt cmdAddr) = launchByte d s := rfl
  rw [exec_wr_idle hb, hs, launchByte, decodeCmd_eq_none.2 hd]
  rfl

/-- ENC, DEC and ARK without a valid key are NOKEY (60_exceptions.md R208). -/
theorem exec_nokey {i : Instr} {s : State} (hb : s.busy = false) (hv : s.keyValid = false)
    (hi : i = .enc ∨ i = .dec ∨ i = .ark) : exec i s = .next { s with err := s.err ||| 2 } := by
  rcases hi with rfl | rfl | rfl
  · exact exec_command_nokey (o := .enc) hb (by simp) hv
  · exact exec_command_nokey (o := .dec) hb (by simp) hv
  · exact exec_command_nokey (o := .ark) hb (by simp) hv

/-- An access with the cause of an error sets that error's bit and does nothing else, but that CFG clears `key_valid`
(60_exceptions.md R201). -/
theorem exec_of_errCause {i : Instr} {s : State} {e : ErrCode} (h : ErrCause i s e) :
    ∃ v, exec i s = .next { s with err := errSet s.err e, keyValid := v } ∧
      (v = s.keyValid ∨ i = .keyexp ∧ v = false) := by
  cases e
  case cfg =>
    obtain ⟨hb, rfl, hc⟩ := h
    exact ⟨false, exec_keyexp_rejected hb hc, .inr ⟨rfl, rfl⟩⟩
  case nokey =>
    obtain ⟨hb, hv, hi⟩ := h
    exact ⟨s.keyValid, exec_nokey hb hv hi, .inl rfl⟩
  case illcmd =>
    obtain ⟨hb, d, rfl, hd⟩ := h
    exact ⟨s.keyValid, exec_illcmd hb hd, .inl rfl⟩
  case busyacc =>
    obtain ⟨hb, ⟨a, d, rfl, ha⟩ | ⟨c, rfl⟩⟩ := h
    · exact ⟨s.keyValid, exec_wr_busy hb ha, .inl rfl⟩
    · exact ⟨s.keyValid, exec_command_busyacc hb, .inl rfl⟩
  case rkrange =>
    obtain ⟨hb, hv, rfl, hr⟩ := h
    exact ⟨s.keyValid, exec_ark_rkrange hb hv hr, .inl rfl⟩

/-! ## What an access makes of `err` (60_exceptions.md R208, R212) -/

/-- What access `i` may do to `err`, as a function of `err` alone: keep it, set one bit, or clear bits at ERR. -/
inductive ErrAction (i : Instr) : (BitVec 5 → BitVec 5) → Prop where
  | keep : ErrAction i id
  | set (c : ErrCode) : ErrAction i (errSet · c)
  | clear {d : Byte} (h : i = .wr 0x36 d) : ErrAction i (errCleared · d)

/-- A bit that an action sets in one value of `err` it sets in every value. -/
theorem ErrAction.raises_same {i : Instr} {g : BitVec 5 → BitVec 5} (h : ErrAction i g) {x : BitVec 5} (y : BitVec 5)
    {k : Nat} (hk : k < 5) (h0 : x.getLsbD k = false) (h1 : (g x).getLsbD k = true) : (g y).getLsbD k = true := by
  cases h with
  | keep => rw [id, h0] at h1; cases h1
  | set c =>
    rw [errSet_getLsbD _ _ hk, h0, Bool.false_or] at h1
    rw [errSet_getLsbD _ _ hk, h1, Bool.or_true]
  | clear => rw [errCleared_getLsbD _ _ hk, h0] at h1; cases h1

theorem ErrCode.code_lt (e : ErrCode) : e.code < 5 := by cases e <;> decide

/-- Only a write to ERR clears bits; any other action sets at most one (60_exceptions.md R208). -/
theorem ErrAction.sets_at_most_one {i : Instr} {g : BitVec 5 → BitVec 5} (h : ErrAction i g) (hi : ∀ d, i ≠ .wr 0x36 d)
    (x : BitVec 5) : g x = x ∨ ∃ k : Fin 5, g x = x ||| ((1 : BitVec 5) <<< k.val) := by
  cases h with
  | keep => exact .inl rfl
  | set c => exact .inr ⟨⟨c.code, c.code_lt⟩, rfl⟩
  | clear h => exact absurd h (hi _)

/-- `f` does at `s` what it does whatever `err` holds there: everything but `err` comes out the same, and `err` by an
action of `i`. -/
def ActsOnErr (i : Instr) (f : State → State) (s : State) : Prop :=
  ∃ g, ErrAction i g ∧ ∀ e, f { s with err := e } = { f s with err := g e }

section
variable {i : Instr} {s : State} {f g : State → State}

theorem ActsOnErr.of_keep (h : ∀ e, f { s with err := e } = { f s with err := e }) : ActsOnErr i f s :=
  ⟨id, .keep, h⟩

theorem actsOnErr_raise (c : ErrCode) : ActsOnErr i (raise c) s := ⟨_, .set c, fun _ => rfl⟩

theorem actsOnErr_launch (o : Op) : ActsOnErr i (launch o) s := .of_keep fun _ => rfl

/-- A choice that does not look at `err`. -/
theorem ActsOnErr.ite {p : State → Prop} [DecidablePred p] (hp : ∀ e, p { s with err := e } ↔ p s)
    (hf : ActsOnErr i f s) (hg : ActsOnErr i g s) : ActsOnErr i (fun u => if p u then f u else g u) s := by
  by_cases h : p s
  · simpa only [ActsOnErr, hp, h, if_true] using hf
  · simpa only [ActsOnErr, hp, h, if_false] using hg

/-- The launch checks look at the key and the configuration, never at `err`. -/
theorem actsOnErr_launchCommand (c : Command) : ActsOnErr i (launchCommand c) s := by
  rcases c with _ | o
  · exact .of_keep fun _ => rfl
  cases o
  case keyexp =>
    exact .ite (p := fun u => configLegal u = true) (fun _ => Iff.rfl) (.of_keep fun _ => rfl)
      ⟨_, .set .cfg, fun _ => rfl⟩
  case enc | dec =>
    exact .ite (p := fun u => (!u.keyValid) = true) (fun _ => Iff.rfl) (actsOnErr_raise _) (actsOnErr_launch _)
  case ark =>
    exact .ite (p := fun u => (!u.keyValid) = true) (fun _ => Iff.rfl) (actsOnErr_raise _)
      (.ite (p := fun u => u.nr.toNat < u.rksel.toNat) (fun _ => Iff.rfl) (actsOnErr_raise _) (actsOnErr_launch _))
  all_goals exact actsOnErr_launch _

theorem actsOnErr_launchByte (d : Byte) : ActsOnErr i (launchByte d) s := by
  unfold launchByte
  cases decodeCmd d with
  | none => exact actsOnErr_raise _
  | some c => exact actsOnErr_launchCommand c

theorem actsOnErr_hostWrite (a : Byte) (h : ActsOnErr i f s) : ActsOnErr i (hostWrite a f) s :=
  .ite (p := fun u => (u.busy && decide (a.toNat ≤ 0x34)) = true) (fun _ => Iff.rfl) (actsOnErr_raise _) h

end

theorem actsOnErr_regWrite (a d : Byte) (s : State) : ActsOnErr (.wr a d) (regWrite a d) s := by
  unfold regWrite
  cases hr : regAt a
  case cmd => exact actsOnErr_launchByte d
  case err =>
    obtain rfl : a = 0x36 := BitVec.eq_of_toNat_eq (by simpa [regHas] using regHas_of_regAt hr)
    exact ⟨_, .clear rfl, fun _ => rfl⟩
  all_goals exact .of_keep fun _ => rfl

/-- An effect leaves `err` by its action, and from another `err` the rest comes out the same. -/
theorem ActsOnErr.exec_withErr {i : Instr} {f : State → State} {s t : State} (h : ActsOnErr i f s)
    (hf : ∀ u, exec i u = .next (f u)) (hx : exec i s = .next t) :
    ∃ g, ErrAction i g ∧ t.err = g s.err ∧ ∀ e, exec i { s with err := e } = .next { t with err := g e } := by
  obtain ⟨g, hg, h⟩ := h
  cases (hf s).symm.trans hx
  exact ⟨g, hg, congrArg State.err (h s.err), fun e => by rw [hf, h]⟩

/-- An access is a read, or acts on `err` apart from everything else (60_exceptions.md R212). -/
theorem exec_errAction {i : Instr} {s t : State} (hx : exec i s = .next t) : (∃ a, i = .rd a) ∨
    ∃ g, ErrAction i g ∧ t.err = g s.err ∧ ∀ e, exec i { s with err := e } = .next { t with err := g e } := by
  rcases instr_cases i with ⟨a, rfl⟩ | ⟨a, d, rfl⟩ | ⟨c, rfl⟩
  · exact .inl ⟨a, rfl⟩
  · exact .inr ((actsOnErr_hostWrite a (actsOnErr_regWrite a d s)).exec_withErr (fun _ => rfl) hx)
  · exact .inr ((actsOnErr_hostWrite cmdAddr (actsOnErr_launchCommand c)).exec_withErr (exec_command c) hx)

/-- Only STATUS and ERR show the errors (20_memory.md R68, R69). -/
theorem regRead_withErr {a : Byte} (hs : a ≠ 0x35) (he : a ≠ 0x36) (s : State) (e : BitVec 5) :
    regRead a { s with err := e } = regRead a s := by
  rw [regRead, regRead]
  cases hr : regAt a
  case status => exact absurd (BitVec.eq_of_toNat_eq (by simpa [regHas] using regHas_of_regAt hr)) hs
  case err => exact absurd (BitVec.eq_of_toNat_eq (by simpa [regHas] using regHas_of_regAt hr)) he
  all_goals rfl

/-- A read leaves `err`, and returns the same byte whatever `err` holds, but at STATUS and ERR (60_exceptions.md R212). -/
theorem exec_rd_withErr {a : Byte} {s t : State} (hx : exec (.rd a) s = .next t) (e : BitVec 5) : t.err = s.err ∧
    ∃ v, exec (.rd a) { s with err := e } = .next { t with err := e, rdata := v } ∧
      (a ≠ 0x35 → a ≠ 0x36 → v = t.rdata) := by
  cases hr : racingRead a s
  case false =>
    rw [exec_rd_exact hr] at hx
    cases hx
    exact ⟨rfl, _, exec_rd_exact (s := { s with err := e }) hr, fun hs he => regRead_withErr hs he s e⟩
  case true =>
    rw [exec_rd_race hr] at hx
    cases hx
    exact ⟨rfl, _, exec_rd_race (s := { s with err := e }) hr, fun _ _ => rfl⟩

/-! ## Several blocks (60_exceptions.md R213) -/

theorem stepOne_of_step {k : Nat} {sys : List State} {s t : State} (hs : sys[k]? = some s) (ht : step s = .next t) :
    stepOne k sys = some (sys.set k t) := by
  simp only [stepOne, hs, ht]

end Sys2Proof.Machine
end

section
open Sys2Proof Sys2Proof.Machine

/-- Settles O42: the action of the access on `err`, and one rejection for each place in the order. -/
theorem errorPriority : Obligations.ErrorPriority := by
  refine ⟨fun i s t hx hi => ?action, fun s a d hb ha => exec_wr_busy hb ha, fun s c hb => exec_command_busyacc hb,
    fun s d hb hd => exec_illcmd hb hd, fun s i hb hv hi => exec_nokey hb hv hi,
    fun s hb hv hr => exec_ark_rkrange hb hv hr, fun s hb hc => exec_keyexp_rejected hb (configLegal_eq_false.2 hc)⟩
  case action =>
    rcases exec_errAction hx with ⟨a, rfl⟩ | ⟨g, hg, herr, -⟩
    · exact .inl (exec_rd_withErr hx s.err).1
    · rw [herr]
      exact hg.sets_at_most_one hi s.err

/-- Settles O43: an access that sets an error bit has that error's cause, and what it does then is the rejection. -/
theorem rejectionIsPrecise : Obligations.RejectionIsPrecise := by
  intro i s t hw hx hi hne
  rcases exec_errOutcome hw hx with ⟨d, hd, -⟩ | ⟨-, e, hc, -⟩ | ⟨-, -, h⟩
  · exact absurd hd (hi d)
  · obtain ⟨v, hv, hkey⟩ := exec_of_errCause hc
    cases hv.symm.trans hx
    exact ⟨rfl, hkey⟩
  · exact absurd h hne

/-- Settles O44: a read shows `err` only at STATUS and ERR; any other access acts on `err` apart from the rest. -/
theorem errorsNeverBlockLaterAccesses : Obligations.ErrorsNeverBlockLaterAccesses := by
  intro s t i e hx
  rcases exec_errAction hx with ⟨a, rfl⟩ | ⟨g, hg, herr, h⟩
  · obtain ⟨herr, v, hv, hsame⟩ := exec_rd_withErr hx e
    refine ⟨e, v, hv, fun hs he => hsame (by simpa using hs) (by simpa using he), fun k _ h0 h1 => ?_⟩
    rw [herr, h0] at h1
    cases h1
  · refine ⟨g e, t.rdata, h e, fun _ _ => rfl, fun k hk h0 h1 => ?_⟩
    rw [herr] at h1
    exact hg.raises_same e hk h0 h1

/-- Settles O4: no command has the byte as its code, so it decodes as WR and is ILLCMD. -/
theorem illegalCommandByteSetsIllcmd : Obligations.IllegalCommandByteSetsIllcmd := by
  intro s d hb hd
  have hcode := ne_code_of_illegal hd
  refine ⟨?_, exec_illcmd hb hcode⟩
  have hdec := decodeWord_busWord true cmdAddr d
  simp only [decodeWrite, decodeCmd_eq_none.2 hcode, if_true] at hdec
  exact hdec

/-- Settles O52: each step writes its own place of the list, and writes of two places commute. -/
theorem instancesAreIndependent : Obligations.InstancesAreIndependent := by
  intro k j sys sys' h hjk
  obtain ⟨s, t, hs, ht, rfl⟩ := stepOne_cases h
  have hk : k < sys.length := (List.getElem?_eq_some_iff.1 hs).1
  refine ⟨List.length_set, List.getElem?_set_ne hjk.symm, ⟨s, t, hs, ht, List.getElem?_set_self hk⟩, fun x hx => ?_⟩
  obtain ⟨s', t', hs', ht', rfl⟩ := stepOne_cases hx
  refine ⟨(sys.set k t).set j t', stepOne_of_step ?_ ht', ?_⟩
  · rw [List.getElem?_set_ne hjk.symm, hs']
  · rw [List.set_comm _ _ hjk.symm]
    exact stepOne_of_step (by rw [List.getElem?_set_ne hjk, hs]) ht

end

section
/-! PROOF. Reset and boot (70_reset_and_hazards.md R220, R223, R233): the writes that load a key, the KEYEXP that
expands it, and what a key write takes away (obligations O7, O49 and O55). -/

namespace Sys2Proof.Machine

/-! ## Reset (70_reset_and_hazards.md R220) -/

/-- The reset values are those of the spec's elements: the model's own fields are free. -/
theorem resetValues_withHostSide (l : List Pins) (v : Byte) (n : Nat) :
    ResetValues { State.reset with inputs := l, rdata := v, draws := n } := resetStateIsGood.1

/-! ## Writes to the key registers (20_memory.md R64, R66, R67; 70_reset_and_hazards.md R233) -/

/-- An accepted write to KEY, STRL, STRH or KEYLEN writes the key or the configuration, clears `key_valid` and does
nothing else. -/
theorem exec_wr_keyRegister {s : State} {a d : Byte} (hb : s.busy = false) (ha : ClearsKeyValid (.wr a d)) :
    ∃ k x l, exec (.wr a d) s = .next { s with key := k, strength := x, keylen := l, keyValid := false } := by
  have hcmd : a ≠ cmdAddr := by
    rintro rfl
    exact absurd (clearsKeyValid_wr.1 ha) (by decide)
  have hw : (Instr.wr a d).wellFormed = true := by simp [Instr.wellFormed, isCommandRow, hcmd]
  rw [exec_wr_idle hb]
  rcases regStore_cases hw s with ⟨hn, -⟩ | ⟨-, k, x, l, hs⟩
  · exact absurd ha hn
  · exact ⟨k, x, l, by rw [hs]⟩

/-! ## Loading a key (30_encoding.md R99) -/

/-- SETSTR leaves the strength it names, and no valid key. -/
theorem txRun_asmSetStr (n : BitVec 16) {s : State} (hb : s.busy = false) :
    txRun ((asmSetStr n).map .access) s = some { s with strength := n, keyValid := false, rdata := 0x00 } := by
  obtain ⟨-, -, orders⟩ := strengthRegisters
  exact (orders s n hb).1

/-- The writes of a list of bytes to KEY, from its first register on, leave the bytes there. -/
theorem txRun_keyWrites {bytes : List Byte} (hl : bytes.length ≤ 32) {s : State} (hb : s.busy = false) :
    ∃ k v r, txRun ((bytes.mapIdx fun i b => .wr (BitVec.ofNat 8 i) b).map .access) s =
        some { s with key := k, keyValid := v, rdata := r } ∧
      ∀ i < bytes.length, k[i]? = bytes[i]? := by
  induction bytes using List.reverseRecOn with
  | nil => exact ⟨s.key, s.keyValid, s.rdata, rfl, by simp⟩
  | append_singleton bytes b ih =>
    have hlt : bytes.length < 32 := by simpa using hl
    obtain ⟨k, v, r, hrun, hk⟩ := ih hlt.le
    have hwr : txStep (.access (.wr (BitVec.ofNat 8 bytes.length) b)) { s with key := k, keyValid := v, rdata := r } =
        some { s with key := k.set bytes.length b, keyValid := false, rdata := 0x00 } :=
      txStep_access (by rw [exec_wr_idle (by exact hb), regAt_key ⟨bytes.length, hlt⟩]; rfl)
    refine ⟨k.set bytes.length b, false, 0x00, ?_, fun i hi => ?_⟩
    · rw [List.mapIdx_concat, List.map_append]
      exact txRun_trans hrun (by simp only [List.map, txRun, hwr])
    · rcases Nat.lt_or_ge i bytes.length with h | h
      · rw [Vector.getElem?_set_ne _ h.ne', List.getElem?_append_left h, hk i h]
      · obtain rfl : i = bytes.length := by simp at hi; omega
        simp [hlt]

/-- SETKEY leaves the key's bytes and their number, and no valid key. -/
theorem txRun_asmSetKey {bytes : List Byte} (hl : bytes.length ≤ 32) {s : State} (hb : s.busy = false) :
    ∃ k, txRun ((asmSetKey bytes).map .access) s =
        some { s with key := k, keylen := BitVec.ofNat 8 bytes.length, keyValid := false, rdata := 0x00 } ∧
      ∀ i < bytes.length, k[i]? = bytes[i]? := by
  obtain ⟨k, v, r, hrun, hk⟩ := txRun_keyWrites hl hb
  have hlen : txStep (.access (.wr (addrOf .keylen) (BitVec.ofNat 8 bytes.length)))
        { s with key := k, keyValid := v, rdata := r } =
      some { s with key := k, keylen := BitVec.ofNat 8 bytes.length, keyValid := false, rdata := 0x00 } :=
    txStep_access (exec_wr_idle hb)
  refine ⟨k, ?_, hk⟩
  rw [asmSetKey, List.map_append]
  exact txRun_trans hrun (by simp only [List.map, txRun, hlen])

/-! ## Expanding it (41_key_schedule.md R141 to R143) -/

/-- KEYEXP with a legal configuration, run to its commit, leaves a valid key that meets the key invariant. -/
theorem txRun_keyexp {s : State} (hb : s.busy = false) (hc : configLegal s = true) :
    ∃ t n w, t = { ranTo .keyexp s.st s with nr := n, w := w, keyValid := true } ∧
      txRun (txCommand .keyexp) s = some t ∧ ConfigInv t ∧ ScheduleInv t := by
  have hlaunch := txStep_access (exec_keyexp_launched (s := { s with rdata := 0x00 }) hb hc)
  have hcfg : ConfigInv (launch .keyexp
      { s with nr := BitVec.ofNat 8 (nkOf s.strength + 6), keyValid := false, rdata := 0x00 }) :=
    configInv_of_configLegal hc
  obtain ⟨w, hcommit, hwords, -⟩ := commit_keyexp (by exact rfl) hcfg
  refine ⟨_, _, w, rfl, ?_, hcfg, hwords⟩
  simp only [txCommand, txRun, hlaunch, txStep_commit (launch_busy _ _), hcommit]
  rfl

end Sys2Proof.Machine
end

section
open Sys2Proof Sys2Proof.Machine

/-- Settles O7: a reset cycle leaves the reset state but for the pins, the output and the draw count. -/
theorem resetSetsEveryElement : Obligations.ResetSetsEveryElement := by
  refine ⟨fun s p rest hs hr => ?_, fun s => ⟨_, rfl, resetValues_withHostSide s.inputs _ s.draws⟩⟩
  have hrst : (nextPins s).rst = true := by rw [nextPins, hs]; exact hr
  obtain ⟨t, ht⟩ := step_next s
  have hrest : t.inputs = rest := by rw [step_inputs ht, hs]; rfl
  obtain ⟨l, v, n, rfl⟩ := step_reset hrst ht
  exact ⟨_, ht, resetValues_withHostSide l v n, hrest⟩

/-- Settles O49: the write clears `key_valid`, and without it the command is NOKEY. -/
theorem keyWriteInvalidatesTheRoundKeys : Obligations.KeyWriteInvalidatesTheRoundKeys := by
  intro s a d i hb ha hi
  have hclears : ClearsKeyValid (.wr a d) := clearsKeyValid_wr.2 (by omega)
  obtain ⟨k, x, l, hx⟩ := exec_wr_keyRegister hb hclears
  exact ⟨_, hx, rfl, rfl, exec_nokey (by exact hb) (by exact rfl) hi⟩

/-- Settles O55: strength, key and length leave a legal configuration, from which KEYEXP runs to a valid key. -/
theorem bootSequenceYieldsAValidKey : Obligations.BootSequenceYieldsAValidKey := by
  intro s n bytes hb hn hl
  have hmax : n.toNat ≤ 256 := by rcases hn with rfl | rfl | rfl <;> decide
  have hle : bytes.length ≤ 32 := by omega
  have hlen : (BitVec.ofNat 8 bytes.length).toNat * 8 = n.toNat := by
    rw [BitVec.toNat_ofNat, Nat.mod_eq_of_lt (by omega), hl]
  obtain ⟨k, hload, hk⟩ :=
    txRun_asmSetKey hle (s := { s with strength := n, keyValid := false, rdata := 0x00 }) hb
  obtain ⟨t, m, w, rfl, hexp, hcfg, hwords⟩ := txRun_keyexp
    (s := { s with strength := n, key := k, keylen := BitVec.ofNat 8 bytes.length, keyValid := false, rdata := 0x00 })
    hb (configLegal_iff.2 ⟨hn, hlen⟩)
  have hrun := txRun_trans (txRun_trans (txRun_asmSetStr n hb) hload) hexp
  have ⟨_, _, hnr⟩ := hcfg
  refine ⟨_, ?_, rfl, rfl, hnr, hcfg, hwords, hk, rfl, rfl, rfl⟩
  simpa [txCommand] using hrun

end
